-- ==== Sys2Proof/Word.lean ====
section
/-! DEFINITION. The widths of the spec and the records its tables hold (00_scope.md R5, R7; 10_state.md R34, R38,
R41, R46). Every register and field is an unsigned number of stated width (R7). -/

namespace Sys2Proof

/-- A symbol, a FIFO entry, or an 8-bit field (R5 SYM_WIDTH). -/
abbrev Byte := BitVec 8

/-- A register of the window (R15), a command word (R70), a count (R5 COUNT_WIDTH). -/
abbrev Word := BitVec 32

/-- A node index (R5 IDX_WIDTH): 9 bits, of which 0 to 510 name an arena entry. -/
abbrev Index := BitVec 9

/-- KIND of an arena entry (R38). -/
inductive NodeKind where
  | leaf
  | internal
deriving DecidableEq, Repr, Inhabited

/-- One entry of the node arena (R38). -/
structure Node where
  kind  : NodeKind
  sym   : Byte
  count : Word
  left  : Index
  right : Index
deriving DecidableEq, Repr, Inhabited

/-- One entry of the code table (R41): VALID and BITS, the first bit nearest the root (R108). LEN is the length of
BITS, "a sequence of LEN bits", and is stored in no second place. -/
structure CodeEntry where
  valid : Bool
  bits  : List Bool
deriving DecidableEq, Repr, Inhabited

/-- The life-cycle state of the block (R34). -/
inductive Phase where
  | empty
  | loaded
  | built
  | coded
deriving DecidableEq, Repr

/-- The error codes 0 to 8 (60_exceptions.md R125); 9 to 15 are reserved and never set. -/
inductive ErrCode where
  | ok
  | illegalCmd
  | badPhase
  | dupSymbol
  | countOverflow
  | noRecords
  | codeMiss
  | truncated
  | aborted
deriving DecidableEq, Repr

end Sys2Proof
end

