-- ==== Sys2Proof/Syntax.lean ====
section
/-! DEFINITION. The sixteen commands of HUFF-CMD version 1 (30_encoding.md R71, R72), one constructor per row of
opcode_table.json, in its order. A command's operands are the immediate fields of its layout; LOAD_RECORD's count is
CMD_ARG, which no word holds (R70). -/

namespace Sys2Proof

inductive Instr where
  | nop
  | clear
  | ackErr
  | loadRecord (sym : Byte)
  | build
  | genCodes
  | queryNode (idx : Index)
  | queryCode (sym : Byte)
  | writeBits (nb : BitVec 5) (v : BitVec 16)
  | flush
  | readBit
  | skipBits (n : BitVec 24)
  | alignRead
  | encodeSym (sym : Byte)
  | encodeStream
  | decode
deriving DecidableEq, Repr

end Sys2Proof
end

