-- ==== Sys2Proof/WellFormed.lean ====
section
/-! DEFINITION. The commands that some word encodes (30_encoding.md R71, R74 (c)): only WRITE_BITS has operand values
that its fields can hold and the command set does not admit. -/

namespace Sys2Proof

/-- R74 (c): NB is 1 to 16 and no bit of V at or above NB is set. -/
abbrev writeBitsOk (nb : BitVec 5) (v : BitVec 16) : Bool :=
  decide (1 ≤ nb.toNat) && decide (nb.toNat ≤ 16) && (v >>> nb.toNat == 0#16)

/-- The operands lie in the ranges R71 gives them. -/
def Instr.wf : Instr → Bool
  | .nop => true
  | .clear => true
  | .ackErr => true
  | .loadRecord _ => true
  | .build => true
  | .genCodes => true
  | .queryNode _ => true
  | .queryCode _ => true
  | .writeBits nb v => writeBitsOk nb v
  | .flush => true
  | .readBit => true
  | .skipBits _ => true
  | .alignRead => true
  | .encodeSym _ => true
  | .encodeStream => true
  | .decode => true

end Sys2Proof
end

