-- ==== Sys2Proof/Decode.lean ====
section
/-! DEFINITION. The command word (30_encoding.md R70 to R75): fields, opcode map, decoder, encoder. -/

namespace Sys2Proof

/-- Why a word is illegal: the three causes of R74. -/
inductive Illegal where
  /-- R74 (a): OPC is none of the sixteen opcodes. -/
  | unassignedOpcode
  /-- R74 (b): a must-be-zero operand bit is 1. -/
  | mustBeZero
  /-- R74 (c): WRITE_BITS with NB = 0, NB > 16 or a bit of V at or above NB. -/
  | badWriteBits
deriving DecidableEq, Repr

/-- OPC, bits 31:24 (R70). -/
def opcOf (w : Word) : Byte := w.extractLsb' 24 8

/-- OPERAND, bits 23:0 (R70). -/
def operandOf (w : Word) : BitVec 24 := w.extractLsb' 0 24

/-! The operand layouts of R71, each with its must-be-zero bits. -/

/-- Layout Z: no field, 23:0 zero. -/
def layoutZ (i : Instr) (x : BitVec 24) : Except Illegal Instr :=
  if x = 0#24 then .ok i else .error .mustBeZero

/-- Layout S: SYM = 7:0, 23:8 zero. -/
def layoutS (mk : Byte → Instr) (x : BitVec 24) : Except Illegal Instr :=
  if x.extractLsb' 8 16 = 0#16 then .ok (mk (x.extractLsb' 0 8)) else .error .mustBeZero

/-- Layout I: IDX = 8:0, 23:9 zero. -/
def layoutI (mk : Index → Instr) (x : BitVec 24) : Except Illegal Instr :=
  if x.extractLsb' 9 15 = 0#15 then .ok (mk (x.extractLsb' 0 9)) else .error .mustBeZero

/-- Layout B: NB = 20:16, V = 15:0, 23:21 zero, and V zero from bit NB up; NB is 1 to 16. -/
def layoutB (mk : BitVec 5 → BitVec 16 → Instr) (x : BitVec 24) : Except Illegal Instr :=
  if x.extractLsb' 21 3 = 0#3 then
    if writeBitsOk (x.extractLsb' 16 5) (x.extractLsb' 0 16) then
      .ok (mk (x.extractLsb' 16 5) (x.extractLsb' 0 16))
    else .error .badWriteBits
  else .error .mustBeZero

/-- Layout K: NSKIP = 23:0. -/
def layoutK (mk : BitVec 24 → Instr) (x : BitVec 24) : Except Illegal Instr := .ok (mk x)

/-- The opcode map (R72). Every word is a command or is illegal for a named cause (R74). -/
def decode (w : Word) : Except Illegal Instr :=
  match opcOf w with
  | 0x00#8 => layoutZ .nop (operandOf w)
  | 0x01#8 => layoutZ .clear (operandOf w)
  | 0x02#8 => layoutZ .ackErr (operandOf w)
  | 0x10#8 => layoutS .loadRecord (operandOf w)
  | 0x11#8 => layoutZ .build (operandOf w)
  | 0x12#8 => layoutZ .genCodes (operandOf w)
  | 0x13#8 => layoutI .queryNode (operandOf w)
  | 0x14#8 => layoutS .queryCode (operandOf w)
  | 0x20#8 => layoutB .writeBits (operandOf w)
  | 0x21#8 => layoutZ .flush (operandOf w)
  | 0x22#8 => layoutZ .readBit (operandOf w)
  | 0x23#8 => layoutK .skipBits (operandOf w)
  | 0x24#8 => layoutZ .alignRead (operandOf w)
  | 0x30#8 => layoutS .encodeSym (operandOf w)
  | 0x31#8 => layoutZ .encodeStream (operandOf w)
  | 0x32#8 => layoutZ .decode (operandOf w)
  | _ => .error .unassignedOpcode

/-- OPC of each command (R72). -/
def Instr.opc : Instr → Byte
  | .nop => 0x00#8
  | .clear => 0x01#8
  | .ackErr => 0x02#8
  | .loadRecord _ => 0x10#8
  | .build => 0x11#8
  | .genCodes => 0x12#8
  | .queryNode _ => 0x13#8
  | .queryCode _ => 0x14#8
  | .writeBits _ _ => 0x20#8
  | .flush => 0x21#8
  | .readBit => 0x22#8
  | .skipBits _ => 0x23#8
  | .alignRead => 0x24#8
  | .encodeSym _ => 0x30#8
  | .encodeStream => 0x31#8
  | .decode => 0x32#8

/-- The operand bits of each command (R71). -/
def Instr.operand : Instr → BitVec 24
  | .nop => 0#24
  | .clear => 0#24
  | .ackErr => 0#24
  | .loadRecord sym => 0#16 ++ sym
  | .build => 0#24
  | .genCodes => 0#24
  | .queryNode idx => 0#15 ++ idx
  | .queryCode sym => 0#16 ++ sym
  | .writeBits nb v => 0#3 ++ nb ++ v
  | .flush => 0#24
  | .readBit => 0#24
  | .skipBits n => n
  | .alignRead => 0#24
  | .encodeSym sym => 0#16 ++ sym
  | .encodeStream => 0#24
  | .decode => 0#24

/-- The command word of a command (R70): OPC in 31:24, the operand in 23:0. -/
def encode (i : Instr) : Word := i.opc ++ i.operand

/-- A row of R72: a word selects it when (w & mask) = fixed, with the extra check of WRITE_BITS. -/
structure OpcodeRow where
  mnemonic : String
  fixed : Word
  mask : Word
deriving DecidableEq, Repr

/-- The rows of R72, letter for letter. -/
def opcodeTable : List OpcodeRow :=
  [⟨"NOP", 0x00000000#32, 0xFFFFFFFF#32⟩, ⟨"CLEAR", 0x01000000#32, 0xFFFFFFFF#32⟩,
   ⟨"ACK_ERR", 0x02000000#32, 0xFFFFFFFF#32⟩, ⟨"LOAD_RECORD", 0x10000000#32, 0xFFFFFF00#32⟩,
   ⟨"BUILD", 0x11000000#32, 0xFFFFFFFF#32⟩, ⟨"GEN_CODES", 0x12000000#32, 0xFFFFFFFF#32⟩,
   ⟨"QUERY_NODE", 0x13000000#32, 0xFFFFFE00#32⟩, ⟨"QUERY_CODE", 0x14000000#32, 0xFFFFFF00#32⟩,
   ⟨"WRITE_BITS", 0x20000000#32, 0xFFE00000#32⟩, ⟨"FLUSH", 0x21000000#32, 0xFFFFFFFF#32⟩,
   ⟨"READ_BIT", 0x22000000#32, 0xFFFFFFFF#32⟩, ⟨"SKIP_BITS", 0x23000000#32, 0xFF000000#32⟩,
   ⟨"ALIGN_READ", 0x24000000#32, 0xFFFFFFFF#32⟩, ⟨"ENCODE_SYM", 0x30000000#32, 0xFFFFFF00#32⟩,
   ⟨"ENCODE_STREAM", 0x31000000#32, 0xFFFFFFFF#32⟩, ⟨"DECODE", 0x32000000#32, 0xFFFFFFFF#32⟩]

/-- The mnemonic of each command (R72). -/
def Instr.mnemonic : Instr → String
  | .nop => "NOP"
  | .clear => "CLEAR"
  | .ackErr => "ACK_ERR"
  | .loadRecord _ => "LOAD_RECORD"
  | .build => "BUILD"
  | .genCodes => "GEN_CODES"
  | .queryNode _ => "QUERY_NODE"
  | .queryCode _ => "QUERY_CODE"
  | .writeBits _ _ => "WRITE_BITS"
  | .flush => "FLUSH"
  | .readBit => "READ_BIT"
  | .skipBits _ => "SKIP_BITS"
  | .alignRead => "ALIGN_READ"
  | .encodeSym _ => "ENCODE_SYM"
  | .encodeStream => "ENCODE_STREAM"
  | .decode => "DECODE"

/-- The command of a word given as a number, bit 0 the least significant bit. Every command is one 32-bit word
(R70), so a number that needs more bits than it is given, or than a word has, is none. -/
def decodeTableWord (nbits w : Nat) : Option Instr :=
  if nbits ≤ 32 ∧ w < 2 ^ nbits then (decode (BitVec.ofNat 32 w)).toOption else none

end Sys2Proof
end

