-- ==== Sys2Proof/Config.lean ====
section
/-! DEFINITION. What an implementation fixes (00_scope.md R5) and the free values. -/

namespace Sys2Proof

/-- The parameters of R5 that a model takes as arguments. A state carries them in its constant field `cfg`, so a
statement about every state is a statement about every value of them. The defaults of the depths are the spec's;
`base` is HUFF_BASE, whose default is a DESIGN CHOICE (log 3). -/
structure Config where
  inDepth  : Nat := 16
  outDepth : Nat := 16
  base     : Nat := 0
deriving DecidableEq, Repr

/-- The values R5 admits: both depths 1 to 255, HUFF_BASE a multiple of 256. -/
abbrev Config.Admitted (c : Config) : Prop :=
  (1 ≤ c.inDepth ∧ c.inDepth ≤ 255) ∧ (1 ≤ c.outDepth ∧ c.outDepth ≤ 255) ∧ c.base % 256 = 0

/-- FREE VALUE: what reading the arena at an index that names no entry gives. Of the 9-bit indices only 511 names
none (R38), and no run reads it (log 5). -/
opaque Config.absentNode : Nat → Node

/-- FREE VALUE: the root BUILD would take from a heap that has not exactly one element. R102 says "the only element
of H", and in every state a run reaches there is one (log 6). -/
opaque Config.absentRoot : Nat

end Sys2Proof
end

