-- ==== Sys2Proof/Machine/State.lean ====
section
/-! DEFINITION. The state the spec gives the block (10_state.md R15 to R52), the interleaving still to come
(20_memory.md R63), and the ways a step can stop. -/

namespace Sys2Proof.Machine

/-- The `loc` of RUNNING(op, loc) (R47): the call of a holding primitive the engine stands before (40_control.md R80),
with the locals of that command's pseudocode. -/
inductive Loc where
  /-- WRITE_BITS at `WriteBit(V[j])` (R96). -/
  | writeBits (j : Nat)
  /-- FLUSH at `Flush()` (R97). -/
  | flush
  /-- READ_BIT at `ReadBit()` (R98). -/
  | readBit
  /-- SKIP_BITS at `ReadBit()`, k bits skipped so far (R99). -/
  | skipBits (k : Nat)
  /-- ENCODE_SYM at `WriteBit(CODE[SYM].BITS[j])` (R111). -/
  | encodeSym (j : Nat)
  /-- ENCODE_STREAM at `PopByte()`, cnt bytes encoded (R112). -/
  | streamPop (cnt : Word)
  /-- ENCODE_STREAM at `WriteBit(CODE[v].BITS[j])` (R112). -/
  | streamWrite (cnt : Word) (v : Byte) (j : Nat)
  /-- DECODE at `Emit(NODE[ROOT_IDX].SYM)` of the degenerate tree, e symbols emitted (R113). -/
  | decodeEmitRoot (e : Word)
  /-- DECODE at `ReadBit()` (R113). -/
  | decodeRead (e : Word)
  /-- DECODE at `Emit(NODE[DEC_CUR].SYM)` (R113). -/
  | decodeEmit (e : Word)
deriving DecidableEq, Repr

/-- ENG (R47). The `op` of RUNNING(op, loc) is the command CMD_LAST holds: no word is latched while BUSY = 1
(R67, R78). -/
inductive Eng where
  | idle
  | pending
  | running (loc : Loc)
deriving DecidableEq, Repr

/-- One host access: byte address, size in bytes, and for a write the value (00_scope.md R9). -/
inductive Access where
  | read (addr size : Nat)
  | write (addr size : Nat) (value : Word)
deriving DecidableEq, Repr

/-- What happens at one step of a run: an engine turn, a host access (R12), or a power-on reset (R142). -/
inductive Turn where
  | engine
  | host (a : Access)
  | powerOn
deriving DecidableEq, Repr

structure State where
  /-- The parameters (R5); no step writes them. -/
  cfg : Config
  /-- The MODEL's own field (log 1): the interleaving still to come (R63); when it is empty the engine moves. -/
  turns : List Turn
  /-- The MODEL's own field (log 10): what host reads have returned, newest first. -/
  reads : List Word
  /-- CTRL.EOS (R17). -/
  eos : Bool
  /-- PHASE (R34). -/
  phase : Phase
  /-- N (R35). -/
  nrec : BitVec 9
  /-- TOTAL (R36). -/
  total : Word
  /-- LOADED, one bit per symbol (R37). -/
  loaded : BitVec 256
  /-- NODE[0..510] (R38). -/
  nodes : Vector Node 511
  /-- ROOT_IDX (R40). -/
  rootIdx : Index
  /-- ROOT_VALID (R40). -/
  rootValid : Bool
  /-- CODE[0..255] (R41). -/
  codes : Vector CodeEntry 256
  /-- ACC (R42). -/
  acc : Byte
  /-- ACC_CNT (R42; 4 bits wide by R90). -/
  accCnt : BitVec 4
  /-- SR (R43). -/
  sr : Byte
  /-- SR_CNT (R43). -/
  srCnt : BitVec 4
  /-- INQ, oldest byte first (R44). -/
  inq : List Byte
  /-- OUTQ, oldest byte first (R45). -/
  outq : List Byte
  /-- ERR (R46). -/
  err : ErrCode
  /-- OVR (R18). -/
  ovr : Bool
  /-- IN_OVF (R18). -/
  inOvf : Bool
  /-- ENG (R47). -/
  eng : Eng
  /-- CMD_LAST (R48). -/
  cmdLast : Word
  /-- CMD_ARG (R48). -/
  cmdArg : Word
  /-- ARG (R20). -/
  arg : Word
  /-- RESULT (R21). -/
  result : Word
  /-- DEC_REMAIN (R49). -/
  decRemain : Word
  /-- DEC_CUR (R49). -/
  decCur : Index
  /-- NODE_INFO0 (R31). -/
  nodeInfo0 : Word
  /-- NODE_INFO1 (R31). -/
  nodeInfo1 : Word
  /-- NODE_INFO2 (R31). -/
  nodeInfo2 : Word
  /-- CODE_INFO (R32). -/
  codeInfo : Word
  /-- CODE_BITS0 to CODE_BITS7 (R32). -/
  codeBits : Vector Word 8
deriving DecidableEq, Repr

/-- Why a run stops with a fault. No error of the spec is one: an error is a next state with ERR set (R131). -/
inductive Fault where
  /-- A host access to an address outside the 256-byte window, which this block does not have (R53). Raised by
  `hostAccess`. Safe: the hardware of this spec is not reached at all (log 11). -/
  | outsideWindow
  /-- The engine stands at a call that belongs to another command than the one it runs. Raised by the meanings of
  `exec` and by `engineTurn`. Safe: no run reaches such a state (log 8). -/
  | foreignPosition
deriving DecidableEq, Repr

/-- Why a run is refused. -/
inductive Refusal where
  /-- An instruction the model has no meaning for. Raised by no arm of `exec` any more. Safe. -/
  | notModelled (mnemonic : String)
  /-- A host access inside the window that is not 32 bits wide at a multiple of 4: R55 gives it no step and marks
  the run refused. Raised by `hostAccess`. Safe. -/
  | accessNotAdmitted
deriving DecidableEq, Repr

/-- The result of a step of this machine. -/
abbrev Outcome := Host.Outcome State Fault Refusal

/-- The state right after power-on reset, for given parameters (R52, R142). NODE and CODE hold the values log 4
names; `turns` and `reads` are the model's own fields. -/
def State.resetWith (c : Config) : State where
  cfg := c
  turns := []
  reads := []
  eos := false
  phase := .empty
  nrec := 0
  total := 0
  loaded := 0
  nodes := Vector.replicate 511 ⟨.leaf, 0, 0, 0, 0⟩
  rootIdx := 0
  rootValid := false
  codes := Vector.replicate 256 ⟨false, []⟩
  acc := 0
  accCnt := 0
  sr := 0
  srCnt := 0
  inq := []
  outq := []
  err := .ok
  ovr := false
  inOvf := false
  eng := .idle
  cmdLast := 0
  cmdArg := 0
  arg := 0
  result := 0
  decRemain := 0
  decCur := 0
  nodeInfo0 := 0
  nodeInfo1 := 0
  nodeInfo2 := 0
  codeInfo := 0
  codeBits := Vector.replicate 8 0

/-- The state right after power-on reset (R52, R142), with the default parameters (R5; log 3). -/
def State.reset : State := State.resetWith {}

end Sys2Proof.Machine
end

