-- ==== Sys2Proof/Machine/Operands.lean ====
section
/-! DEFINITION. What a command's operands name: bits, arena entries, code-table entries, the count of CMD_ARG
(00_scope.md R7, R8; 10_state.md R38, R41, R48). -/

namespace Sys2Proof.Machine

/-- A bit as a number (R7). -/
def bitVal (n : Nat) (b : Bool) : BitVec n := if b then 1 else 0

/-- `v[i] <- b`: one bit of a byte assigned, the others kept (R7). -/
def setBit (v : Byte) (i : Nat) (b : Bool) : Byte :=
  (v &&& ~~~(1#8 <<< i)) ||| (bitVal 8 b <<< i)

/-- `NODE[i]` (R38). Index 511 names no entry and gives a free value (log 5). -/
def readNode (nodes : Vector Node 511) (i : Nat) : Node :=
  if h : i < 511 then nodes[i] else Config.absentNode i

/-- `NODE[i] <- n` (R38). An index that names no entry writes nothing (log 5). -/
def writeNode (nodes : Vector Node 511) (i : Nat) (n : Node) : Vector Node 511 :=
  nodes.setIfInBounds i n

/-- `NODE[i]` of a state, i a 9-bit index. -/
def State.node (s : State) (i : Index) : Node := readNode s.nodes i.toNat

/-- `CODE[sym]` (R41). -/
def State.code (s : State) (sym : Byte) : CodeEntry :=
  s.codes[sym.toNat]'(by have := sym.isLt; omega)

/-- `CODE[sym] <- e` (R41). -/
def writeCode (codes : Vector CodeEntry 256) (sym : Byte) (e : CodeEntry) : Vector CodeEntry 256 :=
  codes.set sym.toNat e (by have := sym.isLt; omega)

/-- `BITS[j]` of a code, j below LEN (R41). -/
def codeBit (bits : List Bool) (j : Nat) : Bool := bits.getD j false

/-- LEN of an entry as its 8-bit field (R41, R32). -/
def lenField (e : CodeEntry) : Byte := BitVec.ofNat 8 e.bits.length

/-- CODE_BITSk of a code: bit j of the code stands at register j div 32, bit 31 − (j mod 32); every position at or
beyond LEN reads 0 (R32, R110). -/
def codeWord (bits : List Bool) (k : Nat) : Word :=
  BitVec.ofFnBE fun i : Fin 32 => codeBit bits (32 * k + i.val)

/-- The count operand: the copy of ARG the latch took (R48, R70). -/
def State.countOperand (s : State) : Word := s.cmdArg

/-- LOADED[sym] (R37). -/
def State.isLoaded (s : State) (sym : Byte) : Bool := s.loaded.getLsbD sym.toNat

/-- LOADED[sym] <- 1 (R37). -/
def setLoaded (loaded : BitVec 256) (sym : Byte) : BitVec 256 := loaded ||| (1#256 <<< sym.toNat)

end Sys2Proof.Machine
end

