-- ==== Sys2Proof/Machine/Flags.lean ====
section
/-! DEFINITION. The status flags (10_state.md R18, R51), the hold condition (41_bitstream.md R89), the lock (R46) and
the phase table (30_encoding.md R73). -/

namespace Sys2Proof.Machine

/-- STATUS.ERR of each code (60_exceptions.md R125). -/
def errNumber : ErrCode → BitVec 4
  | .ok => 0
  | .illegalCmd => 1
  | .badPhase => 2
  | .dupSymbol => 3
  | .countOverflow => 4
  | .noRecords => 5
  | .codeMiss => 6
  | .truncated => 7
  | .aborted => 8

/-- STATUS.PHASE of each phase (R34). -/
def phaseNumber : Phase → BitVec 3
  | .empty => 0
  | .loaded => 1
  | .built => 2
  | .coded => 3

/-- BUSY = 1 exactly when ENG ≠ IDLE (R18, R47). -/
def State.busy (s : State) : Bool := s.eng != .idle

/-- OUT_LEVEL = OUT_DEPTH (R18, R89). -/
def State.outFull (s : State) : Bool := s.outq.length == s.cfg.outDepth

/-- IN_LEVEL = IN_DEPTH (R18). -/
def State.inFull (s : State) : Bool := s.inq.length == s.cfg.inDepth

/-- The holding primitives (00_scope.md R10), without their arguments: whether one would hold depends on neither. -/
inductive Prim where
  | writeBit
  | flush
  | readBit
  | popByte
  | emit
deriving DecidableEq, Repr

/-- The primitive an engine position calls (R80 and each command's pseudocode). -/
def Loc.prim : Loc → Prim
  | .writeBits _ => .writeBit
  | .flush => .flush
  | .readBit => .readBit
  | .skipBits _ => .readBit
  | .encodeSym _ => .writeBit
  | .streamPop _ => .popByte
  | .streamWrite _ _ _ => .writeBit
  | .decodeEmitRoot _ => .emit
  | .decodeRead _ => .readBit
  | .decodeEmit _ => .emit

/-- The table of R89: when a primitive would HOLD. -/
def wouldHold (p : Prim) (s : State) : Bool :=
  match p with
  | .writeBit => s.accCnt == 7#4 && s.outFull
  | .flush => s.accCnt != 0#4 && s.outFull
  | .readBit => s.srCnt == 0#4 && s.inq.isEmpty && !s.eos
  | .popByte => s.inq.isEmpty && !s.eos
  | .emit => s.outFull

/-- STATUS.HOLD: ENG = RUNNING and the next primitive would HOLD (R18). -/
def State.hold (s : State) : Bool :=
  match s.eng with
  | .running loc => wouldHold loc.prim s
  | .idle => false
  | .pending => false

/-- The value of STATUS (R18): bits 31:16 zero, OUT_FULL, OUT_EMPTY, IN_FULL, IN_EMPTY, ERR, bit 7 zero, IN_OVF,
OVR, HOLD, PHASE, BUSY. -/
def statusValue (s : State) : Word :=
  0#16 ++ bitVal 1 s.outFull ++ bitVal 1 s.outq.isEmpty ++ bitVal 1 s.inFull ++ bitVal 1 s.inq.isEmpty
    ++ errNumber s.err ++ 0#1 ++ bitVal 1 s.inOvf ++ bitVal 1 s.ovr ++ bitVal 1 s.hold
    ++ phaseNumber s.phase ++ bitVal 1 s.busy

/-- The commands the lock lets through: NOP, CLEAR and ACK_ERR (R46, R79 check 1). -/
def lockExempt (opc : Byte) : Bool := opc == 0x00#8 || opc == 0x01#8 || opc == 0x02#8

/-- R79 check 1: ERR ≠ 0 and the opcode is none of the three. -/
def lockedOut (opc : Byte) (s : State) : Bool := s.err != .ok && !lockExempt opc

/-- The phase table (R73): the error a command raises in a phase, `ok` where the phase admits it. -/
def phaseError : Instr → Phase → ErrCode
  | .nop, _ => .ok
  | .clear, _ => .ok
  | .ackErr, _ => .ok
  | .loadRecord _, .empty => .ok
  | .loadRecord _, .loaded => .ok
  | .loadRecord _, .built => .badPhase
  | .loadRecord _, .coded => .badPhase
  | .build, .empty => .noRecords
  | .build, .loaded => .ok
  | .build, .built => .badPhase
  | .build, .coded => .badPhase
  | .genCodes, .empty => .badPhase
  | .genCodes, .loaded => .badPhase
  | .genCodes, .built => .ok
  | .genCodes, .coded => .ok
  | .queryNode _, .empty => .badPhase
  | .queryNode _, .loaded => .badPhase
  | .queryNode _, .built => .ok
  | .queryNode _, .coded => .ok
  | .queryCode _, .empty => .badPhase
  | .queryCode _, .loaded => .badPhase
  | .queryCode _, .built => .badPhase
  | .queryCode _, .coded => .ok
  | .writeBits _ _, _ => .ok
  | .flush, _ => .ok
  | .readBit, _ => .ok
  | .skipBits _, _ => .ok
  | .alignRead, _ => .ok
  | .encodeSym _, .empty => .badPhase
  | .encodeSym _, .loaded => .badPhase
  | .encodeSym _, .built => .badPhase
  | .encodeSym _, .coded => .ok
  | .encodeStream, .empty => .badPhase
  | .encodeStream, .loaded => .badPhase
  | .encodeStream, .built => .badPhase
  | .encodeStream, .coded => .ok
  | .decode, .empty => .badPhase
  | .decode, .loaded => .badPhase
  | .decode, .built => .ok
  | .decode, .coded => .ok

end Sys2Proof.Machine
end

