-- ==== Sys2Proof/Machine/Ops.lean ====
section
/-! DEFINITION. The shared operations: taking an error and coming back from one (60_exceptions.md R126 to R133), the
latch and the dispatch checks (40_control.md R78, R79), the resets (70_reset_and_hazards.md R140, R141), and the
holding primitives (41_bitstream.md R90 to R94). -/

namespace Sys2Proof.Machine

/-! ## The engine's position, and errors -/

/-- `ENG <- IDLE`. -/
def finish (s : State) : State := { s with eng := .idle }

/-- `ENG <- RUNNING(op, loc)` (R80). -/
def goTo (loc : Loc) (s : State) : State := { s with eng := .running loc }

/-- The end of a command that defines a result: RESULT is written and ENG <- IDLE (R21, R80). -/
def complete (r : Word) (s : State) : State := finish { s with result := r }

/-- `SetErr(c)`: the first error is kept (R46). -/
def setErr (c : ErrCode) (s : State) : State :=
  if s.err = .ok then { s with err := c } else s

/-- TAKING AN ERROR, `raise Error(c)` (R126, R131): the code is recorded if ERR was 0, ENG <- IDLE, and nothing else
changes. There is no vector, no saved position and no mode. -/
def raise (c : ErrCode) (s : State) : State := finish (setErr c s)

/-- COMING BACK from an error, ACK_ERR (R84, R132, R133): ERR <- 0 removes the lock and keeps all other state. -/
def acknowledge (s : State) : State := { s with err := .ok }

/-- `Abort()` (R128). -/
def abort (s : State) : State :=
  if s.eng = .idle then s else setErr .aborted { s with eng := .idle }

/-! ## Resets -/

/-- `ResetCore()` (R140): everything of R52 but ARG, CMD_LAST and CMD_ARG; NODE and CODE keep what they hold. -/
def resetCore (s : State) : State :=
  { s with
    eos := false, phase := .empty, nrec := 0, total := 0, loaded := 0
    rootIdx := 0, rootValid := false
    acc := 0, accCnt := 0, sr := 0, srCnt := 0, inq := [], outq := []
    err := .ok, ovr := false, inOvf := false, eng := .idle, result := 0
    decRemain := 0, decCur := 0
    nodeInfo0 := 0, nodeInfo1 := 0, nodeInfo2 := 0, codeInfo := 0
    codeBits := Vector.replicate 8 0 }

/-- `SoftReset()` (R141). -/
def softReset (s : State) : State := { resetCore s with arg := 0, cmdLast := 0, cmdArg := 0 }

/-- Power-on reset during a run (R142): the reset state again, with the parameters and the rest of the run kept. NODE
and CODE, which R142 leaves arbitrary, take the values of log 4. -/
def powerOn (s : State) : State := { State.resetWith s.cfg with turns := s.turns, reads := s.reads }

/-! ## Issue and dispatch -/

/-- The latch: a host write of w to CMD (R78). -/
def latch (w : Word) (s : State) : State :=
  if s.eng = .idle then { s with cmdLast := w, cmdArg := s.arg, eng := .pending }
  else { s with ovr := true }

/-- Dispatch of an illegal word (R79 checks 1 and 2): no effect while locked, else ILLEGAL_CMD. -/
def dispatchIllegal (w : Word) (s : State) : State :=
  if lockedOut (opcOf w) s then finish s else raise .illegalCmd s

/-- Dispatch of a legal command (R79 checks 1, 3 and 4): no effect while locked; the error the phase table names; or
the command's pseudocode begins. -/
def dispatch (i : Instr) (body : State → State) (s : State) : State :=
  if lockedOut i.opc s then finish s
  else if phaseError i s.phase = .ok then body s
  else raise (phaseError i s.phase) s

/-- One engine step of a command (R80). Before the command has begun it is the dispatch step, which runs the
pseudocode (`body`) up to the first call of a holding primitive. At such a call it is `resume`, which performs the
call and runs on to the next one, or leaves the state as it is where the call would HOLD (log 2). A position that is
no call of this command answers `none`, and the model stops (log 8). The dispatch step is enabled in PENDING only
(R79), and `step` takes it only there; in IDLE it is defined the same way (log 9). -/
def engineStep (i : Instr) (body : State → State) (resume : Loc → State → Option State) (s : State) : Outcome :=
  match s.eng with
  | .idle => .next (dispatch i body s)
  | .pending => .next (dispatch i body s)
  | .running loc =>
    match resume loc s with
    | some s' => .next s'
    | none => .fault .foreignPosition

/-- `resume` of a command whose pseudocode calls no holding primitive: it is never RUNNING (R47, R80). -/
def noCalls (_ : Loc) (_ : State) : Option State := none

/-! ## The holding primitives

Each answers `hold` where R89 says it would HOLD; the caller then changes nothing. -/

/-- What a primitive that pushes answers. -/
inductive Pushed where
  | hold
  | done (s : State)
deriving DecidableEq, Repr

/-- What ReadBit answers: HOLD, EOF, or a bit. -/
inductive BitRead where
  | hold
  | eof
  | bit (b : Bool) (s : State)
deriving DecidableEq, Repr

/-- What PopByte answers: HOLD, END, or a byte. -/
inductive ByteRead where
  | hold
  | finished
  | byte (v : Byte) (s : State)
deriving DecidableEq, Repr

/-- `WriteBit(b)` (R90). -/
def writeBit (b : Bool) (s : State) : Pushed :=
  if s.accCnt = 7#4 ∧ s.outq.length = s.cfg.outDepth then .hold
  else if s.accCnt + 1#4 = 8#4 then
    .done { s with outq := s.outq ++ [setBit s.acc (7 - s.accCnt.toNat) b], acc := 0, accCnt := 0 }
  else
    .done { s with acc := setBit s.acc (7 - s.accCnt.toNat) b, accCnt := s.accCnt + 1#4 }

/-- `Flush()` (R91). -/
def flushByte (s : State) : Pushed :=
  if s.accCnt = 0#4 then .done s
  else if s.outq.length = s.cfg.outDepth then .hold
  else .done { s with outq := s.outq ++ [s.acc], acc := 0, accCnt := 0 }

/-- The part of ReadBit after a byte is in SR: `b <- SR[7] ; SR <- (SR << 1)[7:0] ; SR_CNT <- SR_CNT - 1` (R92). -/
def shiftOut (s : State) : BitRead :=
  .bit (s.sr.getLsbD 7) { s with sr := s.sr <<< 1, srCnt := s.srCnt - 1#4 }

/-- `ReadBit()` (R92). -/
def readBit (s : State) : BitRead :=
  if s.srCnt = 0#4 then
    match s.inq with
    | v :: rest => shiftOut { s with sr := v, inq := rest, srCnt := 8#4 }
    | [] => if s.eos then .eof else .hold
  else shiftOut s

/-- `PopByte()` (R93): it bypasses SR. -/
def popByte (s : State) : ByteRead :=
  match s.inq with
  | v :: rest => .byte v { s with inq := rest }
  | [] => if s.eos then .finished else .hold

/-- `Emit(v)` (R94): ACC is not touched. -/
def emit (v : Byte) (s : State) : Pushed :=
  if s.outq.length = s.cfg.outDepth then .hold
  else .done { s with outq := s.outq ++ [v] }

/-- The engine's step at a call that pushes (R80): a held call leaves the state as it is, a completed one is followed
by the rest of the pseudocode up to the next call. -/
def afterPush (p : Pushed) (rest : State → State) (s : State) : State :=
  match p with
  | .hold => s
  | .done s' => rest s'

end Sys2Proof.Machine
end

