-- ==== Sys2Proof/Machine/BitStream.lean ====
section
/-! DEFINITION. The bit-stream commands (41_bitstream.md R96 to R100): WRITE_BITS, FLUSH, READ_BIT, SKIP_BITS,
ALIGN_READ. Each multi-step command has a loop head (where its pseudocode decides whether another call comes) and a
`resume` (what one engine step does at a call). -/

namespace Sys2Proof.Machine

/-! ## WRITE_BITS -/

/-- The head of `for j = NB - 1 downto 0` (R96): n bits are still to be written, the next is V[n - 1]. -/
def writeBitsLoop : Nat → State → State
  | 0, s => finish s
  | j + 1, s => goTo (.writeBits j) s

/-- WRITE_BITS at `WriteBit(V[j])` (R96). -/
def writeBitsResume (v : BitVec 16) : Loc → State → Option State
  | .writeBits j, s => some (afterPush (writeBit (v.getLsbD j) s) (writeBitsLoop j) s)
  | _, _ => none

/-- WRITE_BITS nb, v (R96). -/
def execWriteBits (nb : BitVec 5) (v : BitVec 16) (s : State) : Outcome :=
  engineStep (.writeBits nb v) (writeBitsLoop nb.toNat) (writeBitsResume v) s

/-! ## FLUSH -/

/-- FLUSH at `Flush()` (R97). -/
def flushResume : Loc → State → Option State
  | .flush, s => some (afterPush (flushByte s) finish s)
  | _, _ => none

/-- FLUSH (R97). -/
def execFlush (s : State) : Outcome := engineStep .flush (goTo .flush) flushResume s

/-! ## READ_BIT -/

/-- READ_BIT at `ReadBit()` (R98): RESULT is the bit, or 2 for EOF. -/
def readBitResume : Loc → State → Option State
  | .readBit, s =>
    match readBit s with
    | .hold => some s
    | .eof => some (complete 2 s)
    | .bit b s' => some (complete (bitVal 32 b) s')
  | _, _ => none

/-- READ_BIT (R98). -/
def execReadBit (s : State) : Outcome := engineStep .readBit (goTo .readBit) readBitResume s

/-! ## SKIP_BITS -/

/-- The head of `while k < NSKIP` (R99). -/
def skipLoop (n : BitVec 24) (k : Nat) (s : State) : State :=
  if k < n.toNat then goTo (.skipBits k) s else complete (BitVec.ofNat 32 k) s

/-- SKIP_BITS at `ReadBit()` (R99). -/
def skipResume (n : BitVec 24) : Loc → State → Option State
  | .skipBits k, s =>
    match readBit s with
    | .hold => some s
    | .eof => some (complete (BitVec.ofNat 32 k) s)
    | .bit _ s' => some (skipLoop n (k + 1) s')
  | _, _ => none

/-- SKIP_BITS nskip (R99). -/
def execSkipBits (n : BitVec 24) (s : State) : Outcome :=
  engineStep (.skipBits n) (skipLoop n 0) (skipResume n) s

/-! ## ALIGN_READ -/

/-- ALIGN_READ (R100): `SR <- 0 ; SR_CNT <- 0`; the input FIFO is not touched. -/
def execAlignRead (s : State) : Outcome :=
  engineStep .alignRead (fun s => finish { s with sr := 0, srCnt := 0 }) noCalls s

end Sys2Proof.Machine
end

