-- ==== Sys2Proof/Machine/CodeTable.lean ====
section
/-! DEFINITION. The code-table generator (43_code_table.md R107 to R110): GEN_CODES, QUERY_CODE. -/

namespace Sys2Proof.Machine

/-- `Walk(i, p)` (R107), depth first, 0 for left and 1 for right, as a recursion on the depth allowed. A child's
index is below its parent's (R39), so no path is longer than the arena (log 7). -/
def walk : Nat → Vector Node 511 → Index → List Bool → Vector CodeEntry 256 → Vector CodeEntry 256
  | 0, _, _, _, codes => codes
  | fuel + 1, nodes, i, p, codes =>
    match (readNode nodes i.toNat).kind with
    | .leaf => writeCode codes (readNode nodes i.toNat).sym ⟨true, p⟩
    | .internal =>
      walk fuel nodes (readNode nodes i.toNat).right (p ++ [true])
        (walk fuel nodes (readNode nodes i.toNat).left (p ++ [false]) codes)

/-- The table with no code in it: `VALID = 0, LEN = 0, BITS = []` for every symbol (R107). -/
def emptyCodes : Vector CodeEntry 256 := Vector.replicate 256 ⟨false, []⟩

/-- The code table of the tree below a root (R107). -/
def codesOf (nodes : Vector Node 511) (root : Index) : Vector CodeEntry 256 :=
  walk 511 nodes root [] emptyCodes

/-- The pseudocode of GEN_CODES (R107). -/
def genCodesBody (s : State) : State :=
  finish { s with codes := codesOf s.nodes s.rootIdx, phase := .coded }

/-- GEN_CODES (R107). -/
def execGenCodes (s : State) : Outcome := engineStep .genCodes genCodesBody noCalls s

/-- CODE_INFO of an entry: VALID in bit 31, SYM in 15:8, LEN in 7:0 (R32, R110). -/
def codeInfoOf (sym : Byte) (e : CodeEntry) : Word := bitVal 1 e.valid ++ 0#15 ++ sym ++ lenField e

/-- CODE_BITS0 to CODE_BITS7 of a code (R32, R110). -/
def codeBitsOf (bits : List Bool) : Vector Word 8 := Vector.ofFn fun k : Fin 8 => codeWord bits k.val

/-- The pseudocode of QUERY_CODE (R110). -/
def queryCodeBody (sym : Byte) (s : State) : State :=
  finish
    { s with
      codeInfo := codeInfoOf sym (s.code sym)
      codeBits := codeBitsOf (s.code sym).bits }

/-- QUERY_CODE sym (R110). -/
def execQueryCode (sym : Byte) (s : State) : Outcome :=
  engineStep (.queryCode sym) (queryCodeBody sym) noCalls s

end Sys2Proof.Machine
end

