-- ==== Sys2Proof/Machine/Codec.lean ====
section
/-! DEFINITION. The encode path and the decoder (44_encode_decode.md R111 to R114): ENCODE_SYM, ENCODE_STREAM,
DECODE. -/

namespace Sys2Proof.Machine

/-! ## ENCODE_SYM -/

/-- The head of `for j = 0 to LEN - 1` (R111). -/
def encodeSymLoop (sym : Byte) (j : Nat) (s : State) : State :=
  if j < (s.code sym).bits.length then goTo (.encodeSym j) s else finish s

/-- The pseudocode of ENCODE_SYM up to its first call (R111). -/
def encodeSymBody (sym : Byte) (s : State) : State :=
  if (s.code sym).valid then encodeSymLoop sym 0 s else raise .codeMiss s

/-- ENCODE_SYM at `WriteBit(CODE[SYM].BITS[j])` (R111). -/
def encodeSymResume (sym : Byte) : Loc → State → Option State
  | .encodeSym j, s =>
    some (afterPush (writeBit (codeBit (s.code sym).bits j) s) (encodeSymLoop sym (j + 1)) s)
  | _, _ => none

/-- ENCODE_SYM sym (R111). -/
def execEncodeSym (sym : Byte) (s : State) : Outcome :=
  engineStep (.encodeSym sym) (encodeSymBody sym) (encodeSymResume sym) s

/-! ## ENCODE_STREAM -/

/-- The head of `for j = 0 to LEN - 1` for the byte v just popped; after its last bit, `cnt <- (cnt + 1) mod 2^32` and
the next PopByte (R112). -/
def streamLoop (cnt : Word) (v : Byte) (j : Nat) (s : State) : State :=
  if j < (s.code v).bits.length then goTo (.streamWrite cnt v j) s else goTo (.streamPop (cnt + 1)) s

/-- What follows `v <- PopByte()` (R112). -/
def streamByte (cnt : Word) (v : Byte) (s : State) : State :=
  if (s.code v).valid then streamLoop cnt v 0 s else raise .codeMiss s

/-- ENCODE_STREAM at `PopByte()` or at `WriteBit(CODE[v].BITS[j])` (R112). -/
def encodeStreamResume : Loc → State → Option State
  | .streamPop cnt, s =>
    match popByte s with
    | .hold => some s
    | .finished => some (complete cnt s)
    | .byte v s' => some (streamByte cnt v s')
  | .streamWrite cnt v j, s =>
    some (afterPush (writeBit (codeBit (s.code v).bits j) s) (streamLoop cnt v (j + 1)) s)
  | _, _ => none

/-- ENCODE_STREAM (R112). -/
def execEncodeStream (s : State) : Outcome :=
  engineStep .encodeStream (goTo (.streamPop 0)) encodeStreamResume s

/-! ## DECODE -/

/-- The head of `while DEC_REMAIN > 0` in the degenerate tree (R113). -/
def decodeRootLoop (e : Word) (s : State) : State :=
  if s.decRemain = 0 then complete e s else goTo (.decodeEmitRoot e) s

/-- The head of `while DEC_REMAIN > 0` in a tree with an Internal root (R113). -/
def decodeLoop (e : Word) (s : State) : State :=
  if s.decRemain = 0 then complete e s else goTo (.decodeRead e) s

/-- The pseudocode of DECODE up to its first call (R113). -/
def decodeBody (s : State) : State :=
  match (s.node s.rootIdx).kind with
  | .leaf => decodeRootLoop 0 { s with decRemain := (s.node s.rootIdx).count, decCur := s.rootIdx }
  | .internal => decodeLoop 0 { s with decRemain := (s.node s.rootIdx).count, decCur := s.rootIdx }

/-- The child a bit selects: LEFT for 0, RIGHT for 1 (R113). -/
def childOf (b : Bool) (n : Node) : Index := if b then n.right else n.left

/-- What follows `b <- ReadBit()` for a bit: the move to a child, and the Emit if it is a Leaf (R113). -/
def decodeMove (e : Word) (b : Bool) (s : State) : State :=
  match (s.node (childOf b (s.node s.decCur))).kind with
  | .leaf => goTo (.decodeEmit e) { s with decCur := childOf b (s.node s.decCur) }
  | .internal => decodeLoop e { s with decCur := childOf b (s.node s.decCur) }

/-- DECODE at one of its calls (R113). -/
def decodeResume : Loc → State → Option State
  | .decodeEmitRoot e, s =>
    some (afterPush (emit (s.node s.rootIdx).sym s)
      (fun s => decodeRootLoop (e + 1) { s with decRemain := s.decRemain - 1 }) s)
  | .decodeRead e, s =>
    match readBit s with
    | .hold => some s
    | .eof => some (raise .truncated s)
    | .bit b s' => some (decodeMove e b s')
  | .decodeEmit e, s =>
    some (afterPush (emit (s.node s.decCur).sym s)
      (fun s => decodeLoop (e + 1) { s with decRemain := s.decRemain - 1, decCur := s.rootIdx }) s)
  | _, _ => none

/-- DECODE (R113, R114). -/
def execDecode (s : State) : Outcome := engineStep .decode decodeBody decodeResume s

end Sys2Proof.Machine
end

