-- ==== Sys2Proof/Machine/Control.lean ====
section
/-! DEFINITION. NOP, CLEAR, ACK_ERR (40_control.md R82 to R84). -/

namespace Sys2Proof.Machine

/-- NOP (R82). -/
def execNop (s : State) : Outcome := engineStep .nop finish noCalls s

/-- CLEAR (R83): `ResetCore() ; ENG <- IDLE`. -/
def execClear (s : State) : Outcome := engineStep .clear (fun s => finish (resetCore s)) noCalls s

/-- ACK_ERR (R84): `ERR <- 0 ; ENG <- IDLE`. -/
def execAckErr (s : State) : Outcome := engineStep .ackErr (fun s => finish (acknowledge s)) noCalls s

end Sys2Proof.Machine
end

