-- ==== Sys2Proof/Machine/Tree.lean ====
section
/-! DEFINITION. The tree builder (42_tree_builder.md R101 to R106): LOAD_RECORD, BUILD, QUERY_NODE. -/

namespace Sys2Proof.Machine

/-- The pseudocode of LOAD_RECORD (R101). The sum is formed without wrap-around (R85). -/
def loadRecordBody (sym : Byte) (s : State) : State :=
  if s.isLoaded sym then raise .dupSymbol s
  else if s.total.toNat + s.countOperand.toNat > 2 ^ 32 - 1 then raise .countOverflow s
  else finish
    { s with
      nodes := writeNode s.nodes s.nrec.toNat ⟨.leaf, sym, s.countOperand, 0, 0⟩
      loaded := setLoaded s.loaded sym
      nrec := s.nrec + 1
      total := s.total + s.countOperand
      phase := .loaded }

/-- LOAD_RECORD sym (R101). -/
def execLoadRecord (sym : Byte) (s : State) : Outcome :=
  engineStep (.loadRecord sym) (loadRecordBody sym) noCalls s

/-! ## The greedy merge

H is a list of arena indices that lives inside the BUILD step only (R50). -/

/-- The order of keys (COUNT, index), lexicographic and unsigned (R11, R103). -/
def keyBefore (nodes : Vector Node 511) (i j : Nat) : Bool :=
  decide ((readNode nodes i).count.toNat < (readNode nodes j).count.toNat) ||
    ((readNode nodes i).count == (readNode nodes j).count && decide (i < j))

/-- The element of `i :: rest` whose key is least (R11). -/
def argmin (nodes : Vector Node 511) (i : Nat) : List Nat → Nat
  | [] => i
  | j :: rest => if keyBefore nodes j i then argmin nodes j rest else argmin nodes i rest

/-- `a <- argmin … ; H <- H \ {a}` (R102); `none` for an empty H. -/
def extractMin (nodes : Vector Node 511) : List Nat → Option (Nat × List Nat)
  | [] => none
  | i :: rest => some (argmin nodes i rest, (i :: rest).erase (argmin nodes i rest))

/-- The Internal node a merge of entries a and b creates: the first removed is LEFT, the second RIGHT (R102, R103). -/
def mergedNode (nodes : Vector Node 511) (a b : Nat) : Node :=
  ⟨.internal, 0, (readNode nodes a).count + (readNode nodes b).count, BitVec.ofNat 9 a, BitVec.ofNat 9 b⟩

/-- The loop of R102, `while |H| ≥ 2`, as a recursion on the number of merges allowed. Every merge makes H one
shorter, so |H| merges are more than enough. -/
def mergeLoop : Nat → List Nat → Nat → Vector Node 511 → List Nat × Vector Node 511
  | 0, heap, _, nodes => (heap, nodes)
  | fuel + 1, heap, next, nodes =>
    match extractMin nodes heap with
    | none => (heap, nodes)
    | some (a, heapA) =>
      match extractMin nodes heapA with
      | none => (heap, nodes)
      | some (b, heapB) =>
        mergeLoop fuel (heapB ++ [next]) (next + 1) (writeNode nodes next (mergedNode nodes a b))

/-- The merge over the n loaded records: the heap it ends with and the arena (R102). -/
def mergeAll (n : Nat) (nodes : Vector Node 511) : List Nat × Vector Node 511 :=
  mergeLoop n (List.range n) n nodes

/-- `the only element of H` (R102). A heap of any other size is reached by no run and gives a free value (log 6). -/
def onlyElement : List Nat → Nat
  | [r] => r
  | [] => Config.absentRoot
  | _ :: _ :: _ => Config.absentRoot

/-- The pseudocode of BUILD (R102). -/
def buildBody (s : State) : State :=
  finish
    { s with
      nodes := (mergeAll s.nrec.toNat s.nodes).2
      rootIdx := BitVec.ofNat 9 (onlyElement (mergeAll s.nrec.toNat s.nodes).1)
      rootValid := true
      phase := .built }

/-- BUILD (R102 to R105). -/
def execBuild (s : State) : Outcome := engineStep .build buildBody noCalls s

/-! ## QUERY_NODE -/

/-- KIND as a bit (R31, R38). -/
def kindBit : NodeKind → BitVec 1
  | .leaf => 0
  | .internal => 1

/-- NODE_INFO0 of an existing node: VALID, SYM in 15:8, KIND in bit 0 (R31). -/
def nodeInfo0Of (e : Node) : Word := 1#1 ++ 0#15 ++ e.sym ++ 0#7 ++ kindBit e.kind

/-- NODE_INFO2 of an existing node: RIGHT in 24:16, LEFT in 8:0 (R31). -/
def nodeInfo2Of (e : Node) : Word := 0#7 ++ e.right ++ 0#7 ++ e.left

/-- The pseudocode of QUERY_NODE (R106). -/
def queryNodeBody (idx : Index) (s : State) : State :=
  if idx.toNat ≤ s.rootIdx.toNat then
    finish
      { s with
        nodeInfo0 := nodeInfo0Of (s.node idx)
        nodeInfo1 := (s.node idx).count
        nodeInfo2 := nodeInfo2Of (s.node idx) }
  else finish { s with nodeInfo0 := 0, nodeInfo1 := 0, nodeInfo2 := 0 }

/-- QUERY_NODE idx (R106). -/
def execQueryNode (idx : Index) (s : State) : Outcome :=
  engineStep (.queryNode idx) (queryNodeBody idx) noCalls s

end Sys2Proof.Machine
end

