-- ==== Sys2Proof/Machine/Dispatch.lean ====
section
/-! DEFINITION. One engine step of each command (30_encoding.md R72). -/

namespace Sys2Proof.Machine

def exec (i : Instr) (s : State) : Host.Outcome State Fault Refusal :=
  match i with
  | .nop => Sys2Proof.Machine.execNop s
  | .clear => Sys2Proof.Machine.execClear s
  | .ackErr => Sys2Proof.Machine.execAckErr s
  | .loadRecord sym => Sys2Proof.Machine.execLoadRecord sym s
  | .build => Sys2Proof.Machine.execBuild s
  | .genCodes => Sys2Proof.Machine.execGenCodes s
  | .queryNode idx => Sys2Proof.Machine.execQueryNode idx s
  | .queryCode sym => Sys2Proof.Machine.execQueryCode sym s
  | .writeBits nb v => Sys2Proof.Machine.execWriteBits nb v s
  | .flush => Sys2Proof.Machine.execFlush s
  | .readBit => Sys2Proof.Machine.execReadBit s
  | .skipBits n => Sys2Proof.Machine.execSkipBits n s
  | .alignRead => Sys2Proof.Machine.execAlignRead s
  | .encodeSym sym => Sys2Proof.Machine.execEncodeSym sym s
  | .encodeStream => Sys2Proof.Machine.execEncodeStream s
  | .decode => Sys2Proof.Machine.execDecode s

end Sys2Proof.Machine
end

