-- ==== Sys2Proof/Machine/Registers.lean ====
section
/-! DEFINITION. The register window (10_state.md R15 to R33) and the host's accesses (20_memory.md R53 to R62). -/

namespace Sys2Proof.Machine

/-- The registers of the window (R15). -/
inductive Reg where
  | id
  | ctrl
  | status
  | cmd
  | arg
  | result
  | inData
  | outData
  | fifoLevel
  | nrec
  | total
  | root
  | decRemain
  | decCur
  | wrState
  | rdState
  | nodeInfo0
  | nodeInfo1
  | nodeInfo2
  | codeInfo
  | codeBits (k : Fin 8)
  | reserved
deriving DecidableEq, Repr

/-- The register at a word-aligned offset of the window (R15); 0x70 to 0xFC are reserved (R33). -/
def regAt (off : Nat) : Reg :=
  match off with
  | 0x00 => .id
  | 0x04 => .ctrl
  | 0x08 => .status
  | 0x0C => .cmd
  | 0x10 => .arg
  | 0x14 => .result
  | 0x18 => .inData
  | 0x1C => .outData
  | 0x20 => .fifoLevel
  | 0x24 => .nrec
  | 0x28 => .total
  | 0x2C => .root
  | 0x30 => .decRemain
  | 0x34 => .decCur
  | 0x38 => .wrState
  | 0x3C => .rdState
  | 0x40 => .nodeInfo0
  | 0x44 => .nodeInfo1
  | 0x48 => .nodeInfo2
  | 0x4C => .codeInfo
  | 0x50 => .codeBits 0
  | 0x54 => .codeBits 1
  | 0x58 => .codeBits 2
  | 0x5C => .codeBits 3
  | 0x60 => .codeBits 4
  | 0x64 => .codeBits 5
  | 0x68 => .codeBits 6
  | 0x6C => .codeBits 7
  | _ => .reserved

/-- The offset of a register (R15); every reserved offset reads and writes alike, and 0x70 stands for them. -/
def Reg.offset : Reg → Nat
  | .id => 0x00
  | .ctrl => 0x04
  | .status => 0x08
  | .cmd => 0x0C
  | .arg => 0x10
  | .result => 0x14
  | .inData => 0x18
  | .outData => 0x1C
  | .fifoLevel => 0x20
  | .nrec => 0x24
  | .total => 0x28
  | .root => 0x2C
  | .decRemain => 0x30
  | .decCur => 0x34
  | .wrState => 0x38
  | .rdState => 0x3C
  | .nodeInfo0 => 0x40
  | .nodeInfo1 => 0x44
  | .nodeInfo2 => 0x48
  | .codeInfo => 0x4C
  | .codeBits k => 0x50 + 4 * k.val
  | .reserved => 0x70

/-- ID: ASCII "HUF1" (R16). -/
def idValue : Word := 0x48554631#32

/-- What a read of OUT_DATA returns (R23, R60): VALID and the oldest byte, or 0. -/
def outDataValue (outq : List Byte) : Word :=
  match outq with
  | b :: _ => 0#23 ++ 1#1 ++ b
  | [] => 0

/-- The value a read of each register returns (R16 to R33). -/
def regValue (r : Reg) (s : State) : Word :=
  match r with
  | .id => idValue
  | .ctrl => 0#29 ++ bitVal 1 s.eos ++ 0#2
  | .status => statusValue s
  | .cmd => s.cmdLast
  | .arg => s.arg
  | .result => s.result
  | .inData => 0
  | .outData => outDataValue s.outq
  | .fifoLevel => 0#8 ++ BitVec.ofNat 8 s.outq.length ++ 0#8 ++ BitVec.ofNat 8 s.inq.length
  | .nrec => 0#23 ++ s.nrec
  | .total => s.total
  | .root => bitVal 1 s.rootValid ++ 0#22 ++ s.rootIdx
  | .decRemain => s.decRemain
  | .decCur => 0#23 ++ s.decCur
  | .wrState => 0#20 ++ s.accCnt ++ s.acc
  | .rdState => 0#20 ++ s.srCnt ++ s.sr
  | .nodeInfo0 => s.nodeInfo0
  | .nodeInfo1 => s.nodeInfo1
  | .nodeInfo2 => s.nodeInfo2
  | .codeInfo => s.codeInfo
  | .codeBits k => s.codeBits[k]
  | .reserved => 0

/-- Byte i of a register, as a host that views the window as bytes would see it: the bus is little-endian (R56). No
admitted access reads a byte (R55). -/
def regByte (r : Reg) (i : Fin 4) (s : State) : Byte := (regValue r s).extractLsb' (8 * i.val) 8

/-- What a host read does to the block: only OUT_DATA has a side effect, the pop (R60). -/
def readEffect (r : Reg) (s : State) : State :=
  match r with
  | .outData => { s with outq := s.outq.tail }
  | .id | .ctrl | .status | .cmd | .arg | .result | .inData | .fifoLevel | .nrec | .total | .root => s
  | .decRemain | .decCur | .wrState | .rdState | .nodeInfo0 | .nodeInfo1 | .nodeInfo2 | .codeInfo => s
  | .codeBits _ | .reserved => s

/-- A host read (R55, R60): the value is what the host gets, kept in `reads` (log 10). -/
def hostRead (r : Reg) (s : State) : State :=
  { readEffect r s with reads := regValue r s :: s.reads }

/-- A write to CTRL (R17): SRST takes all of it; else EOS is stored and ABORT acts. -/
def writeCtrl (v : Word) (s : State) : State :=
  if v.getLsbD 0 then softReset s
  else if v.getLsbD 1 then abort { s with eos := v.getLsbD 2 }
  else { s with eos := v.getLsbD 2 }

/-- A write to STATUS (R18): bits 5 and 6 are write-1-to-clear, every other bit is ignored. -/
def writeStatus (v : Word) (s : State) : State :=
  { s with ovr := s.ovr && !v.getLsbD 5, inOvf := s.inOvf && !v.getLsbD 6 }

/-- A write to IN_DATA (R22, R59): the byte is pushed, or dropped with IN_OVF set. -/
def pushIn (v : Word) (s : State) : State :=
  if s.inq.length < s.cfg.inDepth then { s with inq := s.inq ++ [v.extractLsb' 0 8] }
  else { s with inOvf := true }

/-- A host write (R61, R62, R33). -/
def hostWrite (r : Reg) (v : Word) (s : State) : State :=
  match r with
  | .ctrl => writeCtrl v s
  | .status => writeStatus v s
  | .cmd => latch v s
  | .arg => { s with arg := v }
  | .inData => pushIn v s
  | .id | .result | .outData | .fifoLevel | .nrec | .total | .root | .decRemain | .decCur => s
  | .wrState | .rdState | .nodeInfo0 | .nodeInfo1 | .nodeInfo2 | .codeInfo | .codeBits _ | .reserved => s

/-- An access lies in the window (R53). -/
def inWindow (c : Config) (addr : Nat) : Bool := decide (c.base ≤ addr) && decide (addr < c.base + 256)

/-- The only admitted accesses: 32 bits wide, at an offset that is a multiple of 4 (R55). -/
def admittedAccess (c : Config) (addr size : Nat) : Bool := size == 4 && (addr - c.base) % 4 == 0

/-- One host access (R55): an address outside the window is not this block's (R53; log 11), an access R55 does not
admit is refused, every other one is one atomic step. -/
def hostAccess (a : Access) (s : State) : Outcome :=
  match a with
  | .read addr size =>
    if !inWindow s.cfg addr then .fault .outsideWindow
    else if !admittedAccess s.cfg addr size then .refused .accessNotAdmitted
    else .next (hostRead (regAt (addr - s.cfg.base)) s)
  | .write addr size v =>
    if !inWindow s.cfg addr then .fault .outsideWindow
    else if !admittedAccess s.cfg addr size then .refused .accessNotAdmitted
    else .next (hostWrite (regAt (addr - s.cfg.base)) v s)

end Sys2Proof.Machine
end

