-- ==== Sys2Proof/Machine/Engine.lean ====
section
/-! DEFINITION. The engine's turn (40_control.md R79, R80), and one turn of a run (20_memory.md R63). -/

namespace Sys2Proof.Machine

/-- One engine turn. In IDLE there is no engine step, and nothing changes (log 2). In PENDING and RUNNING it is one
step of the command in CMD_LAST; an illegal word is taken up by the dispatch step (R79 check 2) and is never RUNNING
(log 8). -/
def engineTurn (s : State) : Outcome :=
  match s.eng with
  | .idle => .next s
  | .pending =>
    match decode s.cmdLast with
    | .ok i => exec i s
    | .error _ => .next (dispatchIllegal s.cmdLast s)
  | .running _ =>
    match decode s.cmdLast with
    | .ok i => exec i s
    | .error _ => .fault .foreignPosition

/-- One turn of a run (R12, R63). -/
def takeTurn (t : Turn) (s : State) : Outcome :=
  match t with
  | .engine => engineTurn s
  | .host a => hostAccess a s
  | .powerOn => .next (powerOn s)

/-- A step of a run: the next turn of the interleaving, or the engine's where the list is empty (log 1). -/
def runTurn (s : State) : Outcome :=
  match s.turns with
  | [] => engineTurn s
  | t :: rest => takeTurn t { s with turns := rest }

/-- A command word given as a number (R70). -/
def wordOfTable (nbits w : Nat) : Word := BitVec.ofNat 32 (w % 2 ^ nbits)

/-- The word w latched, as a host write to CMD of an idle block latches it (R78), and the engine to move next: what it
takes for the next step to run it (log 13). -/
def issue (w : Word) (s : State) : State :=
  { latch w { s with eng := .idle } with turns := .engine :: s.turns }

end Sys2Proof.Machine
end

