-- ==== Sys2Proof/Machine/Step.lean ====
section
/-! DEFINITION. The step of the machine (20_memory.md R63). -/

namespace Sys2Proof.Machine

/-- One step: one host step, one engine step, or a power-on reset (R12, R63, R142). -/
def step (s : State) : Host.Outcome State Fault Refusal := runTurn s

/-- The state with a command word where the engine takes its next command from, CMD_LAST, latched and pending
(R14, R78; log 13). -/
def State.withFetchWord (s : State) (nbits w : Nat) : State := issue (wordOfTable nbits w) s

end Sys2Proof.Machine
end

