-- ==== Sys2Proof/Machine/HostContract.lean ====
section
/-! DEFINITION. The host's side of the contract (48_host_interface.md R116 to R124): frequency analysis, the header,
its parser and the error kinds. It adds no state and no behaviour to the block. -/

namespace Sys2Proof.Machine

/-- A FrequencyRecord (R117): a symbol and its count. -/
structure FreqRecord where
  sym   : Byte
  count : Nat
deriving DecidableEq, Repr

/-- One more occurrence of a byte, in first-seen order (R117). -/
def countByte (b : Byte) : List FreqRecord → List FreqRecord
  | [] => [⟨b, 1⟩]
  | r :: rest => if r.sym = b then ⟨b, r.count + 1⟩ :: rest else r :: countByte b rest

/-- The records of an input: one per distinct byte, in first-seen order, with the total occurrences (R117). -/
def analyse (x : List Byte) : List FreqRecord := x.foldl (fun recs b => countByte b recs) []

/-! ## The header (R118 to R121) -/

/-- HDR_FORMAT, a host-side parameter (00_scope.md R6). -/
inductive HeaderFormat where
  | faithful
  | hardened
deriving DecidableEq, Repr

/-- '%%' (R118). -/
def percents : List Byte := [0x25, 0x25]

/-- '!!' (R118). -/
def bangs : List Byte := [0x21, 0x21]

/-- '--' (R118). -/
def dashes : List Byte := [0x2D, 0x2D]

/-- The ASCII byte of a decimal digit (R118). -/
def digitByte (d : Nat) : Byte := BitVec.ofNat 8 (0x30 + d)

/-- The decimal digits of a number, most significant first; the first argument bounds their number. -/
def decimalDigits : Nat → Nat → List Byte
  | 0, _ => []
  | fuel + 1, n => if n < 10 then [digitByte n] else decimalDigits fuel (n / 10) ++ [digitByte (n % 10)]

/-- dec(c): no sign, no leading zeros, dec(0) = "0" (R118). -/
def decimal (c : Nat) : List Byte := decimalDigits (c + 1) c

/-- One entry: the symbol, '!!', the digits of the count, '%%' (R118). -/
def entryBytes (r : FreqRecord) : List Byte := [r.sym] ++ bangs ++ decimal r.count ++ percents

/-- The entries of a header and its terminator (R118). -/
def entriesBytes (recs : List FreqRecord) : List Byte := recs.flatMap entryBytes ++ dashes ++ dashes

/-- The header of a record list, in the FAITHFUL format (R118). -/
def headerBytes (recs : List FreqRecord) : List Byte := percents ++ entriesBytes recs

/-- The header in a given format: HARDENED has no format in the spec (R6; log 14). -/
def writeHeader (fmt : HeaderFormat) (recs : List FreqRecord) : Option (List Byte) :=
  match fmt with
  | .faithful => some (headerBytes recs)
  | .hardened => none

/-- L, the header's length by the formula of R119. -/
def headerLength (recs : List FreqRecord) : Nat :=
  2 + (recs.map fun r => 5 + (decimal r.count).length).sum + 4

/-- A byte '0' to '9' (R118). -/
def isDigit (b : Byte) : Bool := decide (0x30 ≤ b.toNat) && decide (b.toNat ≤ 0x39)

/-- value(d): the number a digit run spells; leading zeros are accepted (R120). -/
def digitsValue (d : List Byte) : Nat := d.foldl (fun n b => 10 * n + (b.toNat - 0x30)) 0

/-- The loop of ParseHeader (R120) over the bytes still to be read; `none` is FormatError, and so is a read beyond
the end. The first argument bounds the number of entries. -/
def parseEntries : Nat → List Byte → Nat → List FreqRecord → Option (List FreqRecord × Nat)
  | 0, _, _, _ => none
  | fuel + 1, b, pos, recs =>
    if b.take 2 = dashes then
      if (b.drop 2).take 2 = dashes then some (recs, pos + 4) else none
    else match b with
      | [] => none
      | s :: rest =>
        if rest.take 2 ≠ bangs then none
        else if (rest.drop 2).takeWhile isDigit = [] then none
        else if digitsValue ((rest.drop 2).takeWhile isDigit) > 2 ^ 32 - 1 then none
        else if ((rest.drop 2).dropWhile isDigit).take 2 ≠ percents then none
        else parseEntries fuel (((rest.drop 2).dropWhile isDigit).drop 2)
          (pos + 5 + ((rest.drop 2).takeWhile isDigit).length)
          (recs ++ [⟨s, digitsValue ((rest.drop 2).takeWhile isDigit)⟩])

/-- ParseHeader(B) (R120): the records and L, or FormatError. -/
def parseHeader (b : List Byte) : Option (List FreqRecord × Nat) :=
  if b.take 2 ≠ percents then none else parseEntries b.length (b.drop 2) 2 []

/-! ## Errors (R124) -/

/-- The error kinds of the host (R124). -/
inductive HostError where
  | formatError
  | internalConsistencyError
  | ioError
  /-- ILLEGAL_CMD, BAD_PHASE, NO_RECORDS, ABORTED: a host programming error, propagated as an internal error. -/
  | internalError
deriving DecidableEq, Repr

/-- Where the records the host loads come from (R124). -/
inductive RecordSource where
  | parsed
  | analysed
deriving DecidableEq, Repr

/-- The kind the host gives a block error (R124). No block error is an IOError. -/
def hostErrorOf (src : RecordSource) (e : ErrCode) : Option HostError :=
  match e with
  | .ok => none
  | .illegalCmd => some .internalError
  | .badPhase => some .internalError
  | .noRecords => some .internalError
  | .aborted => some .internalError
  | .codeMiss => some .internalConsistencyError
  | .truncated => some .formatError
  | .dupSymbol => if src = .parsed then some .formatError else some .internalConsistencyError
  | .countOverflow => if src = .parsed then some .formatError else some .internalConsistencyError

/-! ## Host lines (R76, R77) -/

/-- `wr REG, value`. -/
def wrReg (c : Config) (r : Reg) (v : Word) : Access := .write (c.base + r.offset) 4 v

/-- `rd REG`. -/
def rdReg (c : Config) (r : Reg) : Access := .read (c.base + r.offset) 4

/-- A command line: its word is written to CMD. -/
def issueCmd (c : Config) (i : Instr) : Access := wrReg c .cmd (encode i)

/-- The host steps of `LOADR sym, count` before its WAIT. -/
def loadRecordLines (c : Config) (sym : Byte) (count : Word) : List Access :=
  [wrReg c .arg count, issueCmd c (.loadRecord sym)]

/-- `PUSH b`. -/
def pushByteLine (c : Config) (b : Byte) : Access := wrReg c .inData (0#24 ++ b)

/-- `PUSHS`: one PUSH per byte, in order. -/
def pushBytesLines (c : Config) (bs : List Byte) : List Access := bs.map (pushByteLine c)

/-- `SETEOS`. -/
def setEosLine (c : Config) : Access := wrReg c .ctrl 0x4

/-- `CLREOS`. -/
def clrEosLine (c : Config) : Access := wrReg c .ctrl 0x0

/-- `SRST`. -/
def srstLine (c : Config) : Access := wrReg c .ctrl 0x1

/-- `ABORT`: EOS is written back as it is. -/
def abortLine (c : Config) (eos : Bool) : Access := wrReg c .ctrl (0x2 ||| (bitVal 32 eos <<< 2))

end Sys2Proof.Machine
end

