-- ==== Sys2Proof/Safety.lean ====
section
/-! DEFINITION. The terms the claims use: when a command begins, the bit streams the buffers hold, the invariants of
10_state.md, and which runs keep to the host's moves (48_host_interface.md R116). -/

namespace Sys2Proof.Machine

/-! ## When a command begins, and several of its steps -/

/-- The dispatch step of command i is enabled and passes checks 1 and 3 (40_control.md R79): ENG = PENDING, the lock
lets i through, PHASE admits i. -/
abbrev Begins (i : Instr) (s : State) : Prop :=
  s.eng = .pending ∧ lockedOut i.opc s = false ∧ phaseError i s.phase = .ok

/-- n engine steps of command i with no host step between them. -/
def execTimes : Nat → Instr → State → Outcome
  | 0, _, s => .next s
  | n + 1, i, s =>
    match exec i s with
    | .next s' => execTimes n i s'
    | .fault r => .fault r
    | .refused r => .refused r

/-! ## Bit streams (20_memory.md R57, R58) -/

/-- The bits of a byte, most significant first (R57). -/
def byteBits (b : Byte) : List Bool := (List.range 8).map fun k => b.getLsbD (7 - k)

/-- The bits written so far and not yet taken by the host: the output FIFO, then ACC's filled bits (R58, R90). -/
def outStream (s : State) : List Bool := s.outq.flatMap byteBits ++ (byteBits s.acc).take s.accCnt.toNat

/-- The bits ReadBit will return, in order: SR's unread bits, then the input FIFO (R58, R92). -/
def inStream (s : State) : List Bool := (byteBits s.sr).take s.srCnt.toNat ++ s.inq.flatMap byteBits

/-- The n low bits of V, most significant first (R71, R96). -/
def msbBits (n : Nat) (v : BitVec 16) : List Bool := (List.range n).map fun k => v.getLsbD (n - 1 - k)

/-! ## Trees -/

/-- The arena index reached from i along a path, 0 for LEFT and 1 for RIGHT (R107, R108). -/
def follow (nodes : Vector Node 511) (i : Index) : List Bool → Index
  | [] => i
  | b :: p => follow nodes (childOf b (readNode nodes i.toNat)) p

/-- R39, the arena of a built tree over n records with its root: Internal nodes at n to 2n − 2 with children below
them and the sum of their counts, each index but the root the child of exactly one of them. -/
abbrev TreeShape (nodes : Vector Node 511) (n : Nat) (root : Index) : Prop :=
  root.toNat = 2 * n - 2 ∧
  (∀ i < 2 * n - 1, n ≤ i →
    (readNode nodes i).kind = .internal ∧ (readNode nodes i).sym = 0 ∧
    (readNode nodes i).left.toNat < i ∧ (readNode nodes i).right.toNat < i ∧
    (readNode nodes i).left ≠ (readNode nodes i).right ∧
    (readNode nodes i).count.toNat =
      (readNode nodes (readNode nodes i).left.toNat).count.toNat
        + (readNode nodes (readNode nodes i).right.toNat).count.toNat) ∧
  (∀ j < 2 * n - 2, ∃ i < 2 * n - 1,
    (n ≤ i ∧ ((readNode nodes i).left.toNat = j ∨ (readNode nodes i).right.toNat = j)) ∧
    ∀ k < 2 * n - 1,
      n ≤ k ∧ ((readNode nodes k).left.toNat = j ∨ (readNode nodes k).right.toNat = j) → k = i)

/-- R39, the records: entries 0 to n − 1 are Leaves with distinct symbols. -/
abbrev LeafShape (nodes : Vector Node 511) (n : Nat) : Prop :=
  (∀ i < n, (readNode nodes i).kind = .leaf ∧ (readNode nodes i).left = 0 ∧ (readNode nodes i).right = 0) ∧
  (∀ i < n, ∀ j < i, (readNode nodes i).sym ≠ (readNode nodes j).sym)

/-- The sum of the counts of the first n entries. -/
def countSum (nodes : Vector Node 511) (n : Nat) : Nat :=
  ((List.range n).map fun i => (readNode nodes i).count.toNat).sum

/-! ## Invariants -/

/-- R42: ACC_CNT is 0 to 7, and the bits of ACC not yet filled are 0. -/
abbrev WriterOk (s : State) : Prop :=
  s.accCnt.toNat ≤ 7 ∧ ∀ k < 8 - s.accCnt.toNat, s.acc.getLsbD k = false

/-- R43: SR_CNT is 0 to 8, and the bits of SR already read are 0. -/
abbrev ReaderOk (s : State) : Prop :=
  s.srCnt.toNat ≤ 8 ∧ ∀ k < 8 - s.srCnt.toNat, s.sr.getLsbD k = false

/-- R5, R42 to R45: the parameters are admitted ones, the FIFOs hold at most their depths, the writer and the reader
keep their invariants. -/
abbrev BufferOk (s : State) : Prop :=
  s.cfg.Admitted ∧ WriterOk s ∧ ReaderOk s ∧
  s.inq.length ≤ s.cfg.inDepth ∧ s.outq.length ≤ s.cfg.outDepth

/-- R34 to R37, R40 and the first sentence of R39: N, TOTAL, LOADED, PHASE and ROOT_VALID agree with the records. -/
abbrev RecordOk (s : State) : Prop :=
  s.nrec.toNat ≤ 256 ∧ (s.phase = .empty ↔ s.nrec.toNat = 0) ∧
  (s.rootValid = true ↔ s.phase = .built ∨ s.phase = .coded) ∧ (s.rootValid = false → s.rootIdx = 0) ∧
  LeafShape s.nodes s.nrec.toNat ∧
  (∀ c < 256, s.loaded.getLsbD c = true ↔ ∃ i < s.nrec.toNat, (readNode s.nodes i).sym.toNat = c) ∧
  s.total.toNat = countSum s.nodes s.nrec.toNat

/-- The code the tree in the arena gives a symbol, in BUILT or CODED (R107, R108). -/
def State.treeCode (s : State) (sym : Byte) : CodeEntry :=
  (codesOf s.nodes s.rootIdx)[sym.toNat]'(by have := sym.isLt; omega)

/-- The tree of R39 stands in the arena while PHASE is BUILT or CODED, its root's count is TOTAL (R36), and the code
table is the tree's while PHASE is CODED (R41, R107). -/
abbrev TreeOk (s : State) : Prop :=
  (s.phase = .built ∨ s.phase = .coded →
    TreeShape s.nodes s.nrec.toNat s.rootIdx ∧ (s.node s.rootIdx).count = s.total) ∧
  (s.phase = .coded → s.codes = codesOf s.nodes s.rootIdx)

/-- The position `loc` is a call of command i, with locals its pseudocode can have there (R47, R80). -/
def atCall (i : Instr) (loc : Loc) (s : State) : Bool :=
  match i, loc with
  | .writeBits nb _, .writeBits j => decide (j < nb.toNat)
  | .flush, .flush => true
  | .readBit, .readBit => true
  | .skipBits n, .skipBits k => decide (k < n.toNat)
  | .encodeSym sym, .encodeSym j => (s.code sym).valid && decide (j < (s.code sym).bits.length)
  | .encodeStream, .streamPop _ => true
  | .encodeStream, .streamWrite _ v j => (s.code v).valid && decide (j < (s.code v).bits.length)
  | .decode, .decodeEmitRoot _ => (s.node s.rootIdx).kind == .leaf && s.decRemain != 0
  | .decode, .decodeRead _ => (s.node s.rootIdx).kind == .internal && s.decRemain != 0
  | .decode, .decodeEmit _ => (s.node s.rootIdx).kind == .internal && s.decRemain != 0
  | _, _ => false

/-- R47, R79, R80: a running command is the one of CMD_LAST, stands at one of its own calls, was admitted in the
present phase, and the block is not locked. -/
def engineOk (s : State) : Bool :=
  match s.eng with
  | .idle => true
  | .pending => true
  | .running loc =>
    match decode s.cmdLast with
    | .ok i => atCall i loc s && s.err == .ok && phaseError i s.phase == .ok
    | .error _ => false

/-- R49, R113: where a running DECODE stands in the tree, and that emitted and remaining symbols add up. -/
def decoderOk (s : State) : Bool :=
  match s.eng with
  | .running (.decodeEmitRoot e) =>
    s.decCur == s.rootIdx && e.toNat + s.decRemain.toNat == (s.node s.rootIdx).count.toNat
  | .running (.decodeRead e) =>
    decide (s.nrec.toNat ≤ s.decCur.toNat) && decide (s.decCur.toNat ≤ s.rootIdx.toNat) &&
      e.toNat + s.decRemain.toNat == (s.node s.rootIdx).count.toNat
  | .running (.decodeEmit e) =>
    decide (s.decCur.toNat < s.nrec.toNat) &&
      e.toNat + s.decRemain.toNat == (s.node s.rootIdx).count.toNat
  | _ => true

/-- Everything 10_state.md says of the states of a run. -/
abbrev Inv (s : State) : Prop :=
  BufferOk s ∧ RecordOk s ∧ TreeOk s ∧ engineOk s = true ∧ decoderOk s = true

/-! ## Command words -/

/-- A word selects a row of R72: (w & mask) = match, with the extra check of WRITE_BITS. -/
def rowSelects (r : OpcodeRow) (w : Word) : Prop :=
  w &&& r.mask = r.fixed ∧
  (r.mnemonic = "WRITE_BITS" →
    1 ≤ (w.extractLsb' 16 5).toNat ∧ (w.extractLsb' 16 5).toNat ≤ 16 ∧
    ∀ k < 16, (w.extractLsb' 16 5).toNat ≤ k → w.getLsbD k = false)

/-! ## Runs that keep to the host's moves -/

/-- The next turn is the engine's: it is listed, or the list is empty (log 1). -/
def engineMoves (s : State) : Prop := s.turns = [] ∨ ∃ rest, s.turns = .engine :: rest

/-- The next turn is a host write of v to register r (R55). -/
def hostWrites (r : Reg) (v : Word) (s : State) : Prop :=
  ∃ addr rest, s.turns = .host (.write addr 4 v) :: rest ∧ regAt (addr - s.cfg.base) = r

/-- A turn R55 and R116 admit: an engine turn, a power-on reset, or a 32-bit access at a multiple of 4 in the
window. -/
def turnAdmitted (c : Config) (t : Turn) : Bool :=
  match t with
  | .engine => true
  | .powerOn => true
  | .host (.read addr size) => inWindow c addr && admittedAccess c addr size
  | .host (.write addr size _) => inWindow c addr && admittedAccess c addr size

/-- The next turn, if any is listed, is an admitted one. -/
def nextTurnAdmitted (s : State) : Bool :=
  match s.turns with
  | [] => true
  | t :: _ => turnAdmitted s.cfg t

/-! ## What no rule reads (R38, R39, R41) -/

/-- How many arena entries are written: none in EMPTY, the records in LOADED, the tree in BUILT and CODED (R39). -/
def writtenNodes (s : State) : Nat :=
  match s.phase with
  | .empty => 0
  | .loaded => s.nrec.toNat
  | .built => 2 * s.nrec.toNat - 1
  | .coded => 2 * s.nrec.toNat - 1

/-- Two states that differ at most in arena entries not yet written and, outside CODED, in the code table. -/
abbrev SameVisible (s t : State) : Prop :=
  t = { s with nodes := t.nodes, codes := t.codes } ∧
  (∀ i < writtenNodes s, readNode t.nodes i = readNode s.nodes i) ∧
  (s.phase = .coded → t.codes = s.codes)

end Sys2Proof.Machine
end

