-- ==== Sys2Proof/Certificates/Slice0/Obligations.lean ====
section
/-! DEFINITION. The statements for the provers. A docstring names the rules of spec/ a statement formalises, and the
log entries its wording rests on where the model chose something. -/

open Sys2Proof Sys2Proof.Machine

/-! ## Command words -/

/-- Decoding the word of a command that satisfies R71 gives the command back, with every operand at every value. -/
def Obligations.DecodeOfEncodeIsTheCommand : Prop :=
  ∀ i : Instr, i.wf = true → decode (encode i) = .ok i

/-- Every legal word is the word of exactly the command it decodes to, so no bit of a word is dropped. -/
def Obligations.EncodeOfDecodeIsTheWord : Prop :=
  ∀ (w : Word) (i : Instr), decode w = .ok i → encode i = w ∧ i.wf = true

/-- R72, R71: a word is taken for a command exactly when it selects that command's row of the opcode map, and the
command's operands are the fields of its layout, straight from the word's bits. -/
def Obligations.WordIsTheCommandItsRowSelects : Prop :=
  ∀ w : Word,
    (∀ i, decode w = .ok i → ∃ r ∈ opcodeTable, rowSelects r w ∧ r.mnemonic = i.mnemonic) ∧
    (∀ r ∈ opcodeTable, rowSelects r w → ∃ i, decode w = .ok i ∧ i.mnemonic = r.mnemonic) ∧
    (∀ sym, decode w = .ok (.loadRecord sym) ∨ decode w = .ok (.queryCode sym) ∨ decode w = .ok (.encodeSym sym) →
      sym = w.extractLsb' 0 8 ∧ w.extractLsb' 8 16 = 0) ∧
    (∀ idx, decode w = .ok (.queryNode idx) → idx = w.extractLsb' 0 9 ∧ w.extractLsb' 9 15 = 0) ∧
    (∀ nb v, decode w = .ok (.writeBits nb v) →
      nb = w.extractLsb' 16 5 ∧ v = w.extractLsb' 0 16 ∧ w.extractLsb' 21 3 = 0 ∧
      1 ≤ nb.toNat ∧ nb.toNat ≤ 16 ∧ ∀ k, nb.toNat ≤ k → v.getLsbD k = false) ∧
    (∀ n, decode w = .ok (.skipBits n) → n = w.extractLsb' 0 24) ∧
    (∀ i ∈ [Instr.nop, .clear, .ackErr, .build, .genCodes, .flush, .readBit, .alignRead, .encodeStream, .decode],
      decode w = .ok i → w.extractLsb' 0 24 = 0)

/-- R74: which words are illegal; an illegal word is latched like any other; when the engine takes it up it raises
ILLEGAL_CMD unless ERR already holds a code, and changes nothing but ERR and ENG (so BUSY). -/
def Obligations.IllegalWordsAreLatchedAndRaiseIllegalCmd : Prop :=
  (∀ w : Word, (∃ e, decode w = .error e) ↔
    (opcOf w ∉ [0x00#8, 0x01#8, 0x02#8, 0x10#8, 0x11#8, 0x12#8, 0x13#8, 0x14#8, 0x20#8, 0x21#8, 0x22#8, 0x23#8,
      0x24#8, 0x30#8, 0x31#8, 0x32#8]) ∨
    (opcOf w ∈ [0x00#8, 0x01#8, 0x02#8, 0x11#8, 0x12#8, 0x21#8, 0x22#8, 0x24#8, 0x31#8, 0x32#8] ∧
      w.extractLsb' 0 24 ≠ 0) ∨
    (opcOf w ∈ [0x10#8, 0x14#8, 0x30#8] ∧ w.extractLsb' 8 16 ≠ 0) ∨
    (opcOf w = 0x13#8 ∧ w.extractLsb' 9 15 ≠ 0) ∨
    (opcOf w = 0x20#8 ∧ w.extractLsb' 21 3 ≠ 0) ∨
    (opcOf w = 0x20#8 ∧
      ((w.extractLsb' 16 5).toNat = 0 ∨ (w.extractLsb' 16 5).toNat > 16 ∨
        ∃ k < 16, (w.extractLsb' 16 5).toNat ≤ k ∧ w.getLsbD k = true))) ∧
  (∀ (w : Word) (s : State), s.eng = .idle →
    hostWrite .cmd w s = { s with cmdLast := w, cmdArg := s.arg, eng := .pending }) ∧
  (∀ (s : State) (e : Illegal), s.eng = .pending → decode s.cmdLast = .error e →
    engineTurn s = .next { s with eng := .idle, err := if s.err = .ok then .illegalCmd else s.err })

/-- Words written out bit by bit from R70 to R72 decode to the commands they stand for. -/
def Obligations.SampleWordsDecode : Prop :=
  decode 0x01000000#32 = .ok .clear ∧ decode 0x10000061#32 = .ok (.loadRecord 0x61#8) ∧
  decode 0x130001FF#32 = .ok (.queryNode 0x1FF#9) ∧ decode 0x2010BEEF#32 = .ok (.writeBits 16#5 0xBEEF#16) ∧
  decode 0x23FFFFFF#32 = .ok (.skipBits 0xFFFFFF#24) ∧ decode 0x30000071#32 = .ok (.encodeSym 0x71#8) ∧
  decode 0x32000000#32 = .ok .decode ∧ decode 0x2001_0002#32 = .error .badWriteBits

/-! ## The step -/

/-- A step runs the command decoded from CMD_LAST when the engine moves (R79, R80); a host turn is that access (R55); a
power-on turn gives the model's reset state (R142); an idle engine changes nothing. The model's choices in it: that the
list of turns says who moves is log 1; that an idle engine's turn is a step at all is log 2; that power-on reset is a
turn which keeps the parameters, the turns to come and the past reads is log 17, and the zero NODE and CODE the reset
state holds are log 4. -/
def Obligations.StepRunsTheLatchedCommand : Prop :=
  (∀ (s : State) (i : Instr), s.eng ≠ .idle → decode s.cmdLast = .ok i →
    (s.turns = [] → step s = exec i s) ∧
    (∀ rest, s.turns = .engine :: rest → step s = exec i { s with turns := rest })) ∧
  (∀ (s : State) (a : Access) (rest : List Turn), s.turns = .host a :: rest →
    step s = hostAccess a { s with turns := rest }) ∧
  (∀ (s : State) (rest : List Turn), s.turns = .powerOn :: rest →
    step s = .next { State.resetWith s.cfg with turns := rest, reads := s.reads }) ∧
  (∀ s : State, s.eng = .idle → s.turns = [] → step s = .next s)

/-! ## Resets and the register window -/

/-- R52: what power-on reset and SRST leave, and that CLEAR leaves the same but for ARG, CMD_LAST and CMD_ARG. NODE and
CODE are unspecified, so nothing is said of them. -/
def Obligations.ResetsLeaveTheResetTable : Prop :=
  (∀ t : State, ((∃ c, t = State.resetWith c) ∨ ∃ s, t = softReset s) →
    regValue .id t = 0x48554631#32 ∧ t.eos = false ∧ t.phase = .empty ∧ t.nrec = 0 ∧ t.total = 0 ∧ t.loaded = 0 ∧
    t.rootIdx = 0 ∧ t.rootValid = false ∧ t.acc = 0 ∧ t.accCnt = 0 ∧ t.sr = 0 ∧ t.srCnt = 0 ∧
    t.inq = [] ∧ t.outq = [] ∧ t.err = .ok ∧ t.ovr = false ∧ t.inOvf = false ∧
    t.eng = .idle ∧ t.busy = false ∧ t.hold = false ∧ t.cmdLast = 0 ∧ t.cmdArg = 0 ∧ t.arg = 0 ∧ t.result = 0 ∧
    t.decRemain = 0 ∧ t.decCur = 0 ∧ t.nodeInfo0 = 0 ∧ t.nodeInfo1 = 0 ∧ t.nodeInfo2 = 0 ∧
    t.codeInfo = 0 ∧ ∀ k : Fin 8, t.codeBits[k] = 0) ∧
  (∀ s : State, s.eng = .pending → ∃ t, exec .clear s = .next t ∧
    { t with arg := 0, cmdLast := 0, cmdArg := 0 } = softReset s ∧
    t.arg = s.arg ∧ t.cmdLast = s.cmdLast ∧ t.cmdArg = s.cmdArg)

/-- The register map of R15, offset by offset; what a read of each register but CTRL, STATUS and OUT_DATA returns in every
state, field by field (R16, R19 to R33); and the reset column of R15: what it returns after power-on reset, for every
admitted depth. -/
def Obligations.RegistersReadTheirResetValues : Prop :=
  [0x00, 0x04, 0x08, 0x0C, 0x10, 0x14, 0x18, 0x1C, 0x20, 0x24, 0x28, 0x2C, 0x30, 0x34, 0x38, 0x3C, 0x40, 0x44, 0x48,
    0x4C].map regAt =
    [Reg.id, .ctrl, .status, .cmd, .arg, .result, .inData, .outData, .fifoLevel, .nrec, .total, .root, .decRemain,
      .decCur, .wrState, .rdState, .nodeInfo0, .nodeInfo1, .nodeInfo2, .codeInfo] ∧
  (∀ k : Fin 8, regAt (0x50 + 4 * k.val) = .codeBits k) ∧
  (∀ s : State,
    regValue .id s = 0x48554631#32 ∧ regValue .cmd s = s.cmdLast ∧ regValue .arg s = s.arg ∧
    regValue .result s = s.result ∧ regValue .inData s = 0 ∧ regValue .total s = s.total ∧
    regValue .decRemain s = s.decRemain ∧ regValue .nodeInfo0 s = s.nodeInfo0 ∧ regValue .nodeInfo1 s = s.nodeInfo1 ∧
    regValue .nodeInfo2 s = s.nodeInfo2 ∧ regValue .codeInfo s = s.codeInfo ∧
    (∀ k : Fin 8, regValue (.codeBits k) s = s.codeBits[k]) ∧ regValue .reserved s = 0 ∧
    (s.inq.length ≤ 255 → ((regValue .fifoLevel s).extractLsb' 0 8).toNat = s.inq.length) ∧
    (s.outq.length ≤ 255 → ((regValue .fifoLevel s).extractLsb' 16 8).toNat = s.outq.length) ∧
    (regValue .fifoLevel s).extractLsb' 8 8 = 0 ∧ (regValue .fifoLevel s).extractLsb' 24 8 = 0 ∧
    (regValue .nrec s).extractLsb' 0 9 = s.nrec ∧ (regValue .nrec s).extractLsb' 9 23 = 0 ∧
    (regValue .root s).extractLsb' 0 9 = s.rootIdx ∧ (regValue .root s).extractLsb' 9 22 = 0 ∧
    (regValue .root s).getLsbD 31 = s.rootValid ∧
    (regValue .decCur s).extractLsb' 0 9 = s.decCur ∧ (regValue .decCur s).extractLsb' 9 23 = 0 ∧
    (regValue .wrState s).extractLsb' 0 8 = s.acc ∧ (regValue .wrState s).extractLsb' 8 4 = s.accCnt ∧
    (regValue .wrState s).extractLsb' 12 20 = 0 ∧
    (regValue .rdState s).extractLsb' 0 8 = s.sr ∧ (regValue .rdState s).extractLsb' 8 4 = s.srCnt ∧
    (regValue .rdState s).extractLsb' 12 20 = 0) ∧
  (∀ c : Config, c.Admitted → ∀ r : Reg,
    regValue r (State.resetWith c) =
      if r = .id then 0x48554631#32 else if r = .status then 0x00005000#32 else 0)

/-- R17, R141: a write to CTRL. SRST takes all of the write and resets, whatever the engine does; else bit 2 is stored
as EOS and bit 1 aborts (R128): an idle block is unchanged, a busy one becomes idle with ABORTED recorded if ERR was 0.
CTRL reads EOS in bit 2 and 0 elsewhere. -/
def Obligations.CtrlWritesResetAbortAndStoreEos : Prop :=
  ∀ (v : Word) (s : State),
    (v.getLsbD 0 = true → hostWrite .ctrl v s =
      { s with
        eos := false, phase := .empty, nrec := 0, total := 0, loaded := 0, rootIdx := 0, rootValid := false,
        acc := 0, accCnt := 0, sr := 0, srCnt := 0, inq := [], outq := [], err := .ok, ovr := false, inOvf := false,
        eng := .idle, result := 0, decRemain := 0, decCur := 0, nodeInfo0 := 0, nodeInfo1 := 0, nodeInfo2 := 0,
        codeInfo := 0, codeBits := Vector.replicate 8 0, arg := 0, cmdLast := 0, cmdArg := 0 }) ∧
    (v.getLsbD 0 = false → v.getLsbD 1 = false → hostWrite .ctrl v s = { s with eos := v.getLsbD 2 }) ∧
    (v.getLsbD 0 = false → v.getLsbD 1 = true → s.eng = .idle → hostWrite .ctrl v s = { s with eos := v.getLsbD 2 }) ∧
    (v.getLsbD 0 = false → v.getLsbD 1 = true → s.eng ≠ .idle → hostWrite .ctrl v s =
      { s with eos := v.getLsbD 2, eng := .idle, err := if s.err = .ok then .aborted else s.err }) ∧
    (∀ k, (regValue .ctrl s).getLsbD k = (decide (k = 2) && s.eos))

/-- R18, bit by bit, ERR with the codes of R125, and the write-1-to-clear bits of a STATUS write, which touches nothing
else (ERR among it). -/
def Obligations.StatusShowsTheFlags : Prop :=
  ∀ s : State,
    ((regValue .status s).getLsbD 0 = true ↔ s.eng ≠ .idle) ∧
    (regValue .status s).extractLsb' 1 3 =
      (match s.phase with | .empty => 0#3 | .loaded => 1#3 | .built => 2#3 | .coded => 3#3) ∧
    ((regValue .status s).getLsbD 4 = true ↔ ∃ loc, s.eng = .running loc ∧ wouldHold loc.prim s = true) ∧
    (regValue .status s).getLsbD 5 = s.ovr ∧ (regValue .status s).getLsbD 6 = s.inOvf ∧
    (regValue .status s).getLsbD 7 = false ∧
    (regValue .status s).extractLsb' 8 4 =
      (match s.err with
        | .ok => 0#4 | .illegalCmd => 1#4 | .badPhase => 2#4 | .dupSymbol => 3#4 | .countOverflow => 4#4
        | .noRecords => 5#4 | .codeMiss => 6#4 | .truncated => 7#4 | .aborted => 8#4) ∧
    ((regValue .status s).getLsbD 12 = true ↔ s.inq = []) ∧
    ((regValue .status s).getLsbD 13 = true ↔ s.inq.length = s.cfg.inDepth) ∧
    ((regValue .status s).getLsbD 14 = true ↔ s.outq = []) ∧
    ((regValue .status s).getLsbD 15 = true ↔ s.outq.length = s.cfg.outDepth) ∧
    (∀ k, 16 ≤ k → (regValue .status s).getLsbD k = false) ∧
    (∀ v : Word, hostWrite .status v s =
      { s with ovr := if v.getLsbD 5 then false else s.ovr, inOvf := if v.getLsbD 6 then false else s.inOvf })

/-- R78: the latch takes every word, legal or not, locked or not, with the count operand, exactly when ENG is IDLE; a
word that meets BUSY = 1 is dropped and sets OVR. -/
def Obligations.CmdWritesLatchOrOverrun : Prop :=
  ∀ (w : Word) (s : State),
    (s.eng = .idle → hostWrite .cmd w s = { s with cmdLast := w, cmdArg := s.arg, eng := .pending }) ∧
    (s.eng ≠ .idle → hostWrite .cmd w s = { s with ovr := true })

/-- R59: a byte written to IN_DATA is appended, or dropped with IN_OVF set; EOS and BUSY play no part, and a byte in the
FIFO is consumed by a later ReadBit or PopByte whatever EOS is. -/
def Obligations.InDataWritesPushOrOverflow : Prop :=
  (∀ (v : Word) (s : State),
    (s.inq.length < s.cfg.inDepth → hostWrite .inData v s = { s with inq := s.inq ++ [v.extractLsb' 0 8] }) ∧
    (¬ s.inq.length < s.cfg.inDepth → hostWrite .inData v s = { s with inOvf := true })) ∧
  (∀ (s : State) (b : Byte) (rest : List Byte), s.inq = b :: rest →
    popByte s = .byte b { s with inq := rest } ∧
    (s.srCnt = 0 → readBit s = .bit (b.getLsbD 7) { s with sr := b <<< 1, srCnt := 7, inq := rest }))

/-- R60: a read of OUT_DATA pops the oldest byte and returns it with VALID, or returns 0 and changes nothing; every other
read is free of side effects and idempotent. What the host gets stands in `reads` (log 10). -/
def Obligations.OutDataReadsPop : Prop :=
  (∀ (s : State) (b : Byte) (rest : List Byte), s.outq = b :: rest →
    hostRead .outData s = { s with outq := rest, reads := (0x100#32 ||| b.setWidth 32) :: s.reads }) ∧
  (∀ s : State, s.outq = [] → hostRead .outData s = { s with reads := 0 :: s.reads }) ∧
  (∀ (r : Reg) (s : State), r ≠ .outData →
    hostRead r s = { s with reads := regValue r s :: s.reads } ∧ regValue r (hostRead r s) = regValue r s)

/-- R62, R33: a write to a read-only register or a reserved offset is ignored; the offsets 0x70 to 0xFC are reserved and
read 0. R61: a write to ARG only stores the value. -/
def Obligations.ReadOnlyAndReservedWritesAreIgnored : Prop :=
  (∀ (r : Reg) (v : Word) (s : State),
    r ≠ .ctrl → r ≠ .status → r ≠ .cmd → r ≠ .arg → r ≠ .inData → hostWrite r v s = s) ∧
  (∀ (off : Nat) (s : State), 0x70 ≤ off → off ≤ 0xFC → regAt off = .reserved ∧ regValue (regAt off) s = 0) ∧
  (∀ (v : Word) (s : State), hostWrite .arg v s = { s with arg := v })

/-- R55: inside the window only a 32-bit access at a multiple of 4 has a step, and it reads or writes the whole register
in that step; every other one is refused. -/
def Obligations.OnlyWholeAlignedAccessesAreAdmitted : Prop :=
  ∀ (s : State) (off size : Nat) (v : Word), off < 256 →
    (size = 4 → off % 4 = 0 →
      hostAccess (.read (s.cfg.base + off) size) s = .next (hostRead (regAt off) s) ∧
      hostAccess (.write (s.cfg.base + off) size v) s = .next (hostWrite (regAt off) v s)) ∧
    (size ≠ 4 ∨ off % 4 ≠ 0 →
      hostAccess (.read (s.cfg.base + off) size) s = .refused .accessNotAdmitted ∧
      hostAccess (.write (s.cfg.base + off) size v) s = .refused .accessNotAdmitted)

/-- R53 gives the block no address outside its window: such an access stops the model (log 11). -/
def Obligations.AccessesOutsideTheWindowFault : Prop :=
  ∀ (s : State) (addr size : Nat) (v : Word), (addr < s.cfg.base ∨ s.cfg.base + 256 ≤ addr) →
    hostAccess (.read addr size) s = .fault .outsideWindow ∧
    hostAccess (.write addr size v) s = .fault .outsideWindow

/-! ## Dispatch, errors, holds -/

/-- R46, R79 check 1: while ERR ≠ 0 every command but NOP, CLEAR and ACK_ERR completes with no effect. -/
def Obligations.LockedCommandsHaveNoEffect : Prop :=
  ∀ (i : Instr) (s : State), s.eng = .pending → s.err ≠ .ok → i ≠ .nop → i ≠ .clear → i ≠ .ackErr →
    exec i s = .next { s with eng := .idle }

/-- R73, row by row: the error of a command out of phase, with nothing else changed, and the phases that admit; the lock
and the legality of the word come first. -/
def Obligations.PhaseTableIsEnforced : Prop :=
  (∀ s : State, s.eng = .pending → s.err = .ok →
    (s.phase = .built ∨ s.phase = .coded → ∀ sym,
      exec (.loadRecord sym) s = .next { s with err := .badPhase, eng := .idle }) ∧
    (s.phase = .empty → exec .build s = .next { s with err := .noRecords, eng := .idle }) ∧
    (s.phase = .built ∨ s.phase = .coded → exec .build s = .next { s with err := .badPhase, eng := .idle }) ∧
    (s.phase = .empty ∨ s.phase = .loaded →
      exec .genCodes s = .next { s with err := .badPhase, eng := .idle } ∧
      exec .decode s = .next { s with err := .badPhase, eng := .idle } ∧
      ∀ idx, exec (.queryNode idx) s = .next { s with err := .badPhase, eng := .idle }) ∧
    (s.phase ≠ .coded →
      exec .encodeStream s = .next { s with err := .badPhase, eng := .idle } ∧
      ∀ sym, exec (.queryCode sym) s = .next { s with err := .badPhase, eng := .idle } ∧
        exec (.encodeSym sym) s = .next { s with err := .badPhase, eng := .idle })) ∧
  (∀ (p : Phase) (sym : Byte) (idx : Index) (nb : BitVec 5) (v : BitVec 16) (n : BitVec 24),
    (∀ i ∈ [Instr.nop, .clear, .ackErr, .writeBits nb v, .flush, .readBit, .skipBits n, .alignRead],
      phaseError i p = .ok) ∧
    (phaseError (.loadRecord sym) p = .ok ↔ p = .empty ∨ p = .loaded) ∧
    (phaseError .build p = .ok ↔ p = .loaded) ∧
    (∀ i ∈ [Instr.genCodes, .queryNode idx, .decode], phaseError i p = .ok ↔ p = .built ∨ p = .coded) ∧
    (∀ i ∈ [Instr.queryCode sym, .encodeSym sym, .encodeStream], phaseError i p = .ok ↔ p = .coded)) ∧
  (∀ (i : Instr) (s : State), s.eng = .pending → s.err ≠ .ok → phaseError i s.phase ≠ .ok →
    exec i s = .next { s with eng := .idle }) ∧
  (∀ (s : State) (e : Illegal), s.eng = .pending → s.err = .ok → decode s.cmdLast = .error e →
    engineTurn s = .next { s with err := .illegalCmd, eng := .idle })

/-- R127, the precise errors: an error a command raises in its dispatch step leaves everything but ERR and ENG as it
was, for every command. -/
def Obligations.DispatchErrorsArePrecise : Prop :=
  ∀ (i : Instr) (s t : State), s.eng = .pending → s.err = .ok → exec i s = .next t → t.err ≠ .ok →
    t = { s with err := t.err, eng := .idle }

/-- R89, the table of holds, for the primitives as R90 to R94 write them, and that a command at a call that would HOLD
changes no state. That such an engine turn is a step at all, one that leaves the state as it is, is the model's choice
(log 2). -/
def Obligations.PrimitivesHoldExactlyByTheTable : Prop :=
  ∀ s : State,
    (∀ b, writeBit b s = .hold ↔ s.accCnt = 7 ∧ s.outq.length = s.cfg.outDepth) ∧
    (flushByte s = .hold ↔ s.accCnt ≠ 0 ∧ s.outq.length = s.cfg.outDepth) ∧
    (readBit s = .hold ↔ s.srCnt = 0 ∧ s.inq = [] ∧ s.eos = false) ∧
    (popByte s = .hold ↔ s.inq = [] ∧ s.eos = false) ∧
    (∀ v, emit v s = .hold ↔ s.outq.length = s.cfg.outDepth) ∧
    (wouldHold .writeBit s = true ↔ s.accCnt = 7 ∧ s.outq.length = s.cfg.outDepth) ∧
    (wouldHold .flush s = true ↔ s.accCnt ≠ 0 ∧ s.outq.length = s.cfg.outDepth) ∧
    (wouldHold .readBit s = true ↔ s.srCnt = 0 ∧ s.inq = [] ∧ s.eos = false) ∧
    (wouldHold .popByte s = true ↔ s.inq = [] ∧ s.eos = false) ∧
    (wouldHold .emit s = true ↔ s.outq.length = s.cfg.outDepth) ∧
    (∀ i loc, s.eng = .running loc → atCall i loc s = true → wouldHold loc.prim s = true → exec i s = .next s)

/-- R80, R81: a running command changes nothing while its call would HOLD (that such a turn is a step at all is log 2),
and every other engine turn of it moves: a HOLD is the only way not to. -/
def Obligations.RunningCommandMovesUnlessItHolds : Prop :=
  ∀ (s : State) (loc : Loc) (i : Instr), s.eng = .running loc → atCall i loc s = true →
    (wouldHold loc.prim s = true → exec i s = .next s) ∧
    (wouldHold loc.prim s = false → ∃ t, exec i s = .next t ∧ t ≠ s)

/-! ## Control commands -/

/-- R82: NOP is the word 0 and changes nothing but ENG, locked or not; any other word with OPC 0x00 raises ILLEGAL_CMD
unless ERR already holds a code. -/
def Obligations.NopOnlyBecomesIdle : Prop :=
  encode .nop = 0x00000000#32 ∧
  (∀ s : State, s.eng = .pending → exec .nop s = .next { s with eng := .idle }) ∧
  (∀ s : State, s.eng = .pending → opcOf s.cmdLast = 0x00#8 → s.cmdLast ≠ 0 →
    engineTurn s = .next { s with eng := .idle, err := if s.err = .ok then .illegalCmd else s.err })

/-- R83, R140: CLEAR sets everything of R140's list and leaves ARG, CMD_LAST, CMD_ARG, NODE and CODE, locked or not. -/
def Obligations.ClearResetsTheCore : Prop :=
  encode .clear = 0x01000000#32 ∧
  ∀ s : State, s.eng = .pending → exec .clear s = .next
    { s with
      eos := false, phase := .empty, nrec := 0, total := 0, loaded := 0, rootIdx := 0, rootValid := false,
      acc := 0, accCnt := 0, sr := 0, srCnt := 0, inq := [], outq := [], err := .ok, ovr := false, inOvf := false,
      eng := .idle, result := 0, decRemain := 0, decCur := 0, nodeInfo0 := 0, nodeInfo1 := 0, nodeInfo2 := 0,
      codeInfo := 0, codeBits := Vector.replicate 8 0 }

/-- R84: ACK_ERR clears ERR and keeps all other state, locked or not. -/
def Obligations.AckErrRemovesTheLock : Prop :=
  encode .ackErr = 0x02000000#32 ∧
  ∀ s : State, s.eng = .pending → exec .ackErr s = .next { s with err := .ok, eng := .idle }

/-! ## The tree builder -/

/-- R101: a record is appended, unless its symbol is loaded already, its count would take TOTAL past 2^32 − 1, or the
phase does not admit it; the three errors change only ERR, the first one first. N is at most 256 in every state of a
run (R35). -/
def Obligations.LoadRecordAppendsOneRecord : Prop :=
  (∀ sym : Byte, encode (.loadRecord sym) = 0x10000000#32 ||| sym.setWidth 32) ∧
  ∀ (sym : Byte) (s : State), s.eng = .pending → s.err = .ok → s.nrec.toNat ≤ 256 →
    (s.phase = .built ∨ s.phase = .coded →
      exec (.loadRecord sym) s = .next { s with err := .badPhase, eng := .idle }) ∧
    (s.phase = .empty ∨ s.phase = .loaded →
      (s.loaded.getLsbD sym.toNat = true →
        exec (.loadRecord sym) s = .next { s with err := .dupSymbol, eng := .idle }) ∧
      (s.loaded.getLsbD sym.toNat = false → s.total.toNat + s.cmdArg.toNat > 2 ^ 32 - 1 →
        exec (.loadRecord sym) s = .next { s with err := .countOverflow, eng := .idle }) ∧
      (s.loaded.getLsbD sym.toNat = false → s.total.toNat + s.cmdArg.toNat ≤ 2 ^ 32 - 1 →
        ∃ t, exec (.loadRecord sym) s = .next t ∧
          t = { s with
            nodes := t.nodes, loaded := t.loaded, nrec := t.nrec, total := t.total,
            phase := .loaded, eng := .idle } ∧
          t.nrec.toNat = s.nrec.toNat + 1 ∧ t.total.toNat = s.total.toNat + s.cmdArg.toNat ∧
          readNode t.nodes s.nrec.toNat = ⟨.leaf, sym, s.cmdArg, 0, 0⟩ ∧
          (∀ j, j ≠ s.nrec.toNat → readNode t.nodes j = readNode s.nodes j) ∧
          (∀ c < 256, t.loaded.getLsbD c = (decide (c = sym.toNat) || s.loaded.getLsbD c))))

/-- R102: BUILD over N ≥ 1 records completes in its one step; the records stay as they are, the root is 2N − 2, and
nothing else changes but the entries from N up, PHASE and ENG. -/
def Obligations.BuildCompletesWithRootAtTwoNMinusTwo : Prop :=
  ∀ s : State, s.eng = .pending → s.err = .ok → s.phase = .loaded → 1 ≤ s.nrec.toNat → s.nrec.toNat ≤ 256 →
    ∃ t, exec .build s = .next t ∧
      t = { s with nodes := t.nodes, rootIdx := t.rootIdx, rootValid := true, phase := .built, eng := .idle } ∧
      t.rootIdx.toNat = 2 * s.nrec.toNat - 2 ∧
      ∀ j, j < s.nrec.toNat ∨ 2 * s.nrec.toNat - 1 ≤ j → readNode t.nodes j = readNode s.nodes j

/-- R39, R36: BUILD leaves a tree over the records in which every internal count is its children's sum, and the root's
count is TOTAL. -/
def Obligations.BuildMakesATreeOverTheRecords : Prop :=
  ∀ s t : State, RecordOk s → s.eng = .pending → s.err = .ok → s.phase = .loaded → exec .build s = .next t →
    TreeShape t.nodes s.nrec.toNat t.rootIdx ∧ LeafShape t.nodes s.nrec.toNat ∧
    (readNode t.nodes t.rootIdx.toNat).count = s.total

/-- R11, R103: the element taken from the heap is the one with the least key (COUNT, index), lexicographic, and it is the
only such element. -/
def Obligations.ExtractMinTakesTheLeastKey : Prop :=
  ∀ (nodes : Vector Node 511) (heap : List Nat), heap ≠ [] → heap.Nodup →
    ∃ m rest, extractMin nodes heap = some (m, rest) ∧ m ∈ heap ∧ heap.Perm (m :: rest) ∧
      (∀ j ∈ heap, j ≠ m →
        (readNode nodes m).count.toNat < (readNode nodes j).count.toNat ∨
        ((readNode nodes m).count = (readNode nodes j).count ∧ m < j)) ∧
      ∀ m' ∈ heap, (∀ j ∈ heap, j ≠ m' →
        (readNode nodes m').count.toNat < (readNode nodes j).count.toNat ∨
        ((readNode nodes m').count = (readNode nodes j).count ∧ m' < j)) → m' = m

/-- R102, R103: each internal node i of the tree BUILD makes has two different children among the nodes not yet merged when
i is created: as LEFT the one of least key (COUNT, index), and as RIGHT the least among the others. -/
def Obligations.BuildMergesTheTwoLeastKeys : Prop :=
  ∀ s t : State, RecordOk s → s.eng = .pending → s.err = .ok → s.phase = .loaded → exec .build s = .next t →
    ∀ i, s.nrec.toNat ≤ i → i ≤ 2 * s.nrec.toNat - 2 →
      ((readNode t.nodes i).left.toNat < i ∧ (readNode t.nodes i).right.toNat < i ∧
        (readNode t.nodes i).left ≠ (readNode t.nodes i).right ∧
        ∀ k, s.nrec.toNat ≤ k → k < i →
          (readNode t.nodes k).left ≠ (readNode t.nodes i).left ∧
          (readNode t.nodes k).right ≠ (readNode t.nodes i).left ∧
          (readNode t.nodes k).left ≠ (readNode t.nodes i).right ∧
          (readNode t.nodes k).right ≠ (readNode t.nodes i).right) ∧
      ∀ j < i, (∀ k, s.nrec.toNat ≤ k → k < i →
          (readNode t.nodes k).left.toNat ≠ j ∧ (readNode t.nodes k).right.toNat ≠ j) →
        (j ≠ (readNode t.nodes i).left.toNat →
          keyBefore t.nodes (readNode t.nodes i).left.toNat j = true) ∧
        (j ≠ (readNode t.nodes i).left.toNat → j ≠ (readNode t.nodes i).right.toNat →
          keyBefore t.nodes (readNode t.nodes i).right.toNat j = true)

/-- R104: BUILD is a function of the record sequence alone, and so is the code table GEN_CODES then makes. -/
def Obligations.BuildDependsOnTheRecordsAlone : Prop :=
  ∀ s s' t t' : State, RecordOk s → RecordOk s' →
    s.eng = .pending → s'.eng = .pending → s.err = .ok → s'.err = .ok → s.phase = .loaded → s'.phase = .loaded →
    s.nrec = s'.nrec → (∀ i < s.nrec.toNat, readNode s.nodes i = readNode s'.nodes i) →
    exec .build s = .next t → exec .build s' = .next t' →
    t.rootIdx = t'.rootIdx ∧ (∀ i < 2 * s.nrec.toNat - 1, readNode t.nodes i = readNode t'.nodes i) ∧
    codesOf t.nodes t.rootIdx = codesOf t'.nodes t'.rootIdx

/-- R106: QUERY_NODE copies an entry at or below ROOT_IDX into NODE_INFO0 to 2, zeroes them for any other index, and
changes nothing else; out of phase it raises BAD_PHASE. -/
def Obligations.QueryNodeCopiesOneEntry : Prop :=
  (∀ idx : Index, encode (.queryNode idx) = 0x13000000#32 ||| idx.setWidth 32) ∧
  ∀ (idx : Index) (s : State), s.eng = .pending → s.err = .ok →
    (s.phase = .empty ∨ s.phase = .loaded →
      exec (.queryNode idx) s = .next { s with err := .badPhase, eng := .idle }) ∧
    (s.phase = .built ∨ s.phase = .coded →
      (idx ≤ s.rootIdx → exec (.queryNode idx) s = .next
        { s with
          nodeInfo0 := (1#32 <<< 31) ||| ((s.node idx).sym.setWidth 32 <<< 8) |||
            (match (s.node idx).kind with | .leaf => 0#32 | .internal => 1#32),
          nodeInfo1 := (s.node idx).count,
          nodeInfo2 := ((s.node idx).right.setWidth 32 <<< 16) ||| (s.node idx).left.setWidth 32,
          eng := .idle }) ∧
      (¬ idx ≤ s.rootIdx → exec (.queryNode idx) s = .next
        { s with nodeInfo0 := 0, nodeInfo1 := 0, nodeInfo2 := 0, eng := .idle }))

/-! ## The code table -/

/-- R107, R108: GEN_CODES completes in its one step and changes only CODE, PHASE and ENG. In a built tree, exactly the
loaded symbols get a code; a code is the path from the root to its symbol's Leaf, 0 for LEFT and 1 for RIGHT; a symbol
without a record has VALID = 0 and no bits. -/
def Obligations.GenCodesRecordsThePathOfEachLeaf : Prop :=
  ∀ s : State, s.eng = .pending → s.err = .ok → (s.phase = .built ∨ s.phase = .coded) →
    ∃ t, exec .genCodes s = .next t ∧ t = { s with codes := t.codes, phase := .coded, eng := .idle } ∧
      (RecordOk s → TreeOk s →
        (∀ sym, (t.code sym).valid = s.loaded.getLsbD sym.toNat) ∧
        (∀ sym, (t.code sym).valid = false → (t.code sym).bits = []) ∧
        (∀ sym, (t.code sym).valid = true →
          (t.node (follow t.nodes t.rootIdx (t.code sym).bits)).kind = .leaf ∧
          (t.node (follow t.nodes t.rootIdx (t.code sym).bits)).sym = sym))

/-- R109: after GEN_CODES exactly the loaded symbols have codes; with n ≥ 2 leaves every code has 1 to n − 1 bits, at most
255, and no code is a prefix of another; with one leaf its code has no bits. -/
def Obligations.GeneratedCodesArePrefixFree : Prop :=
  ∀ s t : State, RecordOk s → TreeOk s → s.eng = .pending → s.err = .ok → (s.phase = .built ∨ s.phase = .coded) →
    exec .genCodes s = .next t →
    (∀ sym, (t.code sym).valid = true ↔ ∃ i < s.nrec.toNat, (readNode s.nodes i).sym = sym) ∧
    (2 ≤ s.nrec.toNat →
      (∀ sym, (t.code sym).valid = true →
        1 ≤ (t.code sym).bits.length ∧ (t.code sym).bits.length ≤ s.nrec.toNat - 1 ∧ s.nrec.toNat - 1 ≤ 255) ∧
      (∀ a b, a ≠ b → (t.code a).valid = true → (t.code b).valid = true →
        ¬ (t.code a).bits <+: (t.code b).bits)) ∧
    (s.nrec.toNat = 1 → ∀ sym, (t.code sym).valid = true → (t.code sym).bits.length = 0)

/-- R110, R32: QUERY_CODE copies one entry into CODE_INFO and CODE_BITS0 to 7: bit j of the code at register j div 32, bit
31 − (j mod 32), every position at or beyond LEN 0; out of phase it raises BAD_PHASE. A code of a run has at most 255
bits (R109). -/
def Obligations.QueryCodeCopiesOneEntry : Prop :=
  (∀ sym : Byte, encode (.queryCode sym) = 0x14000000#32 ||| sym.setWidth 32) ∧
  ∀ (sym : Byte) (s : State), s.eng = .pending → s.err = .ok →
    (s.phase ≠ .coded → exec (.queryCode sym) s = .next { s with err := .badPhase, eng := .idle }) ∧
    (s.phase = .coded → (s.code sym).bits.length ≤ 255 →
      ∃ t, exec (.queryCode sym) s = .next t ∧
        t = { s with codeInfo := t.codeInfo, codeBits := t.codeBits, eng := .idle } ∧
        t.codeInfo = (bitVal 32 (s.code sym).valid <<< 31) ||| (sym.setWidth 32 <<< 8) |||
          BitVec.ofNat 32 (s.code sym).bits.length ∧
        (∀ (k : Fin 8) (m : Fin 32), (t.codeBits[k]).getLsbD (31 - m.val) =
          ((s.code sym).bits[32 * k.val + m.val]?).getD false))

/-! ## The bit stream -/

/-- R57, R58, R90, R92: WriteBit appends exactly its bit to the output stream, most significant bit of a byte first, and
ReadBit takes exactly the first bit of the input stream; both keep the invariants of R42 and R43 and touch nothing
else. -/
def Obligations.WriteBitAppendsAndReadBitTakesOneBit : Prop :=
  (∀ (b : Bool) (s t : State), WriterOk s → writeBit b s = .done t →
    outStream t = outStream s ++ [b] ∧ WriterOk t ∧
    t = { s with acc := t.acc, accCnt := t.accCnt, outq := t.outq }) ∧
  (∀ (b : Bool) (s t : State), ReaderOk s → readBit s = .bit b t →
    inStream s = b :: inStream t ∧ ReaderOk t ∧ t = { s with sr := t.sr, srCnt := t.srCnt, inq := t.inq }) ∧
  (∀ s : State, ReaderOk s → (readBit s = .eof ↔ inStream s = [] ∧ s.eos = true))

/-- R96: WRITE_BITS with NB = nb begins at WriteBit(V[nb − 1]); at WriteBit(V[0]) it completes; and, when the output
FIFO has room for the bytes it completes, its 1 + nb engine steps append the nb low bits of V, most significant first,
push floor((a + nb) / 8) bytes and leave ACC_CNT = (a + nb) mod 8, changing nothing else. -/
def Obligations.WriteBitsWritesItsBitsMsbFirst : Prop :=
  ∀ (nb : BitVec 5) (v : BitVec 16) (s : State), (Instr.writeBits nb v).wf = true → WriterOk s →
    (Begins (.writeBits nb v) s →
      exec (.writeBits nb v) s = .next { s with eng := .running (.writeBits (nb.toNat - 1)) }) ∧
    (s.eng = .running (.writeBits 0) → s.accCnt.toNat < 7 → ∃ t, exec (.writeBits nb v) s = .next t ∧
      t = { s with acc := t.acc, accCnt := s.accCnt + 1, eng := .idle } ∧
      outStream t = outStream s ++ [v.getLsbD 0]) ∧
    (s.eng = .running (.writeBits 0) → s.accCnt.toNat = 7 → s.outq.length < s.cfg.outDepth →
      ∃ t, exec (.writeBits nb v) s = .next t ∧
        t = { s with acc := 0, accCnt := 0, outq := t.outq, eng := .idle } ∧
        outStream t = outStream s ++ [v.getLsbD 0]) ∧
    (Begins (.writeBits nb v) s → s.outq.length + (s.accCnt.toNat + nb.toNat) / 8 ≤ s.cfg.outDepth →
      ∃ t, execTimes (1 + nb.toNat) (.writeBits nb v) s = .next t ∧
        t = { s with acc := t.acc, accCnt := t.accCnt, outq := t.outq, eng := .idle } ∧
        outStream t = outStream s ++ msbBits nb.toNat v ∧
        t.accCnt.toNat = (s.accCnt.toNat + nb.toNat) % 8 ∧
        t.outq.length = s.outq.length + (s.accCnt.toNat + nb.toNat) / 8)

/-- R97, R91: FLUSH takes its second step at Flush(): with nothing buffered it emits nothing, on a full FIFO it holds,
else it pushes ACC, whose unfilled bits are 0, and empties the writer. That the held turn is a step which changes
nothing is the model's choice (log 2). -/
def Obligations.FlushPadsTheLastByteWithZeros : Prop :=
  encode .flush = 0x21000000#32 ∧
  ∀ s : State,
    (Begins .flush s → exec .flush s = .next { s with eng := .running .flush }) ∧
    (s.eng = .running .flush → s.accCnt = 0 → exec .flush s = .next { s with eng := .idle }) ∧
    (s.eng = .running .flush → s.accCnt ≠ 0 → s.outq.length = s.cfg.outDepth → exec .flush s = .next s) ∧
    (s.eng = .running .flush → s.accCnt ≠ 0 → s.outq.length ≠ s.cfg.outDepth →
      exec .flush s = .next { s with outq := s.outq ++ [s.acc], acc := 0, accCnt := 0, eng := .idle } ∧
      (WriterOk s → (s.outq ++ [s.acc]).flatMap byteBits =
        outStream s ++ List.replicate (8 - s.accCnt.toNat) false))

/-- R98, R92: READ_BIT takes its second step at ReadBit(): RESULT is the next bit, refilled from the FIFO if SR is empty,
or 2 at EOF with no other state changed; it holds on an empty FIFO without EOS, and that the held turn is a step which
changes nothing is the model's choice (log 2). -/
def Obligations.ReadBitReturnsTheNextBitOrTwo : Prop :=
  encode .readBit = 0x22000000#32 ∧
  ∀ s : State,
    (Begins .readBit s → exec .readBit s = .next { s with eng := .running .readBit }) ∧
    (s.eng = .running .readBit → s.srCnt ≠ 0 → exec .readBit s = .next
      { s with result := if s.sr.getLsbD 7 then 1 else 0, sr := s.sr <<< 1, srCnt := s.srCnt - 1, eng := .idle }) ∧
    (∀ v rest, s.eng = .running .readBit → s.srCnt = 0 → s.inq = v :: rest → exec .readBit s = .next
      { s with result := if v.getLsbD 7 then 1 else 0, sr := v <<< 1, srCnt := 7, inq := rest, eng := .idle }) ∧
    (s.eng = .running .readBit → s.srCnt = 0 → s.inq = [] → s.eos = true →
      exec .readBit s = .next { s with result := 2, eng := .idle }) ∧
    (s.eng = .running .readBit → s.srCnt = 0 → s.inq = [] → s.eos = false → exec .readBit s = .next s)

/-- R99: SKIP_BITS 0 completes at once; else it begins at its first ReadBit. With enough bits, its 1 + n engine steps drop
exactly n bits; with fewer and EOS set it drops them all, stops, and RESULT says how many; nothing else changes. -/
def Obligations.SkipBitsDropsItsBits : Prop :=
  ∀ (n : BitVec 24) (s : State), ReaderOk s → Begins (.skipBits n) s →
    (n = 0 → exec (.skipBits n) s = .next { s with result := 0, eng := .idle }) ∧
    (n ≠ 0 → exec (.skipBits n) s = .next { s with eng := .running (.skipBits 0) }) ∧
    (n.toNat ≤ (inStream s).length → ∃ t, execTimes (1 + n.toNat) (.skipBits n) s = .next t ∧
      t = { s with sr := t.sr, srCnt := t.srCnt, inq := t.inq, result := BitVec.ofNat 32 n.toNat, eng := .idle } ∧
      inStream t = (inStream s).drop n.toNat) ∧
    ((inStream s).length < n.toNat → s.eos = true →
      ∃ t, execTimes (2 + (inStream s).length) (.skipBits n) s = .next t ∧
        t = { s with
          sr := t.sr, srCnt := t.srCnt, inq := t.inq,
          result := BitVec.ofNat 32 (inStream s).length, eng := .idle } ∧
        inStream t = [])

/-- SKIP_BITS at one of its calls (R99), with unread bits in SR or with SR refilled from the FIFO: every bit but the last is
skipped and the next awaited, the last one completes, and so does EOF, with RESULT the number skipped. It holds on an
empty FIFO without EOS, and that the held turn is a step which changes nothing is the model's choice (log 2). -/
def Obligations.SkipBitsCountsEachBit : Prop :=
  ∀ (n : BitVec 24) (k : Nat) (s : State), s.eng = .running (.skipBits k) → k < n.toNat →
    (s.srCnt ≠ 0 → k + 1 < n.toNat → exec (.skipBits n) s = .next
      { s with sr := s.sr <<< 1, srCnt := s.srCnt - 1, eng := .running (.skipBits (k + 1)) }) ∧
    (s.srCnt ≠ 0 → k + 1 = n.toNat → exec (.skipBits n) s = .next
      { s with sr := s.sr <<< 1, srCnt := s.srCnt - 1, result := n.setWidth 32, eng := .idle }) ∧
    (∀ v rest, s.srCnt = 0 → s.inq = v :: rest → k + 1 < n.toNat → exec (.skipBits n) s = .next
      { s with sr := v <<< 1, srCnt := 7, inq := rest, eng := .running (.skipBits (k + 1)) }) ∧
    (∀ v rest, s.srCnt = 0 → s.inq = v :: rest → k + 1 = n.toNat → exec (.skipBits n) s = .next
      { s with sr := v <<< 1, srCnt := 7, inq := rest, result := n.setWidth 32, eng := .idle }) ∧
    (s.srCnt = 0 → s.inq = [] → s.eos = true →
      exec (.skipBits n) s = .next { s with result := BitVec.ofNat 32 k, eng := .idle }) ∧
    (s.srCnt = 0 → s.inq = [] → s.eos = false → exec (.skipBits n) s = .next s)

/-- R100: ALIGN_READ discards the unread bits of the current byte and touches no FIFO. -/
def Obligations.AlignReadEmptiesTheShiftRegister : Prop :=
  encode .alignRead = 0x24000000#32 ∧
  ∀ s : State, Begins .alignRead s → exec .alignRead s = .next { s with sr := 0, srCnt := 0, eng := .idle }

/-! ## Encode and decode -/

/-- R111: ENCODE_SYM of a symbol without a code raises CODE_MISS and writes no bit; with an empty code it completes at
once; else it begins at its first bit, and, when the output FIFO has room for the bytes it completes, its 1 + LEN engine
steps append exactly the code, first bit first, changing nothing else. -/
def Obligations.EncodeSymWritesTheCode : Prop :=
  ∀ (sym : Byte) (s : State), WriterOk s →
    (Begins (.encodeSym sym) s → (s.code sym).valid = false →
      exec (.encodeSym sym) s = .next { s with err := .codeMiss, eng := .idle }) ∧
    (Begins (.encodeSym sym) s → (s.code sym).valid = true → (s.code sym).bits = [] →
      exec (.encodeSym sym) s = .next { s with eng := .idle }) ∧
    (Begins (.encodeSym sym) s → (s.code sym).valid = true → (s.code sym).bits ≠ [] →
      exec (.encodeSym sym) s = .next { s with eng := .running (.encodeSym 0) }) ∧
    (∀ j b, s.eng = .running (.encodeSym j) → (s.code sym).bits[j]? = some b →
      j + 1 = (s.code sym).bits.length → s.accCnt.toNat < 7 →
      ∃ t, exec (.encodeSym sym) s = .next t ∧
        t = { s with acc := t.acc, accCnt := s.accCnt + 1, eng := .idle } ∧ outStream t = outStream s ++ [b]) ∧
    (Begins (.encodeSym sym) s → (s.code sym).valid = true →
      s.outq.length + (s.accCnt.toNat + (s.code sym).bits.length) / 8 ≤ s.cfg.outDepth →
      ∃ t, execTimes (1 + (s.code sym).bits.length) (.encodeSym sym) s = .next t ∧
        t = { s with acc := t.acc, accCnt := t.accCnt, outq := t.outq, eng := .idle } ∧
        outStream t = outStream s ++ (s.code sym).bits)

/-- R112, call by call: ENCODE_STREAM begins at PopByte; it completes at END with RESULT the number of bytes encoded; a
byte without a code is consumed and raises CODE_MISS; a byte with an empty code is counted at once; any other is written
from its first bit; a WriteBit appends bit j of the code, and the last bit counts the byte and leads to the next PopByte.
It holds at PopByte on an empty FIFO without EOS and at a WriteBit that would complete a byte into a full FIFO, and that
a held turn is a step which changes nothing is the model's choice (log 2). -/
def Obligations.EncodeStreamPopsBytesUntilEnd : Prop :=
  ∀ s : State,
    (Begins .encodeStream s → exec .encodeStream s = .next { s with eng := .running (.streamPop 0) }) ∧
    (∀ cnt, s.eng = .running (.streamPop cnt) →
      (s.inq = [] → s.eos = false → exec .encodeStream s = .next s) ∧
      (s.inq = [] → s.eos = true → exec .encodeStream s = .next { s with result := cnt, eng := .idle }) ∧
      (∀ v rest, s.inq = v :: rest →
        ((s.code v).valid = false → s.err = .ok →
          exec .encodeStream s = .next { s with inq := rest, err := .codeMiss, eng := .idle }) ∧
        ((s.code v).valid = true → (s.code v).bits = [] →
          exec .encodeStream s = .next { s with inq := rest, eng := .running (.streamPop (cnt + 1)) }) ∧
        ((s.code v).valid = true → (s.code v).bits ≠ [] →
          exec .encodeStream s = .next { s with inq := rest, eng := .running (.streamWrite cnt v 0) }))) ∧
    (∀ cnt v j b, s.eng = .running (.streamWrite cnt v j) → (s.code v).bits[j]? = some b →
      (s.accCnt.toNat < 7 → ∃ t, exec .encodeStream s = .next t ∧
        t = { s with
          acc := t.acc, accCnt := s.accCnt + 1,
          eng := .running
            (if j + 1 < (s.code v).bits.length then .streamWrite cnt v (j + 1) else .streamPop (cnt + 1)) } ∧
        outStream t = outStream s ++ [b]) ∧
      (s.accCnt.toNat = 7 → s.outq.length ≠ s.cfg.outDepth → ∃ t, exec .encodeStream s = .next t ∧
        t = { s with
          acc := 0, accCnt := 0, outq := t.outq,
          eng := .running
            (if j + 1 < (s.code v).bits.length then .streamWrite cnt v (j + 1) else .streamPop (cnt + 1)) } ∧
        outStream t = outStream s ++ [b]) ∧
      (s.accCnt.toNat = 7 → s.outq.length = s.cfg.outDepth → exec .encodeStream s = .next s))

/-- R112: with EOS set, a code for every byte of the input FIFO and room in the output FIFO, ENCODE_STREAM appends the
codes of the bytes in order, consumes them all, does not flush, and RESULT is their number. -/
def Obligations.EncodeStreamWritesTheCodesInOrder : Prop :=
  ∀ s : State, WriterOk s → Begins .encodeStream s → s.eos = true → (∀ v ∈ s.inq, (s.code v).valid = true) →
    s.outq.length + (s.accCnt.toNat + (s.inq.flatMap fun v => (s.code v).bits).length) / 8 ≤ s.cfg.outDepth →
    ∃ t, execTimes (2 + s.inq.length + (s.inq.flatMap fun v => (s.code v).bits).length) .encodeStream s = .next t ∧
      t = { s with
        acc := t.acc, accCnt := t.accCnt, outq := t.outq, inq := [],
        result := BitVec.ofNat 32 s.inq.length, eng := .idle } ∧
      outStream t = outStream s ++ s.inq.flatMap fun v => (s.code v).bits

/-- R113, call by call: where DECODE begins, what one bit does (LEFT on 0, RIGHT on 1, an Emit at a Leaf), what an Emit
does, that EOF with symbols due raises TRUNCATED, and that it completes with RESULT = e when no symbol is due. -/
def Obligations.DecodeWalksTheTreeBitByBit : Prop :=
  ∀ s : State,
    (Begins .decode s → (s.node s.rootIdx).count = 0 → exec .decode s = .next
      { s with decRemain := 0, decCur := s.rootIdx, result := 0, eng := .idle }) ∧
    (Begins .decode s → (s.node s.rootIdx).count ≠ 0 → exec .decode s = .next
      { s with
        decRemain := (s.node s.rootIdx).count, decCur := s.rootIdx,
        eng := .running (if (s.node s.rootIdx).kind = .leaf then .decodeEmitRoot 0 else .decodeRead 0) }) ∧
    (∀ e b t, s.eng = .running (.decodeRead e) → s.decRemain ≠ 0 → readBit s = .bit b t →
      exec .decode s = .next
        { t with
          decCur := if b then (s.node s.decCur).right else (s.node s.decCur).left,
          eng := .running
            (if (s.node (if b then (s.node s.decCur).right else (s.node s.decCur).left)).kind = .leaf
              then .decodeEmit e else .decodeRead e) }) ∧
    (∀ e, s.eng = .running (.decodeRead e) → s.err = .ok → readBit s = .eof →
      exec .decode s = .next { s with err := .truncated, eng := .idle }) ∧
    (∀ e, s.eng = .running (.decodeEmit e) → s.outq.length ≠ s.cfg.outDepth →
      exec .decode s = .next
        { s with
          outq := s.outq ++ [(s.node s.decCur).sym], decRemain := s.decRemain - 1, decCur := s.rootIdx,
          result := if s.decRemain = 1 then e + 1 else s.result,
          eng := if s.decRemain = 1 then .idle else .running (.decodeRead (e + 1)) }) ∧
    (∀ e, s.eng = .running (.decodeEmitRoot e) → s.outq.length ≠ s.cfg.outDepth →
      exec .decode s = .next
        { s with
          outq := s.outq ++ [(s.node s.rootIdx).sym], decRemain := s.decRemain - 1,
          result := if s.decRemain = 1 then e + 1 else s.result,
          eng := if s.decRemain = 1 then .idle else .running (.decodeEmitRoot (e + 1)) })

/-- R114: in a built block, DECODE of an input stream that starts with the codes the tree gives TOTAL symbols emits exactly
those symbols in order, leaves the rest of the stream unread, and completes with RESULT = TOTAL, when the output FIFO
has room for them. It needs no code table. -/
def Obligations.DecodeInvertsTheCodes : Prop :=
  ∀ (s : State) (xs : List Byte) (pad : List Bool), Inv s → Begins .decode s →
    (∀ v ∈ xs, (s.treeCode v).valid = true) → xs.length = s.total.toNat →
    inStream s = (xs.flatMap fun v => (s.treeCode v).bits) ++ pad →
    s.outq.length + xs.length ≤ s.cfg.outDepth →
    ∃ t, execTimes (1 + (xs.flatMap fun v => (s.treeCode v).bits).length + xs.length) .decode s = .next t ∧
      t = { s with
        sr := t.sr, srCnt := t.srCnt, inq := t.inq, outq := s.outq ++ xs,
        decRemain := 0, decCur := s.rootIdx, result := s.total, eng := .idle } ∧
      inStream t = pad

/-- R115: what ENCODE_STREAM and then FLUSH make of the bytes xs in one session, DECODE in another session with the same tree
gives back, in order, and leaves at most 7 unread bits. The bytes and their code fit the FIFOs, so neither session waits
for its host; that the same records make the same tree is R104. -/
def Obligations.EncodeThenDecodeGivesBackTheBytes : Prop :=
  ∀ (s u w s' : State), Inv s → Inv s' →
    Begins .encodeStream s → s.eos = true → s.outq = [] → s.accCnt = 0 →
    (∀ v ∈ s.inq, (s.code v).valid = true) →
    (s.inq.flatMap fun v => (s.code v).bits).length + 7 ≤ 8 * s.cfg.outDepth →
    execTimes (2 + s.inq.length + (s.inq.flatMap fun v => (s.code v).bits).length) .encodeStream s = .next u →
    execTimes 2 .flush (hostWrite .cmd (encode .flush) u) = .next w →
    Begins .decode s' → s'.nrec = s.nrec → s'.rootIdx = s.rootIdx →
    (∀ i < 2 * s.nrec.toNat - 1, readNode s'.nodes i = readNode s.nodes i) →
    s'.total.toNat = s.inq.length → s'.srCnt = 0 → s'.inq = w.outq → s'.outq = [] →
    s.inq.length ≤ s'.cfg.outDepth →
    ∃ t, execTimes (1 + (s.inq.flatMap fun v => (s.code v).bits).length + s.inq.length) .decode s' = .next t ∧
      t.outq = s.inq ∧ t.eng = .idle ∧ t.err = .ok ∧ (inStream t).length ≤ 7

/-! ## Invariants -/

/-- Every invariant holds after power-on reset, for every admitted depth. -/
def Obligations.ResetMeetsEveryInvariant : Prop :=
  ∀ c : Config, c.Admitted → Inv (State.resetWith c)

/-- R42 to R45: every step of a run keeps the FIFOs within their depths and the unfilled bits of ACC and SR at 0. -/
def Obligations.StepKeepsBuffersInBounds : Prop :=
  ∀ s t : State, BufferOk s → step s = .next t → BufferOk t

/-- R47, R79 to R81: a running command is always the one latched, at one of its own calls, in a phase that admits it and
with no error; so no step of a host that keeps to R55 ever stops the machine, and every step keeps this. The
model's choices in it: a held turn and an idle turn are steps which change nothing, where R80 and R89 have none (log 2),
and with no turn listed the engine moves (log 1). -/
def Obligations.StepNeverStopsAndKeepsTheEngineInPlace : Prop :=
  ∀ s : State, engineOk s = true → nextTurnAdmitted s = true → ∃ t, step s = .next t ∧ engineOk t = true

/-- R34 to R43, R49, all together: every step keeps them, the arena a tree over the records while PHASE is BUILT or CODED
(R39) and the code table that tree's while PHASE is CODED. -/
def Obligations.StepKeepsEveryInvariant : Prop :=
  ∀ s t : State, Inv s → step s = .next t → Inv t

/-- R132, R46: ERR, once set, keeps its code until it returns to 0, and it returns to 0 only through ACK_ERR, CLEAR, SRST
or power-on reset. -/
def Obligations.ErrorIsKeptUntilAcknowledgedOrReset : Prop :=
  ∀ s t : State, step s = .next t → s.err ≠ .ok →
    t.err = s.err ∨
    (t.err = .ok ∧
      ((engineMoves s ∧ s.eng ≠ .idle ∧ (decode s.cmdLast = .ok .ackErr ∨ decode s.cmdLast = .ok .clear)) ∨
       (∃ v, hostWrites .ctrl v s ∧ v.getLsbD 0 = true) ∨
       ∃ rest, s.turns = .powerOn :: rest))

/-- R34: which events change PHASE, and from where: LOAD_RECORD to LOADED, BUILD from LOADED to BUILT, GEN_CODES from BUILT
to CODED, and back to EMPTY only CLEAR and the resets. -/
def Obligations.PhaseChangesOnlyAlongThePipeline : Prop :=
  ∀ s t : State, step s = .next t → t.phase ≠ s.phase →
    (engineMoves s ∧ s.phase = .empty ∧ t.phase = .loaded ∧ ∃ sym, decode s.cmdLast = .ok (.loadRecord sym)) ∨
    (engineMoves s ∧ s.phase = .loaded ∧ t.phase = .built ∧ decode s.cmdLast = .ok .build) ∨
    (engineMoves s ∧ s.phase = .built ∧ t.phase = .coded ∧ decode s.cmdLast = .ok .genCodes) ∨
    (t.phase = .empty ∧
      ((engineMoves s ∧ decode s.cmdLast = .ok .clear) ∨ (∃ v, hostWrites .ctrl v s ∧ v.getLsbD 0 = true) ∨
       ∃ rest, s.turns = .powerOn :: rest))

/-- R21: a command other than CLEAR writes RESULT only as it completes without error, and only READ_BIT, SKIP_BITS,
ENCODE_STREAM and DECODE do. -/
def Obligations.ResultIsWrittenOnlyOnCompletion : Prop :=
  ∀ (i : Instr) (s t : State), exec i s = .next t → t.result ≠ s.result → i ≠ .clear →
    (i = .readBit ∨ (∃ n, i = .skipBits n) ∨ i = .encodeStream ∨ i = .decode) ∧ t.eng = .idle ∧ t.err = s.err

/-- R38, R41: the arena entries not yet written and, outside CODED, the code table are unobservable: two states that
differ in nothing else stay so, register reads included. So the values log 4 names for them play no part. -/
def Obligations.UnwrittenStorageIsUnobservable : Prop :=
  ∀ s s' t : State, Inv s → SameVisible s s' → step s = .next t →
    ∃ t', step s' = .next t' ∧ SameVisible t t'

/-! ## Frames: what the commands leave unchanged -/

/-- The commands that write no stream: each leaves the bit writer, both FIFOs, RESULT, the decoder's registers, EOS and
the sticky flags, what the host sees of other commands, and the latch as they were; NOP, ACK_ERR, QUERY_NODE, QUERY_CODE
and ALIGN_READ also the records, the tree and the code table; all but ALIGN_READ the bit reader. -/
def Obligations.TableAndControlCommandsFrame : Prop :=
  ∀ (sym : Byte) (idx : Index) (s t : State),
    (∀ i ∈ [Instr.nop, .ackErr, .loadRecord sym, .build, .genCodes, .queryNode idx, .queryCode sym, .alignRead],
      exec i s = .next t →
        t.cfg = s.cfg ∧ t.turns = s.turns ∧ t.reads = s.reads ∧ t.eos = s.eos ∧ t.acc = s.acc ∧
        t.accCnt = s.accCnt ∧ t.inq = s.inq ∧ t.outq = s.outq ∧ t.ovr = s.ovr ∧ t.inOvf = s.inOvf ∧
        t.cmdLast = s.cmdLast ∧ t.cmdArg = s.cmdArg ∧ t.arg = s.arg ∧ t.result = s.result ∧
        t.decRemain = s.decRemain ∧ t.decCur = s.decCur ∧
        (i ≠ .alignRead → t.sr = s.sr ∧ t.srCnt = s.srCnt) ∧
        (i ≠ .queryNode idx → t.nodeInfo0 = s.nodeInfo0 ∧ t.nodeInfo1 = s.nodeInfo1 ∧ t.nodeInfo2 = s.nodeInfo2) ∧
        (i ≠ .queryCode sym → t.codeInfo = s.codeInfo ∧ t.codeBits = s.codeBits) ∧
        (i ≠ .loadRecord sym → t.nrec = s.nrec ∧ t.total = s.total ∧ t.loaded = s.loaded) ∧
        (i ≠ .build → t.rootIdx = s.rootIdx ∧ t.rootValid = s.rootValid) ∧
        (i ≠ .loadRecord sym → i ≠ .build → t.nodes = s.nodes) ∧
        (i ≠ .genCodes → t.codes = s.codes) ∧
        (i ≠ .loadRecord sym → i ≠ .build → i ≠ .genCodes → t.phase = s.phase))

/-- The commands that write bits, WRITE_BITS, FLUSH, ENCODE_SYM and ENCODE_STREAM: of the whole state only ACC, ACC_CNT, the
output FIFO, ENG and ERR can change, and for ENCODE_STREAM also the input FIFO and RESULT; the output FIFO only grows at
its end. -/
def Obligations.WriterCommandsFrame : Prop :=
  ∀ (nb : BitVec 5) (v : BitVec 16) (sym : Byte) (s t : State),
    (∀ i ∈ [Instr.writeBits nb v, .flush, .encodeSym sym], exec i s = .next t →
      t = { s with acc := t.acc, accCnt := t.accCnt, outq := t.outq, eng := t.eng, err := t.err } ∧
      s.outq <+: t.outq) ∧
    (exec .encodeStream s = .next t →
      t = { s with
        acc := t.acc, accCnt := t.accCnt, outq := t.outq, inq := t.inq, result := t.result, eng := t.eng,
        err := t.err } ∧
      s.outq <+: t.outq ∧ t.inq <:+ s.inq)

/-- The commands that read bits, READ_BIT, SKIP_BITS and DECODE: of the whole state only SR, SR_CNT, the input FIFO, RESULT,
ENG and ERR can change, and for DECODE also the output FIFO, DEC_REMAIN and DEC_CUR; the bit writer is not touched
(R95). -/
def Obligations.ReaderCommandsFrame : Prop :=
  ∀ (n : BitVec 24) (s t : State),
    (∀ i ∈ [Instr.readBit, .skipBits n], exec i s = .next t →
      t = { s with sr := t.sr, srCnt := t.srCnt, inq := t.inq, result := t.result, eng := t.eng, err := t.err } ∧
      t.inq <:+ s.inq) ∧
    (exec .decode s = .next t →
      t = { s with
        sr := t.sr, srCnt := t.srCnt, inq := t.inq, outq := t.outq, decRemain := t.decRemain, decCur := t.decCur,
        result := t.result, eng := t.eng, err := t.err } ∧
      t.inq <:+ s.inq ∧ s.outq <+: t.outq)

/-! ## The host's contract -/

/-- R117: frequency analysis gives one record per distinct byte, with its number of occurrences, in first-seen order; the
empty input gives none. -/
def Obligations.AnalysisCountsInFirstSeenOrder : Prop :=
  ∀ x : List Byte,
    (∀ b, b ∈ (analyse x).map FreqRecord.sym ↔ b ∈ x) ∧
    (∀ r ∈ analyse x, r.count = x.count r.sym) ∧
    (analyse x).Pairwise (fun a b => x.idxOf a.sym < x.idxOf b.sym)

/-- R118 to R120: the header of any records with counts of 32 bits has the length R119 gives and parses back to them,
whatever payload follows, delimiter bytes as symbols included. -/
def Obligations.ParsingAWrittenHeaderGivesItsRecords : Prop :=
  ∀ (recs : List FreqRecord) (payload : List Byte), (∀ r ∈ recs, r.count ≤ 2 ^ 32 - 1) →
    parseHeader (headerBytes recs ++ payload) = some (recs, headerLength recs) ∧
    (headerBytes recs).length = headerLength recs
end

