-- ==== Sys2Proof/Laws/State.lean ====
section
/-! SUPPORT. The fields of State under each named update: one lemma per field and update. -/

namespace Sys2Proof.Machine

variable (s : State)

/-! ## `finish`: ENG <- IDLE -/

@[simp] theorem finish_cfg : (finish s).cfg = s.cfg := rfl
@[simp] theorem finish_turns : (finish s).turns = s.turns := rfl
@[simp] theorem finish_reads : (finish s).reads = s.reads := rfl
@[simp] theorem finish_eos : (finish s).eos = s.eos := rfl
@[simp] theorem finish_phase : (finish s).phase = s.phase := rfl
@[simp] theorem finish_nrec : (finish s).nrec = s.nrec := rfl
@[simp] theorem finish_total : (finish s).total = s.total := rfl
@[simp] theorem finish_loaded : (finish s).loaded = s.loaded := rfl
@[simp] theorem finish_nodes : (finish s).nodes = s.nodes := rfl
@[simp] theorem finish_rootIdx : (finish s).rootIdx = s.rootIdx := rfl
@[simp] theorem finish_rootValid : (finish s).rootValid = s.rootValid := rfl
@[simp] theorem finish_codes : (finish s).codes = s.codes := rfl
@[simp] theorem finish_acc : (finish s).acc = s.acc := rfl
@[simp] theorem finish_accCnt : (finish s).accCnt = s.accCnt := rfl
@[simp] theorem finish_sr : (finish s).sr = s.sr := rfl
@[simp] theorem finish_srCnt : (finish s).srCnt = s.srCnt := rfl
@[simp] theorem finish_inq : (finish s).inq = s.inq := rfl
@[simp] theorem finish_outq : (finish s).outq = s.outq := rfl
@[simp] theorem finish_err : (finish s).err = s.err := rfl
@[simp] theorem finish_ovr : (finish s).ovr = s.ovr := rfl
@[simp] theorem finish_inOvf : (finish s).inOvf = s.inOvf := rfl
@[simp] theorem finish_eng : (finish s).eng = .idle := rfl
@[simp] theorem finish_cmdLast : (finish s).cmdLast = s.cmdLast := rfl
@[simp] theorem finish_cmdArg : (finish s).cmdArg = s.cmdArg := rfl
@[simp] theorem finish_arg : (finish s).arg = s.arg := rfl
@[simp] theorem finish_result : (finish s).result = s.result := rfl
@[simp] theorem finish_decRemain : (finish s).decRemain = s.decRemain := rfl
@[simp] theorem finish_decCur : (finish s).decCur = s.decCur := rfl
@[simp] theorem finish_nodeInfo0 : (finish s).nodeInfo0 = s.nodeInfo0 := rfl
@[simp] theorem finish_nodeInfo1 : (finish s).nodeInfo1 = s.nodeInfo1 := rfl
@[simp] theorem finish_nodeInfo2 : (finish s).nodeInfo2 = s.nodeInfo2 := rfl
@[simp] theorem finish_codeInfo : (finish s).codeInfo = s.codeInfo := rfl
@[simp] theorem finish_codeBits : (finish s).codeBits = s.codeBits := rfl

/-! ## `goTo`: ENG <- RUNNING(op, loc) -/

@[simp] theorem goTo_cfg (loc : Loc) : (goTo loc s).cfg = s.cfg := rfl
@[simp] theorem goTo_turns (loc : Loc) : (goTo loc s).turns = s.turns := rfl
@[simp] theorem goTo_reads (loc : Loc) : (goTo loc s).reads = s.reads := rfl
@[simp] theorem goTo_eos (loc : Loc) : (goTo loc s).eos = s.eos := rfl
@[simp] theorem goTo_phase (loc : Loc) : (goTo loc s).phase = s.phase := rfl
@[simp] theorem goTo_nrec (loc : Loc) : (goTo loc s).nrec = s.nrec := rfl
@[simp] theorem goTo_total (loc : Loc) : (goTo loc s).total = s.total := rfl
@[simp] theorem goTo_loaded (loc : Loc) : (goTo loc s).loaded = s.loaded := rfl
@[simp] theorem goTo_nodes (loc : Loc) : (goTo loc s).nodes = s.nodes := rfl
@[simp] theorem goTo_rootIdx (loc : Loc) : (goTo loc s).rootIdx = s.rootIdx := rfl
@[simp] theorem goTo_rootValid (loc : Loc) : (goTo loc s).rootValid = s.rootValid := rfl
@[simp] theorem goTo_codes (loc : Loc) : (goTo loc s).codes = s.codes := rfl
@[simp] theorem goTo_acc (loc : Loc) : (goTo loc s).acc = s.acc := rfl
@[simp] theorem goTo_accCnt (loc : Loc) : (goTo loc s).accCnt = s.accCnt := rfl
@[simp] theorem goTo_sr (loc : Loc) : (goTo loc s).sr = s.sr := rfl
@[simp] theorem goTo_srCnt (loc : Loc) : (goTo loc s).srCnt = s.srCnt := rfl
@[simp] theorem goTo_inq (loc : Loc) : (goTo loc s).inq = s.inq := rfl
@[simp] theorem goTo_outq (loc : Loc) : (goTo loc s).outq = s.outq := rfl
@[simp] theorem goTo_err (loc : Loc) : (goTo loc s).err = s.err := rfl
@[simp] theorem goTo_ovr (loc : Loc) : (goTo loc s).ovr = s.ovr := rfl
@[simp] theorem goTo_inOvf (loc : Loc) : (goTo loc s).inOvf = s.inOvf := rfl
@[simp] theorem goTo_eng (loc : Loc) : (goTo loc s).eng = .running loc := rfl
@[simp] theorem goTo_cmdLast (loc : Loc) : (goTo loc s).cmdLast = s.cmdLast := rfl
@[simp] theorem goTo_cmdArg (loc : Loc) : (goTo loc s).cmdArg = s.cmdArg := rfl
@[simp] theorem goTo_arg (loc : Loc) : (goTo loc s).arg = s.arg := rfl
@[simp] theorem goTo_result (loc : Loc) : (goTo loc s).result = s.result := rfl
@[simp] theorem goTo_decRemain (loc : Loc) : (goTo loc s).decRemain = s.decRemain := rfl
@[simp] theorem goTo_decCur (loc : Loc) : (goTo loc s).decCur = s.decCur := rfl
@[simp] theorem goTo_nodeInfo0 (loc : Loc) : (goTo loc s).nodeInfo0 = s.nodeInfo0 := rfl
@[simp] theorem goTo_nodeInfo1 (loc : Loc) : (goTo loc s).nodeInfo1 = s.nodeInfo1 := rfl
@[simp] theorem goTo_nodeInfo2 (loc : Loc) : (goTo loc s).nodeInfo2 = s.nodeInfo2 := rfl
@[simp] theorem goTo_codeInfo (loc : Loc) : (goTo loc s).codeInfo = s.codeInfo := rfl
@[simp] theorem goTo_codeBits (loc : Loc) : (goTo loc s).codeBits = s.codeBits := rfl

/-! ## `complete`: RESULT <- r ; ENG <- IDLE -/

@[simp] theorem complete_cfg (r : Word) : (complete r s).cfg = s.cfg := rfl
@[simp] theorem complete_turns (r : Word) : (complete r s).turns = s.turns := rfl
@[simp] theorem complete_reads (r : Word) : (complete r s).reads = s.reads := rfl
@[simp] theorem complete_eos (r : Word) : (complete r s).eos = s.eos := rfl
@[simp] theorem complete_phase (r : Word) : (complete r s).phase = s.phase := rfl
@[simp] theorem complete_nrec (r : Word) : (complete r s).nrec = s.nrec := rfl
@[simp] theorem complete_total (r : Word) : (complete r s).total = s.total := rfl
@[simp] theorem complete_loaded (r : Word) : (complete r s).loaded = s.loaded := rfl
@[simp] theorem complete_nodes (r : Word) : (complete r s).nodes = s.nodes := rfl
@[simp] theorem complete_rootIdx (r : Word) : (complete r s).rootIdx = s.rootIdx := rfl
@[simp] theorem complete_rootValid (r : Word) : (complete r s).rootValid = s.rootValid := rfl
@[simp] theorem complete_codes (r : Word) : (complete r s).codes = s.codes := rfl
@[simp] theorem complete_acc (r : Word) : (complete r s).acc = s.acc := rfl
@[simp] theorem complete_accCnt (r : Word) : (complete r s).accCnt = s.accCnt := rfl
@[simp] theorem complete_sr (r : Word) : (complete r s).sr = s.sr := rfl
@[simp] theorem complete_srCnt (r : Word) : (complete r s).srCnt = s.srCnt := rfl
@[simp] theorem complete_inq (r : Word) : (complete r s).inq = s.inq := rfl
@[simp] theorem complete_outq (r : Word) : (complete r s).outq = s.outq := rfl
@[simp] theorem complete_err (r : Word) : (complete r s).err = s.err := rfl
@[simp] theorem complete_ovr (r : Word) : (complete r s).ovr = s.ovr := rfl
@[simp] theorem complete_inOvf (r : Word) : (complete r s).inOvf = s.inOvf := rfl
@[simp] theorem complete_eng (r : Word) : (complete r s).eng = .idle := rfl
@[simp] theorem complete_cmdLast (r : Word) : (complete r s).cmdLast = s.cmdLast := rfl
@[simp] theorem complete_cmdArg (r : Word) : (complete r s).cmdArg = s.cmdArg := rfl
@[simp] theorem complete_arg (r : Word) : (complete r s).arg = s.arg := rfl
@[simp] theorem complete_result (r : Word) : (complete r s).result = r := rfl
@[simp] theorem complete_decRemain (r : Word) : (complete r s).decRemain = s.decRemain := rfl
@[simp] theorem complete_decCur (r : Word) : (complete r s).decCur = s.decCur := rfl
@[simp] theorem complete_nodeInfo0 (r : Word) : (complete r s).nodeInfo0 = s.nodeInfo0 := rfl
@[simp] theorem complete_nodeInfo1 (r : Word) : (complete r s).nodeInfo1 = s.nodeInfo1 := rfl
@[simp] theorem complete_nodeInfo2 (r : Word) : (complete r s).nodeInfo2 = s.nodeInfo2 := rfl
@[simp] theorem complete_codeInfo (r : Word) : (complete r s).codeInfo = s.codeInfo := rfl
@[simp] theorem complete_codeBits (r : Word) : (complete r s).codeBits = s.codeBits := rfl

/-! ## `acknowledge`: ERR <- 0 -/

@[simp] theorem acknowledge_cfg : (acknowledge s).cfg = s.cfg := rfl
@[simp] theorem acknowledge_turns : (acknowledge s).turns = s.turns := rfl
@[simp] theorem acknowledge_reads : (acknowledge s).reads = s.reads := rfl
@[simp] theorem acknowledge_eos : (acknowledge s).eos = s.eos := rfl
@[simp] theorem acknowledge_phase : (acknowledge s).phase = s.phase := rfl
@[simp] theorem acknowledge_nrec : (acknowledge s).nrec = s.nrec := rfl
@[simp] theorem acknowledge_total : (acknowledge s).total = s.total := rfl
@[simp] theorem acknowledge_loaded : (acknowledge s).loaded = s.loaded := rfl
@[simp] theorem acknowledge_nodes : (acknowledge s).nodes = s.nodes := rfl
@[simp] theorem acknowledge_rootIdx : (acknowledge s).rootIdx = s.rootIdx := rfl
@[simp] theorem acknowledge_rootValid : (acknowledge s).rootValid = s.rootValid := rfl
@[simp] theorem acknowledge_codes : (acknowledge s).codes = s.codes := rfl
@[simp] theorem acknowledge_acc : (acknowledge s).acc = s.acc := rfl
@[simp] theorem acknowledge_accCnt : (acknowledge s).accCnt = s.accCnt := rfl
@[simp] theorem acknowledge_sr : (acknowledge s).sr = s.sr := rfl
@[simp] theorem acknowledge_srCnt : (acknowledge s).srCnt = s.srCnt := rfl
@[simp] theorem acknowledge_inq : (acknowledge s).inq = s.inq := rfl
@[simp] theorem acknowledge_outq : (acknowledge s).outq = s.outq := rfl
@[simp] theorem acknowledge_err : (acknowledge s).err = .ok := rfl
@[simp] theorem acknowledge_ovr : (acknowledge s).ovr = s.ovr := rfl
@[simp] theorem acknowledge_inOvf : (acknowledge s).inOvf = s.inOvf := rfl
@[simp] theorem acknowledge_eng : (acknowledge s).eng = s.eng := rfl
@[simp] theorem acknowledge_cmdLast : (acknowledge s).cmdLast = s.cmdLast := rfl
@[simp] theorem acknowledge_cmdArg : (acknowledge s).cmdArg = s.cmdArg := rfl
@[simp] theorem acknowledge_arg : (acknowledge s).arg = s.arg := rfl
@[simp] theorem acknowledge_result : (acknowledge s).result = s.result := rfl
@[simp] theorem acknowledge_decRemain : (acknowledge s).decRemain = s.decRemain := rfl
@[simp] theorem acknowledge_decCur : (acknowledge s).decCur = s.decCur := rfl
@[simp] theorem acknowledge_nodeInfo0 : (acknowledge s).nodeInfo0 = s.nodeInfo0 := rfl
@[simp] theorem acknowledge_nodeInfo1 : (acknowledge s).nodeInfo1 = s.nodeInfo1 := rfl
@[simp] theorem acknowledge_nodeInfo2 : (acknowledge s).nodeInfo2 = s.nodeInfo2 := rfl
@[simp] theorem acknowledge_codeInfo : (acknowledge s).codeInfo = s.codeInfo := rfl
@[simp] theorem acknowledge_codeBits : (acknowledge s).codeBits = s.codeBits := rfl

/-! ## `setErr`: the first error is kept -/

@[simp] theorem setErr_cfg (c : ErrCode) : (setErr c s).cfg = s.cfg := by unfold setErr; split <;> rfl
@[simp] theorem setErr_turns (c : ErrCode) : (setErr c s).turns = s.turns := by unfold setErr; split <;> rfl
@[simp] theorem setErr_reads (c : ErrCode) : (setErr c s).reads = s.reads := by unfold setErr; split <;> rfl
@[simp] theorem setErr_eos (c : ErrCode) : (setErr c s).eos = s.eos := by unfold setErr; split <;> rfl
@[simp] theorem setErr_phase (c : ErrCode) : (setErr c s).phase = s.phase := by unfold setErr; split <;> rfl
@[simp] theorem setErr_nrec (c : ErrCode) : (setErr c s).nrec = s.nrec := by unfold setErr; split <;> rfl
@[simp] theorem setErr_total (c : ErrCode) : (setErr c s).total = s.total := by unfold setErr; split <;> rfl
@[simp] theorem setErr_loaded (c : ErrCode) : (setErr c s).loaded = s.loaded := by unfold setErr; split <;> rfl
@[simp] theorem setErr_nodes (c : ErrCode) : (setErr c s).nodes = s.nodes := by unfold setErr; split <;> rfl
@[simp] theorem setErr_rootIdx (c : ErrCode) : (setErr c s).rootIdx = s.rootIdx := by unfold setErr; split <;> rfl
@[simp] theorem setErr_rootValid (c : ErrCode) : (setErr c s).rootValid = s.rootValid := by unfold setErr; split <;> rfl
@[simp] theorem setErr_codes (c : ErrCode) : (setErr c s).codes = s.codes := by unfold setErr; split <;> rfl
@[simp] theorem setErr_acc (c : ErrCode) : (setErr c s).acc = s.acc := by unfold setErr; split <;> rfl
@[simp] theorem setErr_accCnt (c : ErrCode) : (setErr c s).accCnt = s.accCnt := by unfold setErr; split <;> rfl
@[simp] theorem setErr_sr (c : ErrCode) : (setErr c s).sr = s.sr := by unfold setErr; split <;> rfl
@[simp] theorem setErr_srCnt (c : ErrCode) : (setErr c s).srCnt = s.srCnt := by unfold setErr; split <;> rfl
@[simp] theorem setErr_inq (c : ErrCode) : (setErr c s).inq = s.inq := by unfold setErr; split <;> rfl
@[simp] theorem setErr_outq (c : ErrCode) : (setErr c s).outq = s.outq := by unfold setErr; split <;> rfl
@[simp] theorem setErr_err (c : ErrCode) : (setErr c s).err = if s.err = .ok then c else s.err := by
  unfold setErr; split <;> rfl
@[simp] theorem setErr_ovr (c : ErrCode) : (setErr c s).ovr = s.ovr := by unfold setErr; split <;> rfl
@[simp] theorem setErr_inOvf (c : ErrCode) : (setErr c s).inOvf = s.inOvf := by unfold setErr; split <;> rfl
@[simp] theorem setErr_eng (c : ErrCode) : (setErr c s).eng = s.eng := by unfold setErr; split <;> rfl
@[simp] theorem setErr_cmdLast (c : ErrCode) : (setErr c s).cmdLast = s.cmdLast := by unfold setErr; split <;> rfl
@[simp] theorem setErr_cmdArg (c : ErrCode) : (setErr c s).cmdArg = s.cmdArg := by unfold setErr; split <;> rfl
@[simp] theorem setErr_arg (c : ErrCode) : (setErr c s).arg = s.arg := by unfold setErr; split <;> rfl
@[simp] theorem setErr_result (c : ErrCode) : (setErr c s).result = s.result := by unfold setErr; split <;> rfl
@[simp] theorem setErr_decRemain (c : ErrCode) : (setErr c s).decRemain = s.decRemain := by unfold setErr; split <;> rfl
@[simp] theorem setErr_decCur (c : ErrCode) : (setErr c s).decCur = s.decCur := by unfold setErr; split <;> rfl
@[simp] theorem setErr_nodeInfo0 (c : ErrCode) : (setErr c s).nodeInfo0 = s.nodeInfo0 := by unfold setErr; split <;> rfl
@[simp] theorem setErr_nodeInfo1 (c : ErrCode) : (setErr c s).nodeInfo1 = s.nodeInfo1 := by unfold setErr; split <;> rfl
@[simp] theorem setErr_nodeInfo2 (c : ErrCode) : (setErr c s).nodeInfo2 = s.nodeInfo2 := by unfold setErr; split <;> rfl
@[simp] theorem setErr_codeInfo (c : ErrCode) : (setErr c s).codeInfo = s.codeInfo := by unfold setErr; split <;> rfl
@[simp] theorem setErr_codeBits (c : ErrCode) : (setErr c s).codeBits = s.codeBits := by unfold setErr; split <;> rfl

/-! ## `raise`: SetErr(c) ; ENG <- IDLE -/

@[simp] theorem raise_cfg (c : ErrCode) : (raise c s).cfg = s.cfg := setErr_cfg s c
@[simp] theorem raise_turns (c : ErrCode) : (raise c s).turns = s.turns := setErr_turns s c
@[simp] theorem raise_reads (c : ErrCode) : (raise c s).reads = s.reads := setErr_reads s c
@[simp] theorem raise_eos (c : ErrCode) : (raise c s).eos = s.eos := setErr_eos s c
@[simp] theorem raise_phase (c : ErrCode) : (raise c s).phase = s.phase := setErr_phase s c
@[simp] theorem raise_nrec (c : ErrCode) : (raise c s).nrec = s.nrec := setErr_nrec s c
@[simp] theorem raise_total (c : ErrCode) : (raise c s).total = s.total := setErr_total s c
@[simp] theorem raise_loaded (c : ErrCode) : (raise c s).loaded = s.loaded := setErr_loaded s c
@[simp] theorem raise_nodes (c : ErrCode) : (raise c s).nodes = s.nodes := setErr_nodes s c
@[simp] theorem raise_rootIdx (c : ErrCode) : (raise c s).rootIdx = s.rootIdx := setErr_rootIdx s c
@[simp] theorem raise_rootValid (c : ErrCode) : (raise c s).rootValid = s.rootValid := setErr_rootValid s c
@[simp] theorem raise_codes (c : ErrCode) : (raise c s).codes = s.codes := setErr_codes s c
@[simp] theorem raise_acc (c : ErrCode) : (raise c s).acc = s.acc := setErr_acc s c
@[simp] theorem raise_accCnt (c : ErrCode) : (raise c s).accCnt = s.accCnt := setErr_accCnt s c
@[simp] theorem raise_sr (c : ErrCode) : (raise c s).sr = s.sr := setErr_sr s c
@[simp] theorem raise_srCnt (c : ErrCode) : (raise c s).srCnt = s.srCnt := setErr_srCnt s c
@[simp] theorem raise_inq (c : ErrCode) : (raise c s).inq = s.inq := setErr_inq s c
@[simp] theorem raise_outq (c : ErrCode) : (raise c s).outq = s.outq := setErr_outq s c
@[simp] theorem raise_err (c : ErrCode) : (raise c s).err = if s.err = .ok then c else s.err := setErr_err s c
@[simp] theorem raise_ovr (c : ErrCode) : (raise c s).ovr = s.ovr := setErr_ovr s c
@[simp] theorem raise_inOvf (c : ErrCode) : (raise c s).inOvf = s.inOvf := setErr_inOvf s c
@[simp] theorem raise_eng (c : ErrCode) : (raise c s).eng = .idle := rfl
@[simp] theorem raise_cmdLast (c : ErrCode) : (raise c s).cmdLast = s.cmdLast := setErr_cmdLast s c
@[simp] theorem raise_cmdArg (c : ErrCode) : (raise c s).cmdArg = s.cmdArg := setErr_cmdArg s c
@[simp] theorem raise_arg (c : ErrCode) : (raise c s).arg = s.arg := setErr_arg s c
@[simp] theorem raise_result (c : ErrCode) : (raise c s).result = s.result := setErr_result s c
@[simp] theorem raise_decRemain (c : ErrCode) : (raise c s).decRemain = s.decRemain := setErr_decRemain s c
@[simp] theorem raise_decCur (c : ErrCode) : (raise c s).decCur = s.decCur := setErr_decCur s c
@[simp] theorem raise_nodeInfo0 (c : ErrCode) : (raise c s).nodeInfo0 = s.nodeInfo0 := setErr_nodeInfo0 s c
@[simp] theorem raise_nodeInfo1 (c : ErrCode) : (raise c s).nodeInfo1 = s.nodeInfo1 := setErr_nodeInfo1 s c
@[simp] theorem raise_nodeInfo2 (c : ErrCode) : (raise c s).nodeInfo2 = s.nodeInfo2 := setErr_nodeInfo2 s c
@[simp] theorem raise_codeInfo (c : ErrCode) : (raise c s).codeInfo = s.codeInfo := setErr_codeInfo s c
@[simp] theorem raise_codeBits (c : ErrCode) : (raise c s).codeBits = s.codeBits := setErr_codeBits s c

end Sys2Proof.Machine
end

