-- ==== Sys2Proof/Laws/Ops.lean ====
section
/-! SUPPORT. What each shared operation can do, said once: the operand and flag helpers, the errors, the dispatch
checks, the engine step, the holding primitives, the host's accesses and the step. -/

namespace Sys2Proof.Machine

/-! ## Tables and bits -/

theorem readNode_of_lt (nodes : Vector Node 511) {i : Nat} (h : i < 511) : readNode nodes i = nodes[i] := by
  simp [readNode, h]

theorem readNode_writeNode_same (nodes : Vector Node 511) (n : Node) {i : Nat} (h : i < 511) :
    readNode (writeNode nodes i n) i = n := by
  simp [readNode, writeNode, h]

theorem readNode_writeNode_other (nodes : Vector Node 511) (n : Node) {i j : Nat} (h : i ≠ j) :
    readNode (writeNode nodes i n) j = readNode nodes j := by
  unfold readNode writeNode
  split
  · rw [Vector.getElem_setIfInBounds_ne _ h]
  · rfl

theorem writeCode_same (codes : Vector CodeEntry 256) (sym : Byte) (e : CodeEntry) :
    (writeCode codes sym e)[sym.toNat]'(by have := sym.isLt; omega) = e := by
  simp [writeCode]

theorem writeCode_other (codes : Vector CodeEntry 256) {a b : Byte} (e : CodeEntry) (h : a ≠ b) :
    (writeCode codes a e)[b.toNat]'(by have := b.isLt; omega) = codes[b.toNat]'(by have := b.isLt; omega) := by
  have hne : a.toNat ≠ b.toNat := fun he => h (BitVec.eq_of_toNat_eq he)
  simp [writeCode, Vector.getElem_set_ne, hne]

theorem setBit_getLsbD (v : Byte) {i : Nat} (b : Bool) (k : Nat) (hi : i < 8) :
    (setBit v i b).getLsbD k = if k = i then b else v.getLsbD k := by
  by_cases hk : k < 8
  · by_cases h : k = i
    · subst h; cases b <;> simp [setBit, bitVal, hk]
    · rcases Nat.lt_or_gt_of_ne h with hlt | hgt
      · cases b <;> simp [setBit, bitVal, hk, h, hlt]
      · have h0 : ¬ k < i := by omega
        have h1 : k - i ≠ 0 := by omega
        cases b <;> simp [setBit, bitVal, hk, h, h0, h1]
  · have hne : k ≠ i := by omega
    rw [if_neg hne, BitVec.getLsbD_of_ge _ _ (by omega), BitVec.getLsbD_of_ge _ _ (by omega)]

theorem setLoaded_getLsbD (v : BitVec 256) (sym : Byte) (k : Nat) (hk : k < 256) :
    (setLoaded v sym).getLsbD k = (decide (k = sym.toNat) || v.getLsbD k) := by
  have hs := sym.isLt
  by_cases h : k = sym.toNat
  · subst h; simp [setLoaded]; omega
  · rcases Nat.lt_or_gt_of_ne h with hlt | hgt
    · simp [setLoaded, hk, h, hlt]
    · have h0 : ¬ k < sym.toNat := by omega
      have h1 : k - sym.toNat ≠ 0 := by omega
      simp [setLoaded, hk, h, h0, h1]

/-- Bit 31 − (j mod 32) of CODE_BITS(j div 32) is bit j of the code (R32). -/
theorem codeWord_bit (bits : List Bool) (j : Nat) :
    (codeWord bits (j / 32)).getLsbD (31 - j % 32) = codeBit bits j := by
  have h1 : j % 32 < 32 := Nat.mod_lt _ (by omega)
  have h2 : 31 - j % 32 < 32 := by omega
  have h3 : 32 * (j / 32) + (31 - (31 - j % 32)) = j := by omega
  unfold codeWord
  rw [BitVec.getLsbD_ofFnBE, dif_pos h2]
  simp [Fin.rev, h3]

/-! ## Errors -/

theorem setErr_of_ok {s : State} (c : ErrCode) (h : s.err = .ok) : setErr c s = { s with err := c } := by
  simp [setErr, h]

theorem setErr_of_err {s : State} (c : ErrCode) (h : s.err ≠ .ok) : setErr c s = s := by
  simp [setErr, h]

theorem raise_of_ok {s : State} (c : ErrCode) (h : s.err = .ok) :
    raise c s = { s with err := c, eng := .idle } := by
  simp [raise, finish, setErr_of_ok c h]

theorem raise_of_err {s : State} (c : ErrCode) (h : s.err ≠ .ok) : raise c s = { s with eng := .idle } := by
  simp [raise, finish, setErr_of_err c h]

/-- ABORT acts on a latched or running command only, and keeps the first error (R128). -/
theorem abort_cases (s : State) :
    (s.eng = .idle ∧ abort s = s) ∨
    (s.eng ≠ .idle ∧ abort s = { s with eng := .idle, err := if s.err = .ok then .aborted else s.err }) := by
  by_cases h : s.eng = .idle
  · exact .inl ⟨h, by simp [abort, h]⟩
  · refine .inr ⟨h, ?_⟩
    by_cases he : s.err = .ok <;> simp [abort, h, setErr, he]

/-! ## Dispatch and the engine step -/

/-- The three ends of the dispatch step of a legal command (R79). -/
theorem dispatch_cases (i : Instr) (body : State → State) (s : State) :
    (lockedOut i.opc s = true ∧ dispatch i body s = finish s) ∨
    (lockedOut i.opc s = false ∧ phaseError i s.phase ≠ .ok ∧ dispatch i body s = raise (phaseError i s.phase) s) ∨
    (lockedOut i.opc s = false ∧ phaseError i s.phase = .ok ∧ dispatch i body s = body s) := by
  unfold dispatch
  cases hl : lockedOut i.opc s
  · by_cases hp : phaseError i s.phase = .ok <;> simp [hp]
  · simp

theorem dispatch_of_admitted {i : Instr} {s : State} (body : State → State) (hl : lockedOut i.opc s = false)
    (hp : phaseError i s.phase = .ok) : dispatch i body s = body s := by
  simp [dispatch, hl, hp]

theorem engineStep_idle {i : Instr} {body : State → State} {resume : Loc → State → Option State} {s : State}
    (h : s.eng = .idle) : engineStep i body resume s = .next (dispatch i body s) := by
  simp [engineStep, h]

theorem engineStep_pending {i : Instr} {body : State → State} {resume : Loc → State → Option State} {s : State}
    (h : s.eng = .pending) : engineStep i body resume s = .next (dispatch i body s) := by
  simp [engineStep, h]

theorem engineStep_running {i : Instr} {body : State → State} {resume : Loc → State → Option State} {s s' : State}
    {loc : Loc} (h : s.eng = .running loc) (hr : resume loc s = some s') :
    engineStep i body resume s = .next s' := by
  simp [engineStep, h, hr]

/-- What an engine step of a command can be, when it answers a next state. -/
theorem engineStep_next {i : Instr} {body : State → State} {resume : Loc → State → Option State} {s t : State}
    (h : engineStep i body resume s = .next t) :
    ((s.eng = .idle ∨ s.eng = .pending) ∧ t = dispatch i body s) ∨
    (∃ loc, s.eng = .running loc ∧ resume loc s = some t) := by
  unfold engineStep at h
  split at h
  · rename_i he; cases h; exact .inl ⟨.inl he, rfl⟩
  · rename_i he; cases h; exact .inl ⟨.inr he, rfl⟩
  · rename_i loc he
    split at h
    · rename_i s' hr; cases h; exact .inr ⟨loc, he, hr⟩
    · cases h

/-! ## The holding primitives -/

/-- Everything WriteBit can do (R90). -/
theorem writeBit_cases (b : Bool) (s : State) :
    (s.accCnt = 7#4 ∧ s.outq.length = s.cfg.outDepth ∧ writeBit b s = .hold) ∨
    (s.accCnt = 7#4 ∧ s.outq.length ≠ s.cfg.outDepth ∧
      writeBit b s = .done { s with outq := s.outq ++ [setBit s.acc 0 b], acc := 0, accCnt := 0 }) ∨
    (s.accCnt ≠ 7#4 ∧
      writeBit b s = .done { s with acc := setBit s.acc (7 - s.accCnt.toNat) b, accCnt := s.accCnt + 1#4 }) := by
  by_cases h7 : s.accCnt = 7#4
  · by_cases hf : s.outq.length = s.cfg.outDepth
    · exact .inl ⟨h7, hf, by simp [writeBit, h7, hf]⟩
    · exact .inr (.inl ⟨h7, hf, by simp [writeBit, h7, hf]⟩)
  · have h8 : ¬ s.accCnt + 1#4 = 8#4 := fun h => h7 (by
      have hn := congrArg BitVec.toNat h
      apply BitVec.eq_of_toNat_eq
      have := s.accCnt.isLt
      simp [BitVec.toNat_add] at hn
      simp
      omega)
    exact .inr (.inr ⟨h7, by simp [writeBit, h7, h8]⟩)

/-- Everything Flush can do (R91). -/
theorem flushByte_cases (s : State) :
    (s.accCnt = 0#4 ∧ flushByte s = .done s) ∨
    (s.accCnt ≠ 0#4 ∧ s.outq.length = s.cfg.outDepth ∧ flushByte s = .hold) ∨
    (s.accCnt ≠ 0#4 ∧ s.outq.length ≠ s.cfg.outDepth ∧
      flushByte s = .done { s with outq := s.outq ++ [s.acc], acc := 0, accCnt := 0 }) := by
  unfold flushByte
  by_cases h0 : s.accCnt = 0#4
  · simp [h0]
  · by_cases hf : s.outq.length = s.cfg.outDepth <;> simp [h0, hf]

/-- Everything ReadBit can do (R92). -/
theorem readBit_cases (s : State) :
    (s.srCnt ≠ 0#4 ∧
      readBit s = .bit (s.sr.getLsbD 7) { s with sr := s.sr <<< 1, srCnt := s.srCnt - 1#4 }) ∨
    (s.srCnt = 0#4 ∧ ∃ v rest, s.inq = v :: rest ∧
      readBit s = .bit (v.getLsbD 7) { s with sr := v <<< 1, srCnt := 7#4, inq := rest }) ∨
    (s.srCnt = 0#4 ∧ s.inq = [] ∧ s.eos = true ∧ readBit s = .eof) ∨
    (s.srCnt = 0#4 ∧ s.inq = [] ∧ s.eos = false ∧ readBit s = .hold) := by
  by_cases h0 : s.srCnt = 0#4
  · cases hq : s.inq with
    | cons v rest => exact .inr (.inl ⟨h0, v, rest, rfl, by simp [readBit, h0, hq, shiftOut]⟩)
    | nil => cases he : s.eos <;> simp [readBit, h0, hq, he]
  · exact .inl ⟨h0, by simp [readBit, h0, shiftOut]⟩

/-- Everything PopByte can do (R93). -/
theorem popByte_cases (s : State) :
    (∃ v rest, s.inq = v :: rest ∧ popByte s = .byte v { s with inq := rest }) ∨
    (s.inq = [] ∧ s.eos = true ∧ popByte s = .finished) ∨
    (s.inq = [] ∧ s.eos = false ∧ popByte s = .hold) := by
  cases hq : s.inq with
  | cons v rest => exact .inl ⟨v, rest, rfl, by simp [popByte, hq]⟩
  | nil => cases he : s.eos <;> simp [popByte, hq, he]

/-- Everything Emit can do (R94). -/
theorem emit_cases (v : Byte) (s : State) :
    (s.outq.length = s.cfg.outDepth ∧ emit v s = .hold) ∨
    (s.outq.length ≠ s.cfg.outDepth ∧ emit v s = .done { s with outq := s.outq ++ [v] }) := by
  by_cases hf : s.outq.length = s.cfg.outDepth <;> simp [emit, hf]

/-! ## Host accesses and the step -/

/-- The latch (R78). -/
theorem latch_cases (w : Word) (s : State) :
    (s.eng = .idle ∧ latch w s = { s with cmdLast := w, cmdArg := s.arg, eng := .pending }) ∨
    (s.eng ≠ .idle ∧ latch w s = { s with ovr := true }) := by
  by_cases h : s.eng = .idle <;> simp [latch, h]

/-- What a host access can be, when it answers a next state (R55). -/
theorem hostAccess_next {a : Access} {s t : State} (h : hostAccess a s = .next t) :
    (∃ addr, a = .read addr 4 ∧ t = hostRead (regAt (addr - s.cfg.base)) s) ∨
    (∃ addr v, a = .write addr 4 v ∧ t = hostWrite (regAt (addr - s.cfg.base)) v s) := by
  cases a with
  | read addr size =>
    simp only [hostAccess] at h
    split at h
    · cases h
    · split at h
      · cases h
      · rename_i hadm
        cases h
        simp [admittedAccess] at hadm
        exact .inl ⟨addr, by rw [hadm.1], rfl⟩
  | write addr size v =>
    simp only [hostAccess] at h
    split at h
    · cases h
    · split at h
      · cases h
      · rename_i hadm
        cases h
        simp [admittedAccess] at hadm
        exact .inr ⟨addr, v, by rw [hadm.1], rfl⟩

/-- What one step can be, when it answers a next state: an engine turn, a host access or a power-on reset. -/
theorem step_next {s t : State} (h : step s = .next t) :
    (s.turns = [] ∧ engineTurn s = .next t) ∨
    (∃ rest, s.turns = .engine :: rest ∧ engineTurn { s with turns := rest } = .next t) ∨
    (∃ a rest, s.turns = .host a :: rest ∧ hostAccess a { s with turns := rest } = .next t) ∨
    (∃ rest, s.turns = .powerOn :: rest ∧ t = powerOn { s with turns := rest }) := by
  unfold step runTurn at h
  cases ht : s.turns with
  | nil => rw [ht] at h; exact .inl ⟨rfl, h⟩
  | cons x rest =>
    rw [ht] at h
    cases x with
    | engine => exact .inr (.inl ⟨rest, rfl, h⟩)
    | host a => exact .inr (.inr (.inl ⟨a, rest, rfl, h⟩))
    | powerOn =>
      simp only [takeTurn] at h
      cases h
      exact .inr (.inr (.inr ⟨rest, rfl, rfl⟩))

/-- What an engine turn can be, when it answers a next state (R79, R80). -/
theorem engineTurn_next {s t : State} (h : engineTurn s = .next t) :
    (s.eng = .idle ∧ t = s) ∨
    (s.eng ≠ .idle ∧ ∃ i, decode s.cmdLast = .ok i ∧ exec i s = .next t) ∨
    (s.eng = .pending ∧ (∃ e, decode s.cmdLast = .error e) ∧ t = dispatchIllegal s.cmdLast s) := by
  unfold engineTurn at h
  split at h
  · rename_i he; cases h; exact .inl ⟨he, rfl⟩
  · rename_i he
    split at h
    · rename_i i hd; exact .inr (.inl ⟨by simp [he], i, hd, h⟩)
    · rename_i e hd; cases h; exact .inr (.inr ⟨he, ⟨e, hd⟩, rfl⟩)
  · rename_i loc he
    split at h
    · rename_i i hd; exact .inr (.inl ⟨by simp [he], i, hd, h⟩)
    · cases h

end Sys2Proof.Machine
end

