-- ==== Sys2Proof/Laws/PerInstr.lean ====
section
/-! SUPPORT. The statements made of every command, one lemma per constructor of Instr: the fields of its word. -/

namespace Sys2Proof.Laws

/-- The upper 8 bits of a word written as two fields. -/
theorem opcOf_append (a : Byte) (x : BitVec 24) : opcOf (a ++ x) = a := by
  unfold opcOf
  rw [BitVec.extractLsb'_append_eq_left]

/-- The lower 24 bits of a word written as two fields. -/
theorem operandOf_append (a : Byte) (x : BitVec 24) : operandOf (a ++ x) = x := by
  unfold operandOf
  rw [BitVec.extractLsb'_append_eq_right]

/-- The word of a command shows the command's opcode and operand in the fields of R70. -/
def EncodeFields.Statement (i : Instr) : Prop := opcOf (encode i) = i.opc ∧ operandOf (encode i) = i.operand

theorem encode_fields (i : Instr) : EncodeFields.Statement i :=
  ⟨opcOf_append i.opc i.operand, operandOf_append i.opc i.operand⟩

theorem EncodeFields.nop : EncodeFields.Statement .nop := encode_fields .nop
theorem EncodeFields.clear : EncodeFields.Statement .clear := encode_fields .clear
theorem EncodeFields.ackErr : EncodeFields.Statement .ackErr := encode_fields .ackErr
theorem EncodeFields.loadRecord (sym : Byte) : EncodeFields.Statement (.loadRecord sym) := encode_fields (.loadRecord sym)
theorem EncodeFields.build : EncodeFields.Statement .build := encode_fields .build
theorem EncodeFields.genCodes : EncodeFields.Statement .genCodes := encode_fields .genCodes
theorem EncodeFields.queryNode (idx : Index) : EncodeFields.Statement (.queryNode idx) := encode_fields (.queryNode idx)
theorem EncodeFields.queryCode (sym : Byte) : EncodeFields.Statement (.queryCode sym) := encode_fields (.queryCode sym)
theorem EncodeFields.writeBits (nb : BitVec 5) (v : BitVec 16) : EncodeFields.Statement (.writeBits nb v) :=
  encode_fields (.writeBits nb v)
theorem EncodeFields.flush : EncodeFields.Statement .flush := encode_fields .flush
theorem EncodeFields.readBit : EncodeFields.Statement .readBit := encode_fields .readBit
theorem EncodeFields.skipBits (n : BitVec 24) : EncodeFields.Statement (.skipBits n) := encode_fields (.skipBits n)
theorem EncodeFields.alignRead : EncodeFields.Statement .alignRead := encode_fields .alignRead
theorem EncodeFields.encodeSym (sym : Byte) : EncodeFields.Statement (.encodeSym sym) := encode_fields (.encodeSym sym)
theorem EncodeFields.encodeStream : EncodeFields.Statement .encodeStream := encode_fields .encodeStream
theorem EncodeFields.decode : EncodeFields.Statement .decode := encode_fields .decode

end Sys2Proof.Laws
end

