-- ==== Sys2Proof/Machine/HostDriver.lean ====
section
/-! DEFINITION. One host that runs the sequences of 48_host_interface.md R122 and R123 on the block. It is one of the
hosts those rules allow: between two of its own accesses it gives the engine a turn only when it has nothing to push,
drain or set (log 15). The block never calls anything of this file. -/

namespace Sys2Proof.Machine

/-- Why a host run ends before its sequence does. -/
inductive HostStop where
  | error (e : HostError)
  /-- An analysed count that ARG cannot hold: R122 gives it no LOADR (log 20). -/
  | countTooWide
  | blockStopped
  | outOfFuel
deriving DecidableEq, Repr

/-- One turn of the run. -/
def hostTurn (t : Turn) (s : State) : Except HostStop State :=
  match step { s with turns := [t] } with
  | .next s' => .ok s'
  | .fault _ => .error .blockStopped
  | .refused _ => .error .blockStopped

/-- `wr REG, value` (R76). -/
def wr (r : Reg) (v : Word) (s : State) : Except HostStop State := hostTurn (.host (wrReg s.cfg r v)) s

/-- `rd REG -> name` (R76): the value read and the state after it. -/
def rd (r : Reg) (s : State) : Except HostStop (Word × State) := do
  let s' ← hostTurn (.host (rdReg s.cfg r)) s
  match s'.reads with
  | v :: _ => .ok (v, s')
  | [] => .error .blockStopped

/-- `WAIT` (R77), an engine turn between two polls. -/
def wait : Nat → State → Except HostStop State
  | 0, _ => .error .outOfFuel
  | fuel + 1, s => do
    let (st, s) ← rd .status s
    if st.getLsbD 0 then
      let s ← hostTurn .engine s
      wait fuel s
    else .ok s

/-- The host's look at STATUS.ERR, by R124. -/
def checkErr (src : RecordSource) (s : State) : Except HostStop State := do
  let (st, s) ← rd .status s
  if st.extractLsb' 8 4 = 0#4 then .ok s
  else match hostErrorOf src s.err with
    | some e => .error (.error e)
    | none => .ok s

/-- `RUN c` (R77), and a look at ERR. -/
def runCmd (fuel : Nat) (src : RecordSource) (i : Instr) (s : State) : Except HostStop State := do
  let s ← wr .cmd (encode i) s
  let s ← wait fuel s
  checkErr src s

/-- `LOADR` for every record, in order (R117, R122 step 4). A count above 2^32 − 1, which ARG cannot hold, ends the run:
the spec says nothing of it, and the stop is the model's choice (log 20). R120 lets no parsed record have one. -/
def loadAll (fuel : Nat) (src : RecordSource) : List FreqRecord → State → Except HostStop State
  | [], s => .ok s
  | r :: rest, s =>
    if r.count > 2 ^ 32 - 1 then .error .countTooWide
    else do
      let s ← wr .arg (BitVec.ofNat 32 r.count) s
      let s ← runCmd fuel src (.loadRecord r.sym) s
      loadAll fuel src rest s

/-- `DRAIN` (R77): the bytes of OUT_DATA until it reads VALID = 0. -/
def drain : Nat → List Byte → State → Except HostStop (List Byte × State)
  | 0, _, _ => .error .outOfFuel
  | fuel + 1, out, s => do
    let (x, s) ← rd .outData s
    if x.getLsbD 8 then drain fuel (out ++ [x.extractLsb' 0 8]) s else .ok (out, s)

/-- While a command runs: drain the output, push input as space allows, set EOS after the last byte if the input is
the whole of a stream, and stop at BUSY = 0 (R116, R122 step 7, R123 steps 6 and 7). It answers the input not pushed,
the output and the state. -/
def pump (whole : Bool) : Nat → List Byte → List Byte → State → Except HostStop (List Byte × List Byte × State)
  | 0, _, _, _ => .error .outOfFuel
  | fuel + 1, input, out, s => do
    let (st, s) ← rd .status s
    if st.getLsbD 14 = false then
      let (x, s) ← rd .outData s
      pump whole fuel input (out ++ [x.extractLsb' 0 8]) s
    else if st.getLsbD 0 = false then .ok (input, out, s)
    else match input with
      | b :: rest =>
        if st.getLsbD 13 then
          let s ← hostTurn .engine s
          pump whole fuel input out s
        else
          let s ← wr .inData (0#24 ++ b) s
          pump whole fuel rest out s
      | [] =>
        if whole && !s.eos then
          let s ← wr .ctrl 0x4 s
          pump whole fuel [] out s
        else
          let s ← hostTurn .engine s
          pump whole fuel [] out s

/-- Steps 2, 4 and 5 of R122 or R123: the block cleared, the records loaded, the tree built. -/
def buildTree (fuel : Nat) (src : RecordSource) (recs : List FreqRecord) (s : State) : Except HostStop State := do
  let s ← runCmd fuel src .clear s
  let s ← loadAll fuel src recs s
  runCmd fuel src .build s

/-- A run from its own output on: the bytes written so far stay written when a later part of the run ends early. -/
def keepOutput (out : List Byte) (r : Except HostStop (List Byte × State)) : List Byte × Except HostStop State :=
  match r with
  | .ok (out', s) => (out', .ok s)
  | .error e => (out, .error e)

/-- Step 8 of R122, after ENCODE_STREAM has ended: FLUSH, DRAIN, CLREOS. -/
def finishPayload (fuel : Nat) (out : List Byte) (s : State) : Except HostStop (List Byte × State) := do
  let s ← checkErr .analysed s
  let s ← runCmd fuel .analysed .flush s
  let (out, s) ← drain fuel out s
  let s ← wr .ctrl 0x0 s
  .ok (out, s)

/-- compress(x) (R122), in the FAITHFUL format: the bytes written to the sink, and how the run ends. -/
def compress (fuel : Nat) (x : List Byte) (s : State) : List Byte × Except HostStop State :=
  if analyse x = [] then keepOutput [] ((runCmd fuel .analysed .clear s).map fun s => (headerBytes [], s))
  else
    match buildTree fuel .analysed (analyse x) s >>= runCmd fuel .analysed .genCodes with
    | .error e => ([], .error e)
    | .ok s =>
      match wr .cmd (encode .encodeStream) s >>= pump true fuel x (headerBytes (analyse x)) with
      | .error e => (headerBytes (analyse x), .error e)
      | .ok (_, out, s) => keepOutput out (finishPayload fuel out s)

/-- Step 6 of R123: the reader stands behind the header of len bytes, and the answer is the input not pushed yet. A
header of 8·len bits that one SKIP_BITS can count is pushed and skipped; a longer one (R120 accepts leading zeros) is
not pushed at all, the other way the rule gives (log 15). -/
def passHeader (fuel : Nat) (b : List Byte) (len : Nat) (s : State) : Except HostStop (List Byte × State) :=
  if 8 * len < 2 ^ 24 then do
    let s ← wr .cmd (encode (.skipBits (BitVec.ofNat 24 (8 * len)))) s
    let (rest, _, s) ← pump false fuel b [] s
    .ok (rest, s)
  else .ok (b.drop len, s)

/-- Steps 2 to 7 of R123 for one or more records, up to BUSY = 0 after DECODE: the bytes drained and the state. -/
def decodePayload (fuel : Nat) (b : List Byte) (recs : List FreqRecord) (len : Nat) (s : State) :
    Except HostStop (List Byte × State) := do
  let s ← buildTree fuel .parsed recs s
  let (rest, s) ← passHeader fuel b len s
  let s ← wr .cmd (encode .decode) s
  let (_, out, s) ← pump true fuel rest [] s
  .ok (out, s)

/-- decompress(B) (R123): the bytes written to the output, and how the run ends. After TRUNCATED it ends with
FormatError, and what was drained stays written (step 8). -/
def decompress (fuel : Nat) (b : List Byte) (s : State) : List Byte × Except HostStop State :=
  match parseHeader b with
  | none => ([], .error (.error .formatError))
  | some (recs, len) =>
    if recs = [] then ([], runCmd fuel .parsed .clear s)
    else
      match decodePayload fuel b recs len s with
      | .error e => ([], .error e)
      | .ok (out, s) => (out, checkErr .parsed s)

end Sys2Proof.Machine
end

