-- ==== Sys2Proof/Tests/Slice0.lean ====
section
/-! SUPPORT. Small tests. A word is written out from R70 to R72, and an expected value is taken from the vector of
95_test_vectors.md that the comment names, or from the rule's own example. The witnesses at the end show, for every
statement with hypotheses, a state and operands that meet them together. -/

namespace Sys2Proof.Tests

open Sys2Proof.Machine

set_option Elab.async false
set_option synthInstance.maxSize 1000
set_option synthInstance.maxHeartbeats 400000

/-! ## Well-formedness: each check of R74 (c), and its refusal by the decoder (V2.4) -/

theorem test_writeBits_zero_bits_refused : (Instr.writeBits 0 0).wf = false ∧ decode 0x20000000#32 = .error .badWriteBits := by
  decide
theorem test_writeBits_seventeen_bits_refused :
    (Instr.writeBits 17 0).wf = false ∧ decode 0x20110000#32 = .error .badWriteBits := by decide
theorem test_writeBits_value_too_wide_refused :
    (Instr.writeBits 15 0x8000).wf = false ∧ decode 0x200F8000#32 = .error .badWriteBits := by decide
theorem test_writeBits_widest_accepted :
    (Instr.writeBits 16 0xFFFF).wf = true ∧ (Instr.writeBits 15 0x7FFF).wf = true := by decide

/-! ## Decoding: one word per command, and refused words (R72, V1.2, V2.4) -/

theorem test_decode_nop : decode 0x00000000#32 = .ok .nop := by decide
theorem test_decode_clear : decode 0x01000000#32 = .ok .clear := by decide
theorem test_decode_ackErr : decode 0x02000000#32 = .ok .ackErr := by decide
theorem test_decode_loadRecord : decode 0x10000062#32 = .ok (.loadRecord 0x62#8) := by decide
theorem test_decode_build : decode 0x11000000#32 = .ok .build := by decide
theorem test_decode_genCodes : decode 0x12000000#32 = .ok .genCodes := by decide
theorem test_decode_queryNode : decode 0x130001FF#32 = .ok (.queryNode 511#9) := by decide
theorem test_decode_queryCode : decode 0x14000061#32 = .ok (.queryCode 0x61#8) := by decide
theorem test_decode_writeBits : decode 0x2010BEEF#32 = .ok (.writeBits 16#5 0xBEEF#16) := by decide
theorem test_decode_flush : decode 0x21000000#32 = .ok .flush := by decide
theorem test_decode_readBit : decode 0x22000000#32 = .ok .readBit := by decide
theorem test_decode_skipBits : decode 0x23FFFFFF#32 = .ok (.skipBits 16777215#24) := by decide
theorem test_decode_alignRead : decode 0x24000000#32 = .ok .alignRead := by decide
theorem test_decode_encodeSym : decode 0x30000061#32 = .ok (.encodeSym 0x61#8) := by decide
theorem test_decode_encodeStream : decode 0x31000000#32 = .ok .encodeStream := by decide
theorem test_decode_decode : decode 0x32000000#32 = .ok .decode := by decide

theorem test_decode_unassigned_refused :
    ([0x03000000#32, 0x0F000000#32, 0x15000000#32, 0x25000000#32, 0x33000000#32, 0xFF000000#32].all fun w =>
      decide (decode w = .error .unassignedOpcode)) = true := by decide +kernel
theorem test_decode_must_be_zero_refused :
    ([0x00000001#32, 0x01000001#32, 0x02000100#32, 0x10000161#32, 0x11000001#32, 0x13000200#32, 0x14000100#32,
      0x20200000#32, 0x22000001#32, 0x24800000#32, 0x30010000#32].all fun w =>
      decide (decode w = .error .mustBeZero)) = true := by decide +kernel
theorem test_table_word_is_decoded : decodeTableWord 32 0x10000062 = some (.loadRecord 0x62#8) := by decide

/-! ## Helpers -/

/-- A view of the next state. -/
def nextOf {α : Type} (f : State → α) : Outcome → Option α
  | .next t => some (f t)
  | .fault _ => none
  | .refused _ => none

/-- Why a step stops. -/
def stopOf : Outcome → Option (Sum Fault Refusal)
  | .next _ => none
  | .fault f => some (.inl f)
  | .refused r => some (.inr r)

/-- Command i latched and not yet begun. -/
def pend (i : Instr) (s : State) : State := { s with cmdLast := encode i, eng := .pending }

/-- Command i at one of its calls. -/
def runs (i : Instr) (loc : Loc) (s : State) : State := { s with cmdLast := encode i, eng := .running loc }

/-- The records a3, b1 of "aaab" loaded. -/
def loadedAB : State :=
  { State.reset with
    phase := .loaded, nrec := 2, total := 4, loaded := setLoaded (setLoaded 0 0x61) 0x62
    nodes := writeNode (writeNode State.reset.nodes 0 ⟨.leaf, 0x61, 3, 0, 0⟩) 1 ⟨.leaf, 0x62, 1, 0, 0⟩ }

/-- The records a1, b1, c0 of V3.1 loaded. -/
def loadedABC : State :=
  { State.reset with
    phase := .loaded, nrec := 3, total := 2, loaded := setLoaded (setLoaded (setLoaded 0 0x61) 0x62) 0x63
    nodes := writeNode (writeNode (writeNode State.reset.nodes 0 ⟨.leaf, 0x61, 1, 0, 0⟩) 1 ⟨.leaf, 0x62, 1, 0, 0⟩) 2
      ⟨.leaf, 0x63, 0, 0, 0⟩ }

/-- The tree of "aaab" (1.1 of 95_test_vectors.md). -/
def builtAB : State :=
  { loadedAB with
    phase := .built, nodes := writeNode loadedAB.nodes 2 ⟨.internal, 0, 4, 1, 0⟩, rootIdx := 2, rootValid := true }

/-- The tree of "aaab" with its codes: b = 0, a = 1 (table 2.4-A), as `test_genCodes_aaab` checks. -/
def codedAB : State := { builtAB with phase := .coded, codes := codesOf builtAB.nodes builtAB.rootIdx }

/-- The degenerate tree of "zzzz". -/
def builtZ : State :=
  { State.reset with
    phase := .built, nrec := 1, total := 4, loaded := setLoaded 0 0x7A, rootValid := true
    nodes := writeNode State.reset.nodes 0 ⟨.leaf, 0x7A, 4, 0, 0⟩ }

/-- The same with its code of no bits. -/
def codedZ : State := { builtZ with phase := .coded, codes := codesOf builtZ.nodes builtZ.rootIdx }

/-! ## One step of each command -/

/-- V1.4 step 4: NOP does not unlock. -/
theorem test_nop_keeps_error :
    nextOf (fun t => (t.err, t.eng)) (exec .nop (pend .nop { State.reset with err := .illegalCmd })) =
      some (.illegalCmd, .idle) := by decide +kernel

/-- V1.6: CLEAR keeps ARG and CMD_LAST, and drops the records. -/
theorem test_clear_keeps_arg :
    nextOf (fun t => (t.nrec, t.total, t.phase, t.arg, t.cmdLast)) (exec .clear (pend .clear { loadedAB with arg := 7 })) =
      some (0, 0, .empty, 7, 0x01000000) := by decide +kernel

/-- V1.4 step 5. -/
theorem test_ackErr_unlocks :
    nextOf (fun t => (regValue .status t, t.cmdLast))
      (exec .ackErr (pend .ackErr { State.reset with err := .illegalCmd })) = some (0x00005000, 0x02000000) := by
  decide +kernel

/-- V3.7: TOTAL at its limit takes a record of count 0 and no other. -/
theorem test_loadRecord_at_the_limit :
    nextOf (fun t => (regValue .status t, t.nrec, t.total))
      (exec (.loadRecord 0x64) (pend (.loadRecord 0x64) { loadedAB with total := 0xFFFFFFFF, cmdArg := 0 })) =
      some (0x00005002, 3, 0xFFFFFFFF) ∧
    nextOf (fun t => (regValue .status t, t.nrec, t.total))
      (exec (.loadRecord 0x64) (pend (.loadRecord 0x64) { loadedAB with total := 0xFFFFFFFF, cmdArg := 1 })) =
      some (0x00005402, 2, 0xFFFFFFFF) := by decide +kernel

/-- V3.7: DUP_SYMBOL is checked before COUNT_OVERFLOW. -/
theorem test_loadRecord_duplicate_first :
    nextOf (regValue .status)
      (exec (.loadRecord 0x61) (pend (.loadRecord 0x61) { loadedAB with cmdArg := 0xFFFFFFFF })) =
      some 0x00005302 := by decide +kernel

/-- Table 2.3-A, "aaab": 2 = I(4, L = 1, R = 0), ROOT = 0x80000002. -/
theorem test_build_aaab :
    nextOf (fun t => (t.node 2, regValue .root t, regValue .status t)) (exec .build (pend .build loadedAB)) =
      some (⟨.internal, 0, 4, 1, 0⟩, 0x80000002, 0x00005004) := by decide +kernel

/-- V3.1: a1 b1 c0 gives 3 = I(1, L = 2, R = 0) and 4 = I(2, L = 1, R = 3). -/
theorem test_build_tie :
    nextOf (fun t => (t.node 3, t.node 4, t.rootIdx)) (exec .build (pend .build loadedABC)) =
      some (⟨.internal, 0, 1, 2, 0⟩, ⟨.internal, 0, 2, 1, 3⟩, 4) := by decide +kernel

/-- Table 2.4-A, "aaab": b = 0, a = 1, and nothing else. -/
theorem test_genCodes_aaab :
    nextOf (fun t => (t.code 0x61, t.code 0x62, t.code 0x63, t.phase)) (exec .genCodes (pend .genCodes builtAB)) =
      some (⟨true, [true]⟩, ⟨true, [false]⟩, ⟨false, []⟩, .coded) := by decide +kernel

/-- V3.8: QUERY_NODE 2 and 3 of "aaab". -/
theorem test_queryNode_aaab :
    nextOf (fun t => (t.nodeInfo0, t.nodeInfo1, t.nodeInfo2)) (exec (.queryNode 2) (pend (.queryNode 2) builtAB)) =
      some (0x80000001, 4, 0x00000001) ∧
    nextOf (fun t => (t.nodeInfo0, t.nodeInfo1, t.nodeInfo2))
      (exec (.queryNode 3) (pend (.queryNode 3) { builtAB with nodeInfo0 := 5, nodeInfo1 := 6, nodeInfo2 := 7 })) =
      some (0, 0, 0) := by decide +kernel

/-- V4.1: a code "110" of 'b' gives CODE_INFO = 0x80006203 and CODE_BITS0 = 0xC0000000. -/
theorem test_queryCode_110 :
    nextOf (fun t => (t.codeInfo, t.codeBits[0], t.codeBits[1])) (exec (.queryCode 0x62) (pend (.queryCode 0x62)
      { codedAB with codes := writeCode emptyCodes 0x62 ⟨true, [true, true, false]⟩ })) =
      some (0x80006203, 0xC0000000, 0) := by decide +kernel

/-- V2.9: with OUT_DEPTH = 1, AB in the FIFO and ACC = 0xCC, the last bit of 0xABCD holds. -/
theorem test_writeBits_holds :
    nextOf (fun t => (t.outq, regValue .wrState t, regValue .status t))
      (exec (.writeBits 16 0xABCD) (runs (.writeBits 16 0xABCD) (.writeBits 0)
        { State.reset with cfg := { outDepth := 1 }, outq := [0xAB], acc := 0xCC, accCnt := 7 })) =
      some ([0xAB], 0x000007CC, 0x00009011) := by decide +kernel

/-- The same after the POP: CD is pushed and the command completes. -/
theorem test_writeBits_completes :
    nextOf (fun t => (t.outq, regValue .wrState t, t.eng))
      (exec (.writeBits 16 0xABCD) (runs (.writeBits 16 0xABCD) (.writeBits 0)
        { State.reset with cfg := { outDepth := 1 }, acc := 0xCC, accCnt := 7 })) = some ([0xCD], 0, .idle) := by
  decide +kernel

/-- V2.3: FLUSH of 101 pushes A0. -/
theorem test_flush_pads :
    nextOf (fun t => (t.outq, t.acc, t.accCnt))
      (exec .flush (runs .flush .flush { State.reset with acc := 0xA0, accCnt := 3 })) = some ([0xA0], 0, 0) := by
  decide +kernel

/-- V1.7 step 5: READ_BIT of 0x40. -/
theorem test_readBit_refills :
    nextOf (fun t => (t.result, regValue .rdState t, t.inq))
      (exec .readBit (runs .readBit .readBit { State.reset with inq := [0x40] })) = some (0, 0x00000780, []) := by
  decide +kernel

/-- V2.5: at EOF, RESULT = 2. -/
theorem test_readBit_eof :
    nextOf (fun t => (t.result, t.eng)) (exec .readBit (runs .readBit .readBit { State.reset with eos := true })) =
      some (2, .idle) := by decide +kernel

/-- V2.7: SKIP_BITS 16 stopped by EOF after 8 bits. -/
theorem test_skipBits_eof :
    nextOf (fun t => (t.result, t.eng))
      (exec (.skipBits 16) (runs (.skipBits 16) (.skipBits 8) { State.reset with eos := true })) =
      some (8, .idle) := by decide +kernel

/-- V2.6: the fifth bit of 0xAA leaves SR = 0x40, SR_CNT = 3, RESULT = 5. -/
theorem test_skipBits_last :
    nextOf (fun t => (t.result, regValue .rdState t)) (exec (.skipBits 5) (runs (.skipBits 5) (.skipBits 4)
      { State.reset with sr := 0xA0, srCnt := 4 })) = some (5, 0x00000340) := by decide +kernel

/-- V2.8: ALIGN_READ empties SR and leaves the FIFO. -/
theorem test_alignRead :
    nextOf (fun t => (regValue .rdState t, regValue .fifoLevel t))
      (exec .alignRead (pend .alignRead { State.reset with sr := 0x80, srCnt := 2, inq := [0xAA, 0x55] })) =
      some (0, 2) := by decide +kernel

/-- R111's example: the fourth bit of "aaab", 'b' = 0, leaves ACC = 0xE0, ACC_CNT = 4. -/
theorem test_encodeSym_last_bit :
    nextOf (fun t => (t.acc, t.accCnt, t.eng)) (exec (.encodeSym 0x62) (runs (.encodeSym 0x62) (.encodeSym 0)
      { codedAB with acc := 0xE0, accCnt := 3 })) = some (0xE0, 4, .idle) := by decide +kernel

/-- R111: a symbol without a code raises CODE_MISS (STATUS as in the table of 95_test_vectors.md). -/
theorem test_encodeSym_miss :
    nextOf (regValue .status) (exec (.encodeSym 0x63) (pend (.encodeSym 0x63) codedAB)) = some 0x00005606 := by
  decide +kernel

/-- R112: the byte that missed is consumed, and ERR = CODE_MISS. -/
theorem test_encodeStream_miss :
    nextOf (fun t => (t.inq, t.err, t.eng, t.result)) (exec .encodeStream (runs .encodeStream (.streamPop 2)
      { codedAB with inq := [0x63, 0x61] })) = some ([0x61], .codeMiss, .idle, 0) := by decide +kernel

/-- R112: at END, RESULT is the number of bytes. -/
theorem test_encodeStream_end :
    nextOf (fun t => (t.result, t.eng)) (exec .encodeStream (runs .encodeStream (.streamPop 4)
      { codedAB with eos := true })) = some (4, .idle) := by decide +kernel

/-- R113's example, the last Emit: 'b', DEC_REMAIN = 0, RESULT = 4, and DEC_CUR back at the root. -/
theorem test_decode_last_emit :
    nextOf (fun t => (t.outq, t.decRemain, t.decCur, t.result, t.eng)) (exec .decode (runs .decode (.decodeEmit 3)
      { builtAB with decRemain := 1, decCur := 1 })) = some ([0x62], 0, 2, 4, .idle) := by decide +kernel

/-- R113: EOF with symbols due raises TRUNCATED (STATUS 0x00005704). -/
theorem test_decode_truncated :
    nextOf (regValue .status) (exec .decode (runs .decode (.decodeRead 3)
      { builtAB with eos := true, decRemain := 1, decCur := 2 })) = some 0x00005704 := by decide +kernel

/-! ## Host accesses and the step -/

/-- V1.9: SRST takes all of the write; V1.10: ABORT of a holding READ_BIT. -/
theorem test_ctrl_write :
    regValue .ctrl (hostWrite .ctrl 0x7 State.reset) = 0 ∧ regValue .ctrl (hostWrite .ctrl 0x6 State.reset) = 4 ∧
    regValue .status (hostWrite .ctrl 0x2 (runs .readBit .readBit State.reset)) = 0x00005800 := by decide +kernel

/-- V1.7 steps 2 and 3: a word written while READ_BIT holds is dropped and sets OVR. -/
theorem test_cmd_overrun :
    regValue .status (hostWrite .cmd 0 (runs .readBit .readBit State.reset)) = 0x00005031 ∧
    regValue .cmd (hostWrite .cmd 0 (runs .readBit .readBit State.reset)) = 0x22000000 := by decide +kernel

/-- V1.8: the 17th byte is dropped. -/
theorem test_input_overflow :
    regValue .status (hostWrite .inData 0x10 { State.reset with inq := List.replicate 16 0 }) = 0x00006040 ∧
    regValue .fifoLevel (hostWrite .inData 0x10 { State.reset with inq := List.replicate 16 0 }) = 0x10 := by
  decide +kernel

/-- V2.9: POP returns 0x1AB; R60: then 0. -/
theorem test_outData_pops :
    (hostRead .outData { State.reset with outq := [0xAB] }).reads = [0x1AB] ∧
    (hostRead .outData (hostRead .outData { State.reset with outq := [0xAB] })).reads = [0, 0x1AB] := by decide +kernel

/-- R55, R53: what is admitted. -/
theorem test_access_widths :
    nextOf State.reads (hostAccess (.read 0 4) State.reset) = some [0x48554631] ∧
    stopOf (hostAccess (.read 1 4) State.reset) = some (.inr .accessNotAdmitted) ∧
    stopOf (hostAccess (.read 0 1) State.reset) = some (.inr .accessNotAdmitted) ∧
    stopOf (hostAccess (.read 256 4) State.reset) = some (.inl .outsideWindow) := by decide +kernel

/-- R20, R61: ARG reads back what was written; R24, R29: which level and which writer field stands where. -/
theorem test_registers_read_their_fields :
    regValue .arg (hostWrite .arg 0xFFFFFFFF State.reset) = 0xFFFFFFFF ∧
    regValue .fifoLevel { State.reset with inq := [1, 2], outq := [3] } = 0x00010002 ∧
    regValue .wrState { State.reset with acc := 0xA0, accCnt := 3 } = 0x000003A0 := by decide +kernel

/-- A word placed where the engine takes its command from runs in the next step (R79): BUILD from reset, V1.5. -/
theorem test_step_runs_the_placed_word :
    nextOf (regValue .status) (step (State.reset.withFetchWord 32 0x11000000)) = some 0x00005500 ∧
    nextOf (regValue .status) (step (State.reset.withFetchWord 32 0xFF000000)) = some 0x00005100 ∧
    nextOf State.eng (step (State.reset.withFetchWord 32 0x20010001)) = some (.running (.writeBits 0)) := by
  decide +kernel

/-! ## The host's contract (1.1, V6.1, V6.2) -/

theorem test_analyse_aaab : analyse [0x61, 0x61, 0x61, 0x62] = [⟨0x61, 3⟩, ⟨0x62, 1⟩] := by decide +kernel
theorem test_header_aaab :
    headerBytes [⟨0x61, 3⟩, ⟨0x62, 1⟩] = [0x25, 0x25, 0x61, 0x21, 0x21, 0x33, 0x25, 0x25, 0x62, 0x21, 0x21, 0x31,
      0x25, 0x25, 0x2D, 0x2D, 0x2D, 0x2D] ∧ headerLength [⟨0x61, 3⟩, ⟨0x62, 1⟩] = 18 := by decide +kernel
/-- Log 20: a count ARG cannot hold is not loaded. -/
theorem test_count_too_wide_stops :
    (match loadAll 1 .analysed [⟨0x61, 2 ^ 32⟩] State.reset with
      | .error e => decide (e = .countTooWide)
      | .ok _ => false) = true := by decide +kernel
theorem test_parse_rejects_half_terminator :
    parseHeader [0x25, 0x25, 0x61, 0x21, 0x21, 0x33, 0x25, 0x25, 0x2D, 0x2D] = none := by decide +kernel

/-! ## Witnesses: for every statement with hypotheses, values that meet them, clause by clause -/

/-- The step answers a next state. -/
def answers (o : Outcome) : Bool := (nextOf (fun _ => ()) o).isSome

/-- The state several engine steps of a command lead to. -/
def afterTimes (n : Nat) (i : Instr) (s : State) : State := (nextOf id (execTimes n i s)).getD s

/-- `Inv`, with the code table's part taken apart. -/
theorem inv_of {s : State} (h : BufferOk s ∧ RecordOk s ∧
    (s.phase = .built ∨ s.phase = .coded →
      TreeShape s.nodes s.nrec.toNat s.rootIdx ∧ (s.node s.rootIdx).count = s.total) ∧
    engineOk s = true ∧ decoderOk s = true) (hc : s.codes = codesOf s.nodes s.rootIdx ∨ s.phase ≠ .coded) : Machine.Inv s :=
  ⟨h.1, h.2.1, ⟨h.2.2.1, fun hp => hc.resolve_right (fun hn => hn hp)⟩, h.2.2.2⟩

theorem inv_loadedAB : Machine.Inv loadedAB := inv_of (by decide +kernel) (.inr (by decide +kernel))
theorem inv_builtAB_decode : Machine.Inv (pend .decode { builtAB with inq := [0xE0], eos := true }) :=
  inv_of (by decide +kernel) (.inr (by decide +kernel))
theorem inv_codedAB : Machine.Inv codedAB := inv_of (by decide +kernel) (.inl (by simp only [codedAB]))
theorem inv_codedZ : Machine.Inv codedZ := inv_of (by decide +kernel) (.inl (by simp only [codedZ]))

/-- "aaab" in the input FIFO, the last of its stream. -/
def feedAB (s : State) : State := { s with inq := [0x61, 0x61, 0x61, 0x62], eos := true }

theorem witness_DecodeOfEncodeIsTheCommand : (Instr.writeBits 16 0xFFFF).wf = true ∧ (Instr.writeBits 1 1).wf = true := by
  decide
theorem witness_EncodeOfDecodeIsTheWord : decode 0x200F7FFF#32 = .ok (.writeBits 15 0x7FFF) := by decide
theorem witness_WordIsTheCommandItsRowSelects :
    decode 0x20010001#32 = .ok (.writeBits 1 1) ∧
    (⟨"WRITE_BITS", 0x20000000#32, 0xFFE00000#32⟩ : OpcodeRow) ∈ opcodeTable ∧
    rowSelects ⟨"WRITE_BITS", 0x20000000#32, 0xFFE00000#32⟩ 0x20010001#32 := by
  refine ⟨by decide, by decide +kernel, ?_⟩
  unfold rowSelects
  decide +kernel
theorem witness_IllegalWordsAreLatchedAndRaiseIllegalCmd :
    State.reset.eng = .idle ∧ ({ pend .nop State.reset with cmdLast := 0xFF000000 } : State).eng = .pending ∧
    decode 0xFF000000#32 = .error .unassignedOpcode := by decide +kernel
theorem witness_StepRunsTheLatchedCommand :
    (pend .build State.reset).eng ≠ .idle ∧ decode (pend .build State.reset).cmdLast = .ok .build ∧
    (pend .build State.reset).turns = [] ∧
    ({ pend .build State.reset with turns := [.engine] } : State).turns = .engine :: [] ∧
    ({ State.reset with turns := [.host (.read 0 4)] } : State).turns = .host (.read 0 4) :: [] ∧
    ({ State.reset with turns := [.powerOn] } : State).turns = .powerOn :: [] ∧
    State.reset.eng = .idle ∧ State.reset.turns = [] := by decide +kernel
theorem witness_ResetsLeaveTheResetTable : (pend .clear codedAB).eng = .pending := by decide +kernel
theorem witness_RegistersReadTheirResetValues : (Config.mk 1 255 256).Admitted ∧ (Config.mk 255 1 0).Admitted ∧
    ({ State.reset with inq := List.replicate 255 0 } : State).inq.length ≤ 255 ∧
    ({ State.reset with outq := List.replicate 255 0 } : State).outq.length ≤ 255 := by decide +kernel
theorem witness_CtrlWritesResetAbortAndStoreEos :
    (0x7#32).getLsbD 0 = true ∧ (0x4#32).getLsbD 0 = false ∧ (0x4#32).getLsbD 1 = false ∧
    (0x6#32).getLsbD 0 = false ∧ (0x6#32).getLsbD 1 = true ∧ State.reset.eng = .idle ∧
    (pend .nop State.reset).eng ≠ .idle := by decide +kernel
theorem witness_CmdWritesLatchOrOverrun : State.reset.eng = .idle ∧ (pend .nop State.reset).eng ≠ .idle := by
  decide +kernel
theorem witness_InDataWritesPushOrOverflow :
    ({ State.reset with inq := List.replicate 15 0 } : State).inq.length < State.reset.cfg.inDepth ∧
    ¬ ({ State.reset with inq := List.replicate 16 0 } : State).inq.length < State.reset.cfg.inDepth ∧
    ({ State.reset with inq := [0x40] } : State).inq = 0x40 :: [] ∧ State.reset.srCnt = 0 := by decide +kernel
theorem witness_OutDataReadsPop :
    ({ State.reset with outq := [0xAB] } : State).outq = 0xAB :: [] ∧ State.reset.outq = [] ∧
    Reg.inData ≠ .outData := by decide +kernel
theorem witness_ReadOnlyAndReservedWritesAreIgnored :
    Reg.outData ≠ .ctrl ∧ Reg.outData ≠ .status ∧ Reg.outData ≠ .cmd ∧ Reg.outData ≠ .arg ∧ Reg.outData ≠ .inData ∧
    regAt 0x70 = .reserved ∧ regAt 0xFC = .reserved ∧ regAt 0x6C = .codeBits 7 := by decide +kernel
theorem witness_OnlyWholeAlignedAccessesAreAdmitted :
    252 < 256 ∧ 252 % 4 = 0 ∧ 255 < 256 ∧ 255 % 4 ≠ 0 ∧ 2 ≠ 4 := by decide
theorem witness_AccessesOutsideTheWindowFault :
    (255 < ({ base := 256 } : Config).base) ∧ ({ base := 256 } : Config).base + 256 ≤ 512 := by decide
theorem witness_LockedCommandsHaveNoEffect :
    (pend .build { loadedAB with err := .codeMiss }).eng = .pending ∧
    (pend .build { loadedAB with err := .codeMiss }).err ≠ .ok ∧ Instr.build ≠ .nop ∧ Instr.build ≠ .clear ∧
    Instr.build ≠ .ackErr := by decide +kernel
theorem witness_PhaseTableIsEnforced :
    (pend .build State.reset).eng = .pending ∧ (pend .build State.reset).err = .ok ∧ State.reset.phase = .empty ∧
    loadedAB.phase = .loaded ∧ builtAB.phase = .built ∧ codedAB.phase = .coded ∧
    (pend .decode { loadedAB with err := .dupSymbol }).err ≠ .ok ∧ phaseError .decode loadedAB.phase ≠ .ok ∧
    decode ({ pend .nop State.reset with cmdLast := 0x14000100 } : State).cmdLast = .error .mustBeZero := by
  decide +kernel
theorem witness_DispatchErrorsArePrecise :
    (pend (.loadRecord 0x61) loadedAB).eng = .pending ∧ (pend (.loadRecord 0x61) loadedAB).err = .ok ∧
    nextOf State.err (exec (.loadRecord 0x61) (pend (.loadRecord 0x61) loadedAB)) = some .dupSymbol := by decide +kernel
theorem witness_PrimitivesHoldExactlyByTheTable :
    (runs .readBit .readBit State.reset).eng = .running .readBit ∧
    atCall .readBit .readBit (runs .readBit .readBit State.reset) = true ∧
    wouldHold Loc.readBit.prim (runs .readBit .readBit State.reset) = true := by decide +kernel
theorem witness_RunningCommandMovesUnlessItHolds :
    (runs .readBit .readBit State.reset).eng = .running .readBit ∧
    atCall .readBit .readBit (runs .readBit .readBit State.reset) = true ∧
    wouldHold Loc.readBit.prim (runs .readBit .readBit State.reset) = true ∧
    wouldHold Loc.readBit.prim (runs .readBit .readBit { State.reset with eos := true }) = false := by decide +kernel
theorem witness_NopOnlyBecomesIdle :
    (pend .nop State.reset).eng = .pending ∧
    ({ pend .nop State.reset with cmdLast := 1 } : State).eng = .pending ∧ opcOf 0x00000001#32 = 0x00#8 ∧
    (0x00000001#32) ≠ 0 := by decide +kernel
theorem witness_ClearResetsTheCore : (pend .clear codedAB).eng = .pending := by decide +kernel
theorem witness_AckErrRemovesTheLock : (pend .ackErr { codedAB with err := .truncated }).eng = .pending := by
  decide +kernel
theorem witness_LoadRecordAppendsOneRecord :
    (pend (.loadRecord 0x63) loadedAB).eng = .pending ∧ (pend (.loadRecord 0x63) loadedAB).err = .ok ∧
    ({ loadedAB with nrec := 256 } : State).nrec.toNat ≤ 256 ∧ builtAB.phase = .built ∧ loadedAB.phase = .loaded ∧
    loadedAB.loaded.getLsbD (0x61#8).toNat = true ∧ loadedAB.loaded.getLsbD (0x63#8).toNat = false ∧
    ({ loadedAB with cmdArg := 0xFFFFFFFC } : State).total.toNat + (0xFFFFFFFC#32).toNat > 2 ^ 32 - 1 ∧
    ({ loadedAB with cmdArg := 0xFFFFFFFB } : State).total.toNat + (0xFFFFFFFB#32).toNat ≤ 2 ^ 32 - 1 := by
  decide +kernel
theorem witness_BuildCompletesWithRootAtTwoNMinusTwo :
    (pend .build loadedAB).eng = .pending ∧ (pend .build loadedAB).err = .ok ∧ (pend .build loadedAB).phase = .loaded ∧
    1 ≤ ({ loadedAB with nrec := 1 } : State).nrec.toNat ∧ ({ loadedAB with nrec := 256 } : State).nrec.toNat ≤ 256 := by
  decide +kernel
theorem witness_BuildMakesATreeOverTheRecords :
    RecordOk (pend .build loadedAB) ∧ (pend .build loadedAB).eng = .pending ∧ (pend .build loadedAB).err = .ok ∧
    (pend .build loadedAB).phase = .loaded ∧ answers (exec .build (pend .build loadedAB)) = true := by decide +kernel
theorem witness_ExtractMinTakesTheLeastKey : [0, 1] ≠ ([] : List Nat) ∧ [0, 1].Nodup := by decide
theorem witness_BuildMergesTheTwoLeastKeys :
    RecordOk (pend .build loadedABC) ∧ (pend .build loadedABC).eng = .pending ∧ (pend .build loadedABC).err = .ok ∧
    (pend .build loadedABC).phase = .loaded ∧ (pend .build loadedABC).nrec.toNat ≤ 3 ∧
    4 ≤ 2 * (pend .build loadedABC).nrec.toNat - 2 ∧
    nextOf (fun t => ((readNode t.nodes 3).left, (readNode t.nodes 3).right, (readNode t.nodes 4).left,
      (readNode t.nodes 4).right)) (exec .build (pend .build loadedABC)) = some (2, 0, 1, 3) := by decide +kernel
theorem witness_BuildDependsOnTheRecordsAlone :
    RecordOk (pend .build loadedAB) ∧ RecordOk (pend .build { loadedAB with arg := 9 }) ∧
    (pend .build { loadedAB with arg := 9 }).eng = .pending ∧ (pend .build { loadedAB with arg := 9 }).err = .ok ∧
    (pend .build { loadedAB with arg := 9 }).phase = .loaded ∧
    answers (exec .build (pend .build loadedAB)) = true ∧
    answers (exec .build (pend .build { loadedAB with arg := 9 })) = true := by decide +kernel
theorem witness_QueryNodeCopiesOneEntry :
    (pend (.queryNode 2) builtAB).eng = .pending ∧ (pend (.queryNode 2) builtAB).err = .ok ∧ builtAB.phase = .built ∧
    (2 : Index) ≤ builtAB.rootIdx ∧ ¬ (3 : Index) ≤ builtAB.rootIdx ∧ loadedAB.phase = .loaded := by decide +kernel
theorem witness_GenCodesRecordsThePathOfEachLeaf :
    (pend .genCodes builtAB).eng = .pending ∧ (pend .genCodes builtAB).err = .ok ∧
    (pend .genCodes builtAB).phase = .built ∧ RecordOk (pend .genCodes builtAB) ∧ TreeOk (pend .genCodes builtAB) ∧
    nextOf (fun t => ((t.code 0x61).valid, (t.code 0x63).valid)) (exec .genCodes (pend .genCodes builtAB)) =
      some (true, false) := by decide +kernel
theorem witness_GeneratedCodesArePrefixFree :
    RecordOk (pend .genCodes builtAB) ∧ TreeOk (pend .genCodes builtAB) ∧ 2 ≤ (pend .genCodes builtAB).nrec.toNat ∧
    nextOf (fun t => ((t.code 0x61).valid, (t.code 0x62).valid)) (exec .genCodes (pend .genCodes builtAB)) =
      some (true, true) ∧
    RecordOk (pend .genCodes builtZ) ∧ TreeOk (pend .genCodes builtZ) ∧ (pend .genCodes builtZ).nrec.toNat = 1 ∧
    nextOf (fun t => (t.code 0x7A).valid) (exec .genCodes (pend .genCodes builtZ)) = some true := by decide +kernel
theorem witness_QueryCodeCopiesOneEntry :
    (pend (.queryCode 0x61) codedAB).eng = .pending ∧ (pend (.queryCode 0x61) codedAB).err = .ok ∧
    builtAB.phase ≠ .coded ∧ codedAB.phase = .coded ∧
    (({ codedAB with codes := writeCode emptyCodes 0x61 ⟨true, List.replicate 255 true⟩ } : State).code
      0x61).bits.length ≤ 255 := by decide +kernel
theorem witness_WriteBitAppendsAndReadBitTakesOneBit :
    WriterOk { State.reset with acc := 0xCC, accCnt := 7 } ∧
    writeBit true { State.reset with acc := 0xCC, accCnt := 7 } ≠ .hold ∧
    ReaderOk { State.reset with sr := 0xA0, srCnt := 4 } ∧ readBit { State.reset with sr := 0xA0, srCnt := 4 } ≠ .eof ∧
    readBit { State.reset with sr := 0xA0, srCnt := 4 } ≠ .hold ∧ readBit { State.reset with eos := true } = .eof := by
  decide +kernel
theorem witness_WriteBitsWritesItsBitsMsbFirst :
    (Instr.writeBits 16 0xFFFF).wf = true ∧ WriterOk (pend (.writeBits 16 0xFFFF) State.reset) ∧
    Begins (.writeBits 16 0xFFFF) (pend (.writeBits 16 0xFFFF) State.reset) ∧
    0 + (0 + 16) / 8 ≤ ({ outDepth := 2 } : Config).outDepth ∧
    (runs (.writeBits 16 0xFFFF) (.writeBits 0) State.reset).eng = .running (.writeBits 0) ∧
    State.reset.accCnt.toNat < 7 ∧ WriterOk { State.reset with acc := 0xFE, accCnt := 7 } ∧
    State.reset.outq.length < State.reset.cfg.outDepth := by decide +kernel
theorem witness_FlushPadsTheLastByteWithZeros :
    Begins .flush (pend .flush State.reset) ∧ (runs .flush .flush State.reset).eng = .running .flush ∧
    State.reset.accCnt = 0 ∧ ({ State.reset with acc := 0xA0, accCnt := 3 } : State).accCnt ≠ 0 ∧
    WriterOk { State.reset with acc := 0xA0, accCnt := 3 } ∧
    ({ State.reset with outq := List.replicate 16 0 } : State).outq.length = State.reset.cfg.outDepth ∧
    State.reset.outq.length ≠ State.reset.cfg.outDepth := by decide +kernel
theorem witness_ReadBitReturnsTheNextBitOrTwo :
    Begins .readBit (pend .readBit State.reset) ∧ (runs .readBit .readBit State.reset).eng = .running .readBit ∧
    ({ State.reset with sr := 0x80, srCnt := 1 } : State).srCnt ≠ 0 ∧ State.reset.srCnt = 0 ∧
    ({ State.reset with inq := [0x80] } : State).inq = 0x80 :: [] ∧ State.reset.inq = [] ∧ State.reset.eos = false ∧
    ({ State.reset with eos := true } : State).eos = true := by decide +kernel
theorem witness_SkipBitsDropsItsBits :
    ReaderOk (pend (.skipBits 8) { State.reset with inq := [0xAA], eos := true }) ∧
    Begins (.skipBits 8) (pend (.skipBits 8) { State.reset with inq := [0xAA], eos := true }) ∧
    Begins (.skipBits 0) (pend (.skipBits 0) State.reset) ∧
    (8#24).toNat ≤ (inStream (pend (.skipBits 8) { State.reset with inq := [0xAA], eos := true })).length ∧
    (inStream (pend (.skipBits 9) { State.reset with inq := [0xAA], eos := true })).length < (9#24).toNat := by
  decide +kernel
theorem witness_SkipBitsCountsEachBit :
    (runs (.skipBits 2) (.skipBits 0) State.reset).eng = .running (.skipBits 0) ∧ 0 < (2#24).toNat ∧
    ({ State.reset with sr := 0x80, srCnt := 1 } : State).srCnt ≠ 0 ∧ 0 + 1 < (2#24).toNat ∧ 1 + 1 = (2#24).toNat ∧
    State.reset.srCnt = 0 ∧ State.reset.inq = [] ∧ State.reset.eos = false ∧
    ({ State.reset with eos := true } : State).eos = true ∧
    ({ State.reset with inq := [0xAA] } : State).inq = 0xAA :: [] := by decide +kernel
theorem witness_AlignReadEmptiesTheShiftRegister :
    Begins .alignRead (pend .alignRead { State.reset with sr := 0x80, srCnt := 2 }) := by decide +kernel
theorem witness_EncodeSymWritesTheCode :
    WriterOk (pend (.encodeSym 0x61) codedAB) ∧ Begins (.encodeSym 0x61) (pend (.encodeSym 0x61) codedAB) ∧
    (codedAB.code 0x63).valid = false ∧ (codedZ.code 0x7A).valid = true ∧ (codedZ.code 0x7A).bits = [] ∧
    Begins (.encodeSym 0x7A) (pend (.encodeSym 0x7A) codedZ) ∧
    (codedAB.code 0x61).valid = true ∧ (codedAB.code 0x61).bits ≠ [] ∧ (codedAB.code 0x61).bits[0]? = some true ∧
    0 + 1 = (codedAB.code 0x61).bits.length ∧ codedAB.accCnt.toNat < 7 ∧
    codedAB.outq.length + (codedAB.accCnt.toNat + (codedAB.code 0x61).bits.length) / 8 ≤ codedAB.cfg.outDepth := by
  decide +kernel
theorem witness_EncodeStreamPopsBytesUntilEnd :
    Begins .encodeStream (pend .encodeStream codedAB) ∧
    (runs .encodeStream (.streamPop 3) codedAB).eng = .running (.streamPop 3) ∧ codedAB.inq = [] ∧
    codedAB.eos = false ∧ (feedAB codedAB).eos = true ∧ (feedAB codedAB).inq = 0x61 :: [0x61, 0x61, 0x62] ∧
    codedAB.err = .ok ∧ (codedAB.code 0x63).valid = false ∧ (codedZ.code 0x7A).bits = [] ∧
    (runs .encodeStream (.streamWrite 3 0x61 0) codedAB).eng = .running (.streamWrite 3 0x61 0) ∧
    (codedAB.code 0x61).bits[0]? = some true ∧ codedAB.accCnt.toNat < 7 ∧
    ({ codedAB with accCnt := 7 } : State).accCnt.toNat = 7 ∧ codedAB.outq.length ≠ codedAB.cfg.outDepth ∧
    ({ codedAB with outq := List.replicate 16 0 } : State).outq.length = codedAB.cfg.outDepth := by decide +kernel
theorem witness_EncodeStreamWritesTheCodesInOrder :
    WriterOk (pend .encodeStream (feedAB codedAB)) ∧ Begins .encodeStream (pend .encodeStream (feedAB codedAB)) ∧
    (feedAB codedAB).eos = true ∧ ((feedAB codedAB).inq.all fun v => ((feedAB codedAB).code v).valid) = true ∧
    (feedAB codedAB).outq.length + ((feedAB codedAB).accCnt.toNat +
      ((feedAB codedAB).inq.flatMap fun v => ((feedAB codedAB).code v).bits).length) / 8 ≤
      (feedAB codedAB).cfg.outDepth := by decide +kernel
theorem witness_DecodeWalksTheTreeBitByBit :
    Begins .decode (pend .decode builtAB) ∧ (builtAB.node builtAB.rootIdx).count ≠ 0 ∧
    Begins .decode (pend .decode { builtAB with nodes := writeNode builtAB.nodes 2 ⟨.internal, 0, 0, 1, 0⟩ }) ∧
    (({ builtAB with nodes := writeNode builtAB.nodes 2 ⟨.internal, 0, 0, 1, 0⟩ } : State).node 2).count = 0 ∧
    (runs .decode (.decodeRead 0) { builtAB with decRemain := 4 }).eng = .running (.decodeRead 0) ∧
    ({ builtAB with decRemain := 4 } : State).decRemain ≠ 0 ∧
    readBit { builtAB with sr := 0x80, srCnt := 1 } ≠ .hold ∧ readBit { builtAB with sr := 0x80, srCnt := 1 } ≠ .eof ∧
    readBit { builtAB with eos := true } = .eof ∧ builtAB.err = .ok ∧
    (runs .decode (.decodeEmit 0) builtAB).eng = .running (.decodeEmit 0) ∧
    (runs .decode (.decodeEmitRoot 0) codedZ).eng = .running (.decodeEmitRoot 0) ∧
    builtAB.outq.length ≠ builtAB.cfg.outDepth := by decide +kernel
theorem witness_DecodeInvertsTheCodes :
    Machine.Inv (pend .decode { builtAB with inq := [0xE0], eos := true }) ∧
    Begins .decode (pend .decode { builtAB with inq := [0xE0], eos := true }) ∧
    ([0x61#8, 0x61#8, 0x61#8, 0x62#8].all fun v => (builtAB.treeCode v).valid) = true ∧
    [0x61#8, 0x61#8, 0x61#8, 0x62#8].length = builtAB.total.toNat ∧
    inStream { builtAB with inq := [0xE0] } =
      ([0x61#8, 0x61#8, 0x61#8, 0x62#8].flatMap fun v => (builtAB.treeCode v).bits) ++ [false, false, false, false] ∧
    builtAB.outq.length + 4 ≤ builtAB.cfg.outDepth := ⟨inv_builtAB_decode, by decide +kernel⟩

/-- The first session of the round trip, after ENCODE_STREAM and after FLUSH: 1 + 5 + 4 steps (V1.12). -/
def encodedAB : State := afterTimes 10 .encodeStream (pend .encodeStream (feedAB codedAB))
def flushedAB : State := afterTimes 2 .flush (hostWrite .cmd (encode .flush) encodedAB)

theorem witness_EncodeThenDecodeGivesBackTheBytes :
    Machine.Inv (pend .encodeStream (feedAB codedAB)) ∧
    Machine.Inv (pend .decode { builtAB with inq := [0xE0], eos := true }) ∧
    answers (execTimes 10 .encodeStream (pend .encodeStream (feedAB codedAB))) = true ∧
    answers (execTimes 2 .flush (hostWrite .cmd (encode .flush) encodedAB)) = true ∧ flushedAB.outq = [0xE0] ∧
    2 + 4 + ((feedAB codedAB).inq.flatMap fun v => ((feedAB codedAB).code v).bits).length = 10 ∧
    builtAB.total.toNat = (feedAB codedAB).inq.length ∧ builtAB.srCnt = 0 ∧
    (feedAB codedAB).outq = [] ∧ (feedAB codedAB).accCnt = 0 ∧ builtAB.nodes = codedAB.nodes :=
  ⟨inv_of (by decide +kernel) (.inl (by simp only [pend, feedAB, codedAB])), inv_builtAB_decode, by decide +kernel, by decide +kernel, by decide +kernel,
    by decide +kernel, by decide +kernel, by decide +kernel, by decide +kernel, by decide +kernel, rfl⟩
theorem witness_ResetMeetsEveryInvariant : (Config.mk 255 255 512).Admitted := by decide
theorem witness_StepKeepsBuffersInBounds :
    BufferOk { State.reset with turns := [.host (.write 0x18 4 0xAA)] } ∧
    answers (step { State.reset with turns := [.host (.write 0x18 4 0xAA)] }) = true := by decide +kernel
theorem witness_StepNeverStopsAndKeepsTheEngineInPlace :
    engineOk (runs (.skipBits 9) (.skipBits 8) State.reset) = true ∧
    nextTurnAdmitted { State.reset with turns := [.host (.write 0xFC 4 0)] } = true := by decide +kernel
theorem witness_StepKeepsEveryInvariant :
    Machine.Inv (pend .build loadedAB) ∧ answers (step (pend .build loadedAB)) = true ∧ Machine.Inv codedAB ∧
    Machine.Inv codedZ :=
  ⟨inv_of (by decide +kernel) (.inr (by decide +kernel)), by decide +kernel, inv_codedAB, inv_codedZ⟩
theorem witness_ErrorIsKeptUntilAcknowledgedOrReset :
    (pend .ackErr { State.reset with err := .aborted }).err ≠ .ok ∧
    nextOf State.err (step (pend .ackErr { State.reset with err := .aborted })) = some .ok := by decide +kernel
theorem witness_PhaseChangesOnlyAlongThePipeline :
    nextOf State.phase (step (pend .build loadedAB)) = some .built ∧
    nextOf State.phase (step (pend .genCodes builtAB)) = some .coded ∧
    nextOf State.phase (step (pend (.loadRecord 0x61) State.reset)) = some .loaded ∧
    nextOf State.phase (step (pend .clear codedAB)) = some .empty := by decide +kernel
theorem witness_ResultIsWrittenOnlyOnCompletion :
    nextOf State.result (exec .readBit (runs .readBit .readBit { State.reset with eos := true })) = some 2 ∧
    State.reset.result ≠ 2 ∧ Instr.readBit ≠ .clear := by decide +kernel
theorem witness_UnwrittenStorageIsUnobservable :
    Machine.Inv loadedAB ∧ SameVisible loadedAB { loadedAB with nodes := writeNode loadedAB.nodes 2 ⟨.internal, 7, 7, 7, 7⟩ } ∧
    answers (step loadedAB) = true := ⟨inv_loadedAB, ⟨rfl, by decide +kernel, fun _ => rfl⟩, by decide +kernel⟩
theorem witness_TableAndControlCommandsFrame :
    answers (exec .nop (pend .nop builtAB)) = true ∧ answers (exec .ackErr (pend .ackErr builtAB)) = true ∧
    answers (exec (.loadRecord 0x63) (pend (.loadRecord 0x63) loadedAB)) = true ∧
    answers (exec .build (pend .build loadedAB)) = true ∧ answers (exec .genCodes (pend .genCodes builtAB)) = true ∧
    answers (exec (.queryNode 2) (pend (.queryNode 2) builtAB)) = true ∧
    answers (exec (.queryCode 0x61) (pend (.queryCode 0x61) codedAB)) = true ∧
    answers (exec .alignRead (pend .alignRead builtAB)) = true := by decide +kernel
theorem witness_WriterCommandsFrame :
    answers (exec (.writeBits 1 1) (runs (.writeBits 1 1) (.writeBits 0) State.reset)) = true ∧
    answers (exec .flush (runs .flush .flush { State.reset with acc := 0x80, accCnt := 1 })) = true ∧
    answers (exec (.encodeSym 0x61) (runs (.encodeSym 0x61) (.encodeSym 0) codedAB)) = true ∧
    answers (exec .encodeStream (runs .encodeStream (.streamPop 0) (feedAB codedAB))) = true := by decide +kernel
theorem witness_ReaderCommandsFrame :
    answers (exec .readBit (runs .readBit .readBit { State.reset with inq := [0x80] })) = true ∧
    answers (exec (.skipBits 2) (runs (.skipBits 2) (.skipBits 0) { State.reset with inq := [0x80] })) = true ∧
    answers (exec .decode (runs .decode (.decodeRead 0) { builtAB with decCur := 2, decRemain := 4, inq := [0xE0] })) =
      true := by decide +kernel
theorem witness_ParsingAWrittenHeaderGivesItsRecords : (⟨0x2D, 2 ^ 32 - 1⟩ : FreqRecord).count ≤ 2 ^ 32 - 1 := by decide

end Sys2Proof.Tests
end

section
/-! PROOFS. The order of keys (R11) as a library linear order, what `argmin` and `extractMin` answer in that order (R102,
R103), and O28 from these. -/

namespace Sys2Proof.Machine

/-! ## The key order -/

/-- The key (COUNT, index) of an arena entry (R11), in Mathlib's lexicographic order. -/
def nodeKey (nodes : Vector Node 511) (i : Nat) : ℕ ×ₗ ℕ :=
  toLex ((readNode nodes i).count.toNat, i)

theorem nodeKey_lt_iff (nodes : Vector Node 511) (i j : Nat) :
    nodeKey nodes i < nodeKey nodes j ↔
      (readNode nodes i).count.toNat < (readNode nodes j).count.toNat ∨
      ((readNode nodes i).count = (readNode nodes j).count ∧ i < j) := by
  simp only [nodeKey, Prod.Lex.toLex_lt_toLex, BitVec.toNat_inj]

@[simp] theorem keyBefore_iff_nodeKey_lt (nodes : Vector Node 511) (i j : Nat) :
    keyBefore nodes i j = true ↔ nodeKey nodes i < nodeKey nodes j := by
  simp [keyBefore, nodeKey_lt_iff]

/-- The index is part of the key, so no two entries have equal keys. -/
theorem nodeKey_injective (nodes : Vector Node 511) : Function.Injective (nodeKey nodes) :=
  fun _ _ h => congrArg (fun k => (ofLex k).2) h

/-! ## The least element -/

theorem argmin_mem (nodes : Vector Node 511) (i : Nat) (rest : List Nat) :
    argmin nodes i rest ∈ i :: rest := by
  induction rest generalizing i with
  | nil => exact List.mem_singleton_self i
  | cons j rest ih =>
    rw [argmin]
    split
    case isTrue => exact List.mem_cons_of_mem i (ih j)
    case isFalse => exact List.cons_subset_cons i (List.subset_cons_self j rest) (ih i)

theorem nodeKey_argmin_le (nodes : Vector Node 511) (i : Nat) (rest : List Nat) :
    ∀ k ∈ i :: rest, nodeKey nodes (argmin nodes i rest) ≤ nodeKey nodes k := by
  induction rest generalizing i with
  | nil => simp [argmin]
  | cons j rest ih =>
    rw [argmin]
    split
    case isTrue hji =>
      have hmin := List.forall_mem_cons.mp (ih j)
      have hi := hmin.1.trans ((keyBefore_iff_nodeKey_lt nodes j i).mp hji).le
      exact List.forall_mem_cons.mpr ⟨hi, ih j⟩
    case isFalse hji =>
      obtain ⟨hi, hrest⟩ := List.forall_mem_cons.mp (ih i)
      have hj := hi.trans (not_lt.mp (mt (keyBefore_iff_nodeKey_lt nodes j i).mpr hji))
      exact List.forall_mem_cons.mpr ⟨hi, List.forall_mem_cons.mpr ⟨hj, hrest⟩⟩

/-! ## What extractMin answers -/

theorem exists_extractMin_eq_some (nodes : Vector Node 511) {heap : List Nat} (hne : heap ≠ []) :
    ∃ m rest, extractMin nodes heap = some (m, rest) := by
  cases heap with
  | nil => exact absurd rfl hne
  | cons i rest => exact ⟨_, _, rfl⟩

section
variable {nodes : Vector Node 511} {heap rest : List Nat} {m : Nat}

/-- All that `extractMin` says of its answer; distinct heap entries are not needed. -/
theorem extractMin_spec (h : extractMin nodes heap = some (m, rest)) :
    m ∈ heap ∧ rest = heap.erase m ∧ ∀ k ∈ heap, nodeKey nodes m ≤ nodeKey nodes k := by
  cases heap with
  | nil => simp [extractMin] at h
  | cons i tail =>
    obtain ⟨rfl, rfl⟩ : argmin nodes i tail = m ∧ (i :: tail).erase (argmin nodes i tail) = rest := by
      simpa only [extractMin, Option.some.injEq, Prod.mk.injEq] using h
    exact ⟨argmin_mem nodes i tail, rfl, nodeKey_argmin_le nodes i tail⟩

theorem extractMin_perm (h : extractMin nodes heap = some (m, rest)) : heap.Perm (m :: rest) := by
  obtain ⟨hm, rfl, -⟩ := extractMin_spec h
  exact List.perm_cons_erase hm

theorem extractMin_nodeKey_lt (h : extractMin nodes heap = some (m, rest)) {k : Nat} (hk : k ∈ heap) (hkm : k ≠ m) :
    nodeKey nodes m < nodeKey nodes k := by
  obtain ⟨-, -, hle⟩ := extractMin_spec h
  exact (hle k hk).lt_of_ne ((nodeKey_injective nodes).ne hkm.symm)

end

/-- Settles O28: the least element of a list in a linear order of distinct keys, found by `argmin`. A second element
below all others would have a key below that of `m`, and `m`'s key is least. -/
theorem extractMinTakesTheLeastKey : Obligations.ExtractMinTakesTheLeastKey := by
  unfold Obligations.ExtractMinTakesTheLeastKey
  intro nodes heap hne _
  simp only [← nodeKey_lt_iff]
  obtain ⟨m, rest, h⟩ := exists_extractMin_eq_some nodes hne
  obtain ⟨hm, -, hle⟩ := extractMin_spec h
  refine ⟨m, rest, h, hm, extractMin_perm h, fun j hj hjm => extractMin_nodeKey_lt h hj hjm, ?_⟩
  intro m' hm' hleast
  by_contra hne'
  exact (hleast m hm (Ne.symm hne')).not_ge (hle m' hm')

end Sys2Proof.Machine
end

section
/-! PROOFS. One engine step of any command, said once: the pseudocode it dispatches to, the phases that admit it, and
everything a step at a call of a holding primitive can do. -/

namespace Sys2Proof.Machine

/-! ## Every command is an engine step -/

/-- The pseudocode of each command up to its first call of a holding primitive. -/
def commandBody : Instr → State → State
  | .nop => finish
  | .clear => fun s => finish (resetCore s)
  | .ackErr => fun s => finish (acknowledge s)
  | .loadRecord sym => loadRecordBody sym
  | .build => buildBody
  | .genCodes => genCodesBody
  | .queryNode idx => queryNodeBody idx
  | .queryCode sym => queryCodeBody sym
  | .writeBits nb _ => writeBitsLoop nb.toNat
  | .flush => goTo .flush
  | .readBit => goTo .readBit
  | .skipBits n => skipLoop n 0
  | .alignRead => fun s => finish { s with sr := 0, srCnt := 0 }
  | .encodeSym sym => encodeSymBody sym
  | .encodeStream => goTo (.streamPop 0)
  | .decode => decodeBody

/-- What each command does at its calls; the commands without a call have none. -/
def commandResume : Instr → Loc → State → Option State
  | .writeBits _ v => writeBitsResume v
  | .flush => flushResume
  | .readBit => readBitResume
  | .skipBits n => skipResume n
  | .encodeSym sym => encodeSymResume sym
  | .encodeStream => encodeStreamResume
  | .decode => decodeResume
  | .nop | .clear | .ackErr | .loadRecord _ | .build | .genCodes | .queryNode _ | .queryCode _ | .alignRead => noCalls

theorem exec_eq_engineStep (i : Instr) (s : State) :
    exec i s = engineStep i (commandBody i) (commandResume i) s := by
  cases i <;> rfl

/-- The ends of an engine step that answers a next state: no effect, an error of the phase table, the pseudocode up to
its first call, or a step at a call. -/
theorem exec_next {i : Instr} {s t : State} (h : exec i s = .next t) :
    (t = finish s ∧ lockedOut i.opc s = true) ∨ t = raise (phaseError i s.phase) s ∨
    (t = commandBody i s ∧ lockedOut i.opc s = false ∧ phaseError i s.phase = .ok) ∨
    (∃ loc, s.eng = .running loc ∧ commandResume i loc s = some t) := by
  rw [exec_eq_engineStep] at h
  rcases engineStep_next h with ⟨-, rfl⟩ | ⟨loc, heng, hres⟩
  · rcases dispatch_cases i (commandBody i) s with ⟨hl, hd⟩ | ⟨-, -, hd⟩ | ⟨hl, hp, hd⟩
    · exact .inl ⟨hd, hl⟩
    · exact .inr (.inl hd)
    · exact .inr (.inr (.inl ⟨hd, hl, hp⟩))
  · exact .inr (.inr (.inr ⟨loc, heng, hres⟩))

/-- The dispatch step of an admitted command is its pseudocode up to the first call. -/
theorem exec_of_begins {i : Instr} {s : State} (h : Begins i s) : exec i s = .next (commandBody i s) := by
  obtain ⟨heng, hlock, hphase⟩ := h
  rw [exec_eq_engineStep, engineStep_pending heng, dispatch_of_admitted _ hlock hphase]

theorem lockedOut_of_ok (opc : Byte) {s : State} (h : s.err = .ok) : lockedOut opc s = false := by
  simp [lockedOut, h]

/-! ## The phases a command is admitted in (R73) -/

section
variable {p : Phase} {sym : Byte} {idx : Index}

theorem phaseError_loadRecord_iff : phaseError (.loadRecord sym) p = .ok ↔ p = .empty ∨ p = .loaded := by
  cases p <;> simp [phaseError]

theorem phaseError_build_iff : phaseError .build p = .ok ↔ p = .loaded := by
  cases p <;> simp [phaseError]

theorem phaseError_genCodes_iff : phaseError .genCodes p = .ok ↔ p = .built ∨ p = .coded := by
  cases p <;> simp [phaseError]

theorem phaseError_queryNode_iff : phaseError (.queryNode idx) p = .ok ↔ p = .built ∨ p = .coded := by
  cases p <;> simp [phaseError]

theorem phaseError_decode_iff : phaseError .decode p = .ok ↔ p = .built ∨ p = .coded := by
  cases p <;> simp [phaseError]

theorem phaseError_queryCode_iff : phaseError (.queryCode sym) p = .ok ↔ p = .coded := by
  cases p <;> simp [phaseError]

theorem phaseError_encodeSym_iff : phaseError (.encodeSym sym) p = .ok ↔ p = .coded := by
  cases p <;> simp [phaseError]

theorem phaseError_encodeStream_iff : phaseError .encodeStream p = .ok ↔ p = .coded := by
  cases p <;> simp [phaseError]

end

/-! ## Steps at a call -/

/-- Everything an engine step at a call can do: it holds and changes nothing, or the primitive completes and the
pseudocode runs on to the next call. -/
inductive CallStep : Instr → Loc → State → State → Prop
  | held {i loc s} : CallStep i loc s s
  | writeBits {nb v j s s'} (h : writeBit (v.getLsbD j) s = .done s') :
      CallStep (.writeBits nb v) (.writeBits j) s (writeBitsLoop j s')
  | flush {s s'} (h : flushByte s = .done s') : CallStep .flush .flush s (finish s')
  | readEof {s} (h : readBit s = .eof) : CallStep .readBit .readBit s (complete 2 s)
  | readBit {b s s'} (h : readBit s = .bit b s') : CallStep .readBit .readBit s (complete (bitVal 32 b) s')
  | skipEof {n k s} (h : Machine.readBit s = .eof) :
      CallStep (.skipBits n) (.skipBits k) s (complete (BitVec.ofNat 32 k) s)
  | skipBit {n k b s s'} (h : Machine.readBit s = .bit b s') :
      CallStep (.skipBits n) (.skipBits k) s (skipLoop n (k + 1) s')
  | encodeSym {sym j s s'} (h : writeBit (codeBit (s.code sym).bits j) s = .done s') :
      CallStep (.encodeSym sym) (.encodeSym j) s (encodeSymLoop sym (j + 1) s')
  | streamEnd {cnt s} (h : popByte s = .finished) : CallStep .encodeStream (.streamPop cnt) s (complete cnt s)
  | streamByte {cnt v s s'} (h : popByte s = .byte v s') :
      CallStep .encodeStream (.streamPop cnt) s (streamByte cnt v s')
  | streamWrite {cnt v j s s'} (h : writeBit (codeBit (s.code v).bits j) s = .done s') :
      CallStep .encodeStream (.streamWrite cnt v j) s (streamLoop cnt v (j + 1) s')
  | decodeEmitRoot {e s s'} (h : emit (s.node s.rootIdx).sym s = .done s') :
      CallStep .decode (.decodeEmitRoot e) s (decodeRootLoop (e + 1) { s' with decRemain := s'.decRemain - 1 })
  | decodeEof {e s} (h : Machine.readBit s = .eof) : CallStep .decode (.decodeRead e) s (raise .truncated s)
  | decodeBit {e b s s'} (h : Machine.readBit s = .bit b s') : CallStep .decode (.decodeRead e) s (decodeMove e b s')
  | decodeEmit {e s s'} (h : emit (s.node s.decCur).sym s = .done s') :
      CallStep .decode (.decodeEmit e) s
        (decodeLoop (e + 1) { s' with decRemain := s'.decRemain - 1, decCur := s'.rootIdx })

/-- A call that pushes holds, or completes and runs on. -/
theorem callStep_afterPush {i : Instr} {loc : Loc} {p : Pushed} {rest : State → State} {s : State}
    (h : ∀ s', p = .done s' → CallStep i loc s (rest s')) : CallStep i loc s (afterPush p rest s) := by
  cases p with
  | hold => exact .held
  | done s' => exact h s' rfl

/-- A call that reads a bit holds, meets the end, or completes and runs on. -/
theorem callStep_of_commandResume {i : Instr} {loc : Loc} {s t : State} (h : commandResume i loc s = some t) :
    CallStep i loc s t := by
  cases i <;> cases loc <;>
    simp only [commandResume, noCalls, writeBitsResume, flushResume, readBitResume, skipResume, encodeSymResume,
      encodeStreamResume, decodeResume, reduceCtorEq, Option.some.injEq] at h
  case writeBits.writeBits => subst h; exact callStep_afterPush fun _ => .writeBits
  case flush.flush => subst h; exact callStep_afterPush fun _ => .flush
  case readBit.readBit =>
    cases hr : readBit s <;> simp only [hr, Option.some.injEq] at h <;> subst h
    case hold => exact .held
    case eof => exact .readEof hr
    case bit => exact .readBit hr
  case skipBits.skipBits =>
    cases hr : readBit s <;> simp only [hr, Option.some.injEq] at h <;> subst h
    case hold => exact .held
    case eof => exact .skipEof hr
    case bit => exact .skipBit hr
  case encodeSym.encodeSym => subst h; exact callStep_afterPush fun _ => .encodeSym
  case encodeStream.streamPop =>
    cases hr : popByte s <;> simp only [hr, Option.some.injEq] at h <;> subst h
    case hold => exact .held
    case finished => exact .streamEnd hr
    case byte => exact .streamByte hr
  case encodeStream.streamWrite => subst h; exact callStep_afterPush fun _ => .streamWrite
  case decode.decodeEmitRoot => subst h; exact callStep_afterPush fun _ => .decodeEmitRoot
  case decode.decodeRead =>
    cases hr : readBit s <;> simp only [hr, Option.some.injEq] at h <;> subst h
    case hold => exact .held
    case eof => exact .decodeEof hr
    case bit => exact .decodeBit hr
  case decode.decodeEmit => subst h; exact callStep_afterPush fun _ => .decodeEmit

end Sys2Proof.Machine
end

section
/-! PROOFS. The merge of R102 as a forest that grows: what one merge does to it, the tree it ends as (R39), and O27. -/

namespace Sys2Proof.Machine

/-! ## The merge loop, one round at a time -/

theorem mergeLoop_singleton (fuel r next : Nat) (nodes : Vector Node 511) :
    mergeLoop fuel [r] next nodes = ([r], nodes) := by
  cases fuel with
  | zero => rfl
  | succ fuel => simp [mergeLoop, extractMin, argmin]

section
variable {nodes nodes' : Vector Node 511}

theorem argmin_congr {i : Nat} {rest : List Nat} (h : ∀ j ∈ i :: rest, readNode nodes' j = readNode nodes j) :
    argmin nodes' i rest = argmin nodes i rest := by
  induction rest generalizing i with
  | nil => rfl
  | cons j rest ih =>
    have hi := h i (by simp)
    have hj := h j (by simp)
    have hrest : ∀ k ∈ rest, readNode nodes' k = readNode nodes k := fun k hk => h k (by simp [hk])
    rw [argmin, argmin, ih (List.forall_mem_cons.mpr ⟨hi, hrest⟩), ih (List.forall_mem_cons.mpr ⟨hj, hrest⟩)]
    have hkey : keyBefore nodes' j i = keyBefore nodes j i := by rw [keyBefore, keyBefore, hi, hj]
    rw [hkey]

theorem extractMin_congr {heap : List Nat} (h : ∀ j ∈ heap, readNode nodes' j = readNode nodes j) :
    extractMin nodes' heap = extractMin nodes heap := by
  cases heap with
  | nil => rfl
  | cons i rest => rw [extractMin, extractMin, argmin_congr h]

end

/-- A round of the loop with two or more elements in H merges two of them, whatever the entries outside H hold. -/
theorem exists_mergeLoop_succ (nodes : Vector Node 511) {heap : List Nat} (h : 2 ≤ heap.length) :
    ∃ a b rest, heap.Perm (a :: b :: rest) ∧ ∀ nodes', (∀ j ∈ heap, readNode nodes' j = readNode nodes j) →
      ∀ fuel next, mergeLoop (fuel + 1) heap next nodes' =
        mergeLoop fuel (rest ++ [next]) (next + 1) (writeNode nodes' next (mergedNode nodes a b)) := by
  obtain ⟨a, heapA, ha⟩ := exists_extractMin_eq_some nodes (heap := heap) (by rintro rfl; simp at h)
  have hpa := extractMin_perm ha
  have hlen := hpa.length_eq
  obtain ⟨b, rest, hb⟩ := exists_extractMin_eq_some nodes (heap := heapA) (by rintro rfl; simp at hlen; omega)
  have hp := hpa.trans ((extractMin_perm hb).cons a)
  refine ⟨a, b, rest, hp, fun nodes' heq fuel next => ?_⟩
  have hsame : ∀ j ∈ heapA, readNode nodes' j = readNode nodes j := fun j hj =>
    heq j (hpa.mem_iff.mpr (List.mem_cons_of_mem a hj))
  have hmerged : mergedNode nodes' a b = mergedNode nodes a b := by
    rw [mergedNode, mergedNode, heq a (hp.mem_iff.mpr (by simp)), heq b (hp.mem_iff.mpr (by simp))]
  simp [mergeLoop, extractMin_congr heq, ha, extractMin_congr hsame, hb, hmerged]

/-- Entries below the first free one are left as they are. -/
theorem readNode_mergeLoop_of_lt (fuel : Nat) (heap : List Nat) (next : Nat) (nodes : Vector Node 511) {i : Nat}
    (hi : i < next) : readNode (mergeLoop fuel heap next nodes).2 i = readNode nodes i := by
  induction fuel generalizing heap next nodes with
  | zero => rfl
  | succ fuel ih =>
    rw [mergeLoop]
    split
    · rfl
    · split
      · rfl
      · rw [ih _ _ _ (by omega), readNode_writeNode_other _ _ (by omega)]

/-! ## The forest of a merge under way -/

/-- R39 of one Internal entry: its children stand below it and its count is their sum. -/
def InternalAt (nodes : Vector Node 511) (i : Nat) : Prop :=
  (readNode nodes i).kind = .internal ∧ (readNode nodes i).sym = 0 ∧
  (readNode nodes i).left.toNat < i ∧ (readNode nodes i).right.toNat < i ∧
  (readNode nodes i).left ≠ (readNode nodes i).right ∧
  (readNode nodes i).count.toNat =
    (readNode nodes (readNode nodes i).left.toNat).count.toNat
      + (readNode nodes (readNode nodes i).right.toNat).count.toNat

/-- Entry i, at or above the n records, has entry j as a child. -/
def IsParent (nodes : Vector Node 511) (n j i : Nat) : Prop :=
  n ≤ i ∧ ((readNode nodes i).left.toNat = j ∨ (readNode nodes i).right.toNat = j)

/-- The sum of the counts of the entries in a heap. -/
def heapCount (nodes : Vector Node 511) (heap : List Nat) : Nat :=
  (heap.map fun i => (readNode nodes i).count.toNat).sum

/-- The arena while n records are merged: the entries below `next` are a forest whose roots are the heap, and the
counts of the roots add up to `total`. -/
structure MergeForest (n total : Nat) (heap : List Nat) (next : Nat) (nodes : Vector Node 511) : Prop where
  size : heap.length + next = 2 * n
  n_le_next : n ≤ next
  nodup : heap.Nodup
  lt_next : ∀ j ∈ heap, j < next
  newest_mem : next - 1 ∈ heap
  internalAt : ∀ i < next, n ≤ i → InternalAt nodes i
  root_no_parent : ∀ j ∈ heap, ∀ i < next, ¬ IsParent nodes n j i
  one_parent : ∀ j < next, j ∉ heap →
    ∃ i < next, IsParent nodes n j i ∧ ∀ k < next, IsParent nodes n j k → k = i
  count_eq : heapCount nodes heap = total

theorem MergeForest.perm {n total next : Nat} {heap heap' : List Nat} {nodes : Vector Node 511}
    (h : MergeForest n total heap next nodes) (hp : heap.Perm heap') : MergeForest n total heap' next nodes where
  size := hp.length_eq ▸ h.size
  n_le_next := h.n_le_next
  nodup := hp.nodup_iff.mp h.nodup
  lt_next j hj := h.lt_next j (hp.mem_iff.mpr hj)
  newest_mem := hp.mem_iff.mp h.newest_mem
  internalAt := h.internalAt
  root_no_parent j hj := h.root_no_parent j (hp.mem_iff.mpr hj)
  one_parent j hj hn := h.one_parent j hj (mt hp.mem_iff.mp hn)
  count_eq := (hp.map _).sum_eq.symm.trans h.count_eq

/-- The records alone are a forest of n roots. -/
theorem mergeForest_range {n : Nat} (hn : 1 ≤ n) (nodes : Vector Node 511) :
    MergeForest n (countSum nodes n) (List.range n) n nodes where
  size := by simp; omega
  n_le_next := le_rfl
  nodup := List.nodup_range
  lt_next j hj := List.mem_range.mp hj
  newest_mem := List.mem_range.mpr (by omega)
  internalAt i hi hni := absurd hi hni.not_gt
  root_no_parent j _ i hi hp := absurd hi hp.1.not_gt
  one_parent j hj hnot := absurd (List.mem_range.mpr hj) hnot
  count_eq := rfl

/-! ## One merge -/

section
variable {n total next a b : Nat} {rest : List Nat} {nodes : Vector Node 511}

theorem mergedNode_left (ha : a < 512) : (mergedNode nodes a b).left.toNat = a := Nat.mod_eq_of_lt ha

theorem mergedNode_right (hb : b < 512) : (mergedNode nodes a b).right.toNat = b := Nat.mod_eq_of_lt hb

theorem internalAt_writeNode_of_lt {m : Node} {i : Nat} (hi : i < next) (hin : InternalAt nodes i) :
    InternalAt (writeNode nodes next m) i := by
  have hread : ∀ j < next, readNode (writeNode nodes next m) j = readNode nodes j := fun j hj =>
    readNode_writeNode_other _ _ hj.ne'
  obtain ⟨hk, hs, hl, hr, hne, hc⟩ := hin
  rw [InternalAt, hread i hi, hread _ (hl.trans hi), hread _ (hr.trans hi)]
  exact ⟨hk, hs, hl, hr, hne, hc⟩

theorem isParent_writeNode_of_lt {m : Node} {i j : Nat} (hi : i < next) :
    IsParent (writeNode nodes next m) n j i ↔ IsParent nodes n j i := by
  rw [IsParent, readNode_writeNode_other _ _ hi.ne', IsParent]

theorem isParent_merged_iff (hn : n ≤ next) (hnext : next < 511) (ha : a < next) (hb : b < next) {j : Nat} :
    IsParent (writeNode nodes next (mergedNode nodes a b)) n j next ↔ a = j ∨ b = j := by
  rw [IsParent, readNode_writeNode_same _ _ hnext, mergedNode_left (by omega), mergedNode_right (by omega),
    and_iff_right hn]

/-- The counts of two different roots add up without wrap-around (R36). -/
theorem mergedNode_count (hsum : (readNode nodes a).count.toNat + (readNode nodes b).count.toNat < 2 ^ 32) :
    (mergedNode nodes a b).count.toNat = (readNode nodes a).count.toNat + (readNode nodes b).count.toNat :=
  (BitVec.toNat_add _ _).trans (Nat.mod_eq_of_lt hsum)

theorem internalAt_merged (hnext : next < 511) (ha : a < next) (hb : b < next) (hab : a ≠ b)
    (hsum : (readNode nodes a).count.toNat + (readNode nodes b).count.toNat < 2 ^ 32) :
    InternalAt (writeNode nodes next (mergedNode nodes a b)) next := by
  have hleft : (mergedNode nodes a b).left.toNat = a := mergedNode_left (by omega)
  have hright : (mergedNode nodes a b).right.toNat = b := mergedNode_right (by omega)
  rw [InternalAt, readNode_writeNode_same _ _ hnext, hleft, hright, readNode_writeNode_other _ _ ha.ne',
    readNode_writeNode_other _ _ hb.ne']
  exact ⟨rfl, rfl, ha, hb, fun he => hab (hleft.symm.trans ((congrArg BitVec.toNat he).trans hright)),
    mergedNode_count hsum⟩

variable (h : MergeForest n total (a :: b :: rest) next nodes)
include h

/-- What the two roots to be merged and the free entry are to each other. -/
theorem MergeForest.roots (hn : n ≤ 256) :
    next < 511 ∧ a < next ∧ b < next ∧ a ≠ b ∧ a ∉ rest ∧ b ∉ rest ∧ rest.Nodup ∧ ∀ j ∈ rest, j < next := by
  have hsize := h.size
  have hnodup := h.nodup
  simp only [List.length_cons] at hsize
  simp only [List.nodup_cons, List.mem_cons, not_or] at hnodup
  obtain ⟨⟨hab, har⟩, hbr, hnd⟩ := hnodup
  exact ⟨by omega, h.lt_next a (by simp), h.lt_next b (by simp), hab, har, hbr, hnd,
    fun j hj => h.lt_next j (by simp [hj])⟩

theorem MergeForest.count_add :
    (readNode nodes a).count.toNat + (readNode nodes b).count.toNat + heapCount nodes rest = total := by
  have hcount := h.count_eq
  simp only [heapCount, List.map_cons, List.sum_cons] at hcount
  rw [Nat.add_assoc]
  exact hcount

theorem MergeForest.merge_root_no_parent (hn : n ≤ 256) : ∀ j ∈ rest ++ [next], ∀ i < next + 1,
    ¬ IsParent (writeNode nodes next (mergedNode nodes a b)) n j i := by
  obtain ⟨hnext, ha, hb, -, har, hbr, -, hrest⟩ := h.roots hn
  intro j hj i hi
  have hj' : j ∈ rest ∨ j = next := by simpa using hj
  rcases Nat.lt_succ_iff_lt_or_eq.mp hi with hlt | rfl
  · rw [isParent_writeNode_of_lt hlt]
    rcases hj' with hj | rfl
    · exact h.root_no_parent j (by simp [hj]) i hlt
    · rintro ⟨hni, hc⟩
      obtain ⟨-, -, hl, hr, -, -⟩ := h.internalAt i hlt hni
      omega
  · rw [isParent_merged_iff h.n_le_next hnext ha hb]
    rcases hj' with hj | rfl
    · rintro (rfl | rfl)
      · exact har hj
      · exact hbr hj
    · omega

theorem MergeForest.merge_one_parent (hn : n ≤ 256) : ∀ j < next + 1, j ∉ rest ++ [next] →
    ∃ i < next + 1, IsParent (writeNode nodes next (mergedNode nodes a b)) n j i ∧
      ∀ k < next + 1, IsParent (writeNode nodes next (mergedNode nodes a b)) n j k → k = i := by
  obtain ⟨hnext, ha, hb, -⟩ := h.roots hn
  have hparent {j : Nat} := isParent_merged_iff (nodes := nodes) (j := j) h.n_le_next hnext ha hb
  intro j hj hnot
  simp only [List.mem_append, List.mem_singleton, not_or] at hnot
  by_cases hjab : a = j ∨ b = j
  · refine ⟨next, Nat.lt_succ_self next, hparent.mpr hjab, fun k hk hpk => ?_⟩
    rcases Nat.lt_succ_iff_lt_or_eq.mp hk with hlt | rfl
    · rw [isParent_writeNode_of_lt hlt] at hpk
      exact absurd hpk (h.root_no_parent j (by rcases hjab with rfl | rfl <;> simp) k hlt)
    · rfl
  · have hjmem : j ∉ a :: b :: rest := by
      simp only [List.mem_cons, not_or]
      exact ⟨fun he => hjab (.inl he.symm), fun he => hjab (.inr he.symm), hnot.1⟩
    obtain ⟨i, hi, hp, huniq⟩ := h.one_parent j (by omega) hjmem
    refine ⟨i, by omega, (isParent_writeNode_of_lt hi).mpr hp, fun k hk hpk => ?_⟩
    rcases Nat.lt_succ_iff_lt_or_eq.mp hk with hlt | rfl
    · exact huniq k hlt ((isParent_writeNode_of_lt hlt).mp hpk)
    · exact absurd (hparent.mp hpk) hjab

theorem MergeForest.merge_count (hn : n ≤ 256) (ht : total < 2 ^ 32) :
    heapCount (writeNode nodes next (mergedNode nodes a b)) (rest ++ [next]) = total := by
  obtain ⟨hnext, -, -, -, -, -, -, hrest⟩ := h.roots hn
  have hadd := h.count_add
  have hkept : heapCount (writeNode nodes next (mergedNode nodes a b)) rest = heapCount nodes rest :=
    congrArg List.sum (List.map_congr_left fun j hj => by rw [readNode_writeNode_other _ _ (hrest j hj).ne'])
  have hsplit : heapCount (writeNode nodes next (mergedNode nodes a b)) (rest ++ [next]) =
      heapCount nodes rest + (mergedNode nodes a b).count.toNat := by
    rw [← hkept]
    simp [heapCount, readNode_writeNode_same _ _ hnext]
  rw [hsplit, mergedNode_count (by omega)]
  omega

/-- The two least roots become the children of entry `next`, which takes their place among the roots. -/
theorem MergeForest.merge (hn : n ≤ 256) (ht : total < 2 ^ 32) :
    MergeForest n total (rest ++ [next]) (next + 1) (writeNode nodes next (mergedNode nodes a b)) := by
  obtain ⟨hnext, ha, hb, hab, -, -, hnd, hrest⟩ := h.roots hn
  have hsize := h.size
  have hadd := h.count_add
  simp only [List.length_cons] at hsize
  refine ⟨by simp; omega, Nat.le_succ_of_le h.n_le_next, ?_, ?_, by simp, ?_, h.merge_root_no_parent hn,
    h.merge_one_parent hn, h.merge_count hn ht⟩
  · exact hnd.append (List.nodup_singleton next) (by simpa using fun hmem => (hrest next hmem).false)
  · intro j hj
    rcases List.mem_append.mp hj with hj | hj
    · exact (hrest j hj).trans (Nat.lt_succ_self next)
    · simp at hj; omega
  · intro i hi hni
    rcases Nat.lt_succ_iff_lt_or_eq.mp hi with hlt | rfl
    · exact internalAt_writeNode_of_lt hlt (h.internalAt i hlt hni)
    · exact internalAt_merged hnext ha hb hab (by omega)

end

/-! ## The tree the merge ends with -/

section
variable {n total next : Nat} {heap : List Nat} {nodes : Vector Node 511}

/-- The merge is over when one root is left. -/
theorem MergeForest.eq_singleton (h : MergeForest n total heap next nodes) (hlen : heap.length ≤ 1) :
    ∃ r, heap = [r] ∧ next = 2 * n - 1 := by
  obtain ⟨r, rfl⟩ := List.length_eq_one_iff.mp (Nat.le_antisymm hlen (List.length_pos_of_mem h.newest_mem))
  have hsize := h.size
  exact ⟨r, rfl, by simp at hsize; omega⟩

theorem MergeForest.exists_mergeLoop_eq_root (hn : n ≤ 256) (ht : total < 2 ^ 32) (fuel : Nat)
    (h : MergeForest n total heap next nodes) (hfuel : heap.length ≤ fuel + 1) :
    ∃ r nodes', mergeLoop fuel heap next nodes = ([r], nodes') ∧ MergeForest n total [r] (2 * n - 1) nodes' := by
  induction fuel generalizing heap next nodes with
  | zero =>
    obtain ⟨r, rfl, rfl⟩ := h.eq_singleton hfuel
    exact ⟨r, nodes, rfl, h⟩
  | succ fuel ih =>
    rcases Nat.lt_or_ge heap.length 2 with hlt | hge
    · obtain ⟨r, rfl, rfl⟩ := h.eq_singleton (Nat.le_of_lt_succ hlt)
      exact ⟨r, nodes, mergeLoop_singleton _ _ _ _, h⟩
    · obtain ⟨a, b, rest, hp, heq⟩ := exists_mergeLoop_succ nodes hge
      have hlen := hp.length_eq
      rw [heq nodes fun _ _ => rfl]
      exact ih ((h.perm hp).merge hn ht) (by simp at hlen ⊢; omega)

end

/-- A forest with one root is the tree of R39, and the root is the entry made last. -/
theorem MergeForest.treeShape {n total r : Nat} {nodes : Vector Node 511}
    (h : MergeForest n total [r] (2 * n - 1) nodes) (hn : n ≤ 256) :
    TreeShape nodes n (BitVec.ofNat 9 r) ∧ (readNode nodes (BitVec.ofNat 9 r).toNat).count.toNat = total := by
  have hr : r = 2 * n - 2 := (List.mem_singleton.mp h.newest_mem).symm
  have hroot : (BitVec.ofNat 9 r).toNat = r := by simp; omega
  refine ⟨⟨hroot.trans hr, h.internalAt, fun j hj => h.one_parent j (by omega) ?_⟩, ?_⟩
  · rw [List.mem_singleton]; omega
  · rw [hroot]
    simpa [heapCount] using h.count_eq

/-- BUILD over 1 to 256 records whose counts fit 32 bits leaves the tree of R39 with their sum at its root. -/
theorem mergeAll_treeShape {n : Nat} (nodes : Vector Node 511) (h1 : 1 ≤ n) (h256 : n ≤ 256)
    (ht : countSum nodes n < 2 ^ 32) :
    TreeShape (mergeAll n nodes).2 n (BitVec.ofNat 9 (onlyElement (mergeAll n nodes).1)) ∧
    (readNode (mergeAll n nodes).2 (BitVec.ofNat 9 (onlyElement (mergeAll n nodes).1)).toNat).count.toNat =
      countSum nodes n := by
  obtain ⟨r, nodes', heq, hforest⟩ := (mergeForest_range h1 nodes).exists_mergeLoop_eq_root h256 ht n (by simp)
  rw [mergeAll, heq]
  exact hforest.treeShape h256

theorem readNode_mergeAll_of_lt (n : Nat) (nodes : Vector Node 511) {i : Nat} (hi : i < n) :
    readNode (mergeAll n nodes).2 i = readNode nodes i :=
  readNode_mergeLoop_of_lt n _ n nodes hi

/-! ## BUILD -/

theorem LeafShape.of_readNode_eq {nodes nodes' : Vector Node 511} {n : Nat} (h : LeafShape nodes n)
    (heq : ∀ i < n, readNode nodes' i = readNode nodes i) : LeafShape nodes' n := by
  obtain ⟨hleaf, hsym⟩ := h
  refine ⟨fun i hi => by rw [heq i hi]; exact hleaf i hi, fun i hi j hj => ?_⟩
  rw [heq i hi, heq j (hj.trans hi)]
  exact hsym i hi j hj

theorem buildBody_makes_tree {s : State} (h : RecordOk s) (hp : s.phase = .loaded) :
    TreeShape (buildBody s).nodes s.nrec.toNat (buildBody s).rootIdx ∧ LeafShape (buildBody s).nodes s.nrec.toNat ∧
    (readNode (buildBody s).nodes (buildBody s).rootIdx.toNat).count = s.total := by
  obtain ⟨hn, hempty, -, -, hleaf, -, htotal⟩ := h
  have h1 : 1 ≤ s.nrec.toNat := Nat.one_le_iff_ne_zero.mpr fun h0 => by simp [hempty.mpr h0] at hp
  obtain ⟨htree, hcount⟩ := mergeAll_treeShape s.nodes h1 hn (htotal ▸ s.total.isLt)
  exact ⟨htree, hleaf.of_readNode_eq fun i hi => readNode_mergeAll_of_lt _ _ hi,
    BitVec.eq_of_toNat_eq (hcount.trans htotal.symm)⟩

/-- Settles O27, by induction on the merges: each keeps a forest over the records, and one root is left. -/
theorem buildMakesATreeOverTheRecords : Obligations.BuildMakesATreeOverTheRecords := by
  unfold Obligations.BuildMakesATreeOverTheRecords
  intro s t hrec hpend herr hphase hexec
  have hbegins : Begins .build s := ⟨hpend, lockedOut_of_ok _ herr, phaseError_build_iff.mpr hphase⟩
  rw [exec_of_begins hbegins] at hexec
  cases hexec
  exact buildBody_makes_tree hrec hphase

end Sys2Proof.Machine
end

section
/-! PROOFS. What a step leaves unchanged, in three groups of fields (tables, buffers, control), the effect of the
primitives on the buffers, and O49 from these. -/

namespace Sys2Proof.Machine

/-! ## Frames -/

/-- Nothing changed but where the engine stands, ERR, RESULT and the decoder's registers. -/
def ControlOnly (s t : State) : Prop :=
  t = { s with eng := t.eng, err := t.err, result := t.result, decRemain := t.decRemain, decCur := t.decCur }

/-- The records, the tree, the code table and PHASE are as they were. -/
structure TablesKept (s t : State) : Prop where
  cfg : t.cfg = s.cfg
  phase : t.phase = s.phase
  nrec : t.nrec = s.nrec
  total : t.total = s.total
  loaded : t.loaded = s.loaded
  nodes : t.nodes = s.nodes
  rootIdx : t.rootIdx = s.rootIdx
  rootValid : t.rootValid = s.rootValid
  codes : t.codes = s.codes

/-- The bit writer, the bit reader and both FIFOs are as they were. -/
structure BuffersKept (s t : State) : Prop where
  cfg : t.cfg = s.cfg
  acc : t.acc = s.acc
  accCnt : t.accCnt = s.accCnt
  sr : t.sr = s.sr
  srCnt : t.srCnt = s.srCnt
  inq : t.inq = s.inq
  outq : t.outq = s.outq

theorem TablesKept.trans {s t u : State} (h : TablesKept s t) (h' : TablesKept t u) : TablesKept s u :=
  ⟨h'.cfg.trans h.cfg, h'.phase.trans h.phase, h'.nrec.trans h.nrec, h'.total.trans h.total,
    h'.loaded.trans h.loaded, h'.nodes.trans h.nodes, h'.rootIdx.trans h.rootIdx, h'.rootValid.trans h.rootValid,
    h'.codes.trans h.codes⟩

theorem ControlOnly.tablesKept {s t : State} (h : ControlOnly s t) : TablesKept s t := by
  rw [ControlOnly] at h; rw [h]; constructor <;> rfl

theorem ControlOnly.buffersKept {s t : State} (h : ControlOnly s t) : BuffersKept s t := by
  rw [ControlOnly] at h; rw [h]; constructor <;> rfl

theorem ControlOnly.cmdLast {s t : State} (h : ControlOnly s t) : t.cmdLast = s.cmdLast := by
  rw [ControlOnly] at h; rw [h]

theorem BuffersKept.bufferOk {s t : State} (h : BuffersKept s t) (hs : BufferOk s) : BufferOk t := by
  simpa only [BufferOk, WriterOk, ReaderOk, h.cfg, h.acc, h.accCnt, h.sr, h.srCnt, h.inq, h.outq] using hs

/-! ## Loop heads and ends of commands move the engine only -/

section
variable (s : State)

theorem controlOnly_finish : ControlOnly s (finish s) := rfl
theorem controlOnly_goTo (loc : Loc) : ControlOnly s (goTo loc s) := rfl
theorem controlOnly_complete (r : Word) : ControlOnly s (complete r s) := rfl

theorem controlOnly_raise (c : ErrCode) : ControlOnly s (raise c s) := by
  unfold raise setErr; split <;> rfl

theorem controlOnly_writeBitsLoop (j : Nat) : ControlOnly s (writeBitsLoop j s) := by
  cases j <;> rfl

theorem controlOnly_skipLoop (n : BitVec 24) (k : Nat) : ControlOnly s (skipLoop n k s) := by
  unfold skipLoop; split <;> rfl

theorem controlOnly_encodeSymLoop (sym : Byte) (j : Nat) : ControlOnly s (encodeSymLoop sym j s) := by
  unfold encodeSymLoop; split <;> rfl

theorem controlOnly_encodeSymBody (sym : Byte) : ControlOnly s (encodeSymBody sym s) := by
  unfold encodeSymBody
  split
  · exact controlOnly_encodeSymLoop s sym 0
  · exact controlOnly_raise s _

theorem controlOnly_streamLoop (cnt : Word) (v : Byte) (j : Nat) : ControlOnly s (streamLoop cnt v j s) := by
  unfold streamLoop; split <;> rfl

theorem controlOnly_streamByte (cnt : Word) (v : Byte) : ControlOnly s (streamByte cnt v s) := by
  unfold streamByte
  split
  · exact controlOnly_streamLoop s cnt v 0
  · exact controlOnly_raise s _

theorem controlOnly_decodeRootLoop (e r : Word) (c : Index) :
    ControlOnly s (decodeRootLoop e { s with decRemain := r, decCur := c }) := by
  unfold decodeRootLoop; split <;> rfl

theorem controlOnly_decodeLoop (e r : Word) (c : Index) :
    ControlOnly s (decodeLoop e { s with decRemain := r, decCur := c }) := by
  unfold decodeLoop; split <;> rfl

theorem controlOnly_decodeMove (e : Word) (b : Bool) : ControlOnly s (decodeMove e b s) := by
  unfold decodeMove
  split
  · rfl
  · exact controlOnly_decodeLoop s e s.decRemain _

theorem controlOnly_decodeBody : ControlOnly s (decodeBody s) := by
  unfold decodeBody
  split
  · exact controlOnly_decodeRootLoop s 0 _ _
  · exact controlOnly_decodeLoop s 0 _ _

end

/-- The state LOAD_RECORD leaves when it raises no error: one more record, with the count of CMD_ARG (R101). -/
def appendRecord (sym : Byte) (s : State) : State :=
  { s with
    nodes := writeNode s.nodes s.nrec.toNat ⟨.leaf, sym, s.cmdArg, 0, 0⟩
    loaded := setLoaded s.loaded sym
    nrec := s.nrec + 1
    total := s.total + s.cmdArg
    phase := .loaded
    eng := .idle }

@[simp] theorem appendRecord_nrec (sym : Byte) (s : State) : (appendRecord sym s).nrec = s.nrec + 1 := rfl

/-- LOAD_RECORD raises an error, or appends one record (R101). -/
theorem loadRecordBody_cases (sym : Byte) (s : State) :
    (∃ c, loadRecordBody sym s = raise c s) ∨
    (s.loaded.getLsbD sym.toNat = false ∧ s.total.toNat + s.cmdArg.toNat < 2 ^ 32 ∧
      loadRecordBody sym s = appendRecord sym s) := by
  unfold loadRecordBody
  split
  case isTrue => exact .inl ⟨_, rfl⟩
  case isFalse hnew =>
    split
    case isTrue => exact .inl ⟨_, rfl⟩
    case isFalse hfit =>
      exact .inr ⟨Bool.eq_false_iff.mpr hnew, by simp only [State.countOperand] at hfit; omega, rfl⟩

/-! ## The primitives -/

/-- What a completed call of a primitive does: it moves bits between the buffers and keeps their bounds. -/
structure Transfer (s t : State) : Prop where
  frame : t = { s with
    acc := t.acc, accCnt := t.accCnt, sr := t.sr, srCnt := t.srCnt, inq := t.inq, outq := t.outq }
  bufferOk : BufferOk s → BufferOk t

theorem Transfer.refl (s : State) : Transfer s s := ⟨rfl, id⟩

theorem Transfer.tablesKept {s t : State} (h : Transfer s t) : TablesKept s t := by
  rw [h.frame]; constructor <;> rfl

theorem Transfer.err {s t : State} (h : Transfer s t) : t.err = s.err := by rw [h.frame]
theorem Transfer.result {s t : State} (h : Transfer s t) : t.result = s.result := by rw [h.frame]
theorem Transfer.cmdLast {s t : State} (h : Transfer s t) : t.cmdLast = s.cmdLast := by rw [h.frame]
theorem Transfer.decRemain {s t : State} (h : Transfer s t) : t.decRemain = s.decRemain := by
  rw [h.frame]
theorem Transfer.decCur {s t : State} (h : Transfer s t) : t.decCur = s.decCur := by rw [h.frame]

section
variable {s t : State} {b : Bool} {v : Byte}

/-- One more bit of ACC is filled, and the bits below it stay 0 (R42). -/
theorem writerOk_setBit (h : WriterOk s) (h7 : s.accCnt ≠ 7#4) :
    WriterOk { s with acc := setBit s.acc (7 - s.accCnt.toNat) b, accCnt := s.accCnt + 1#4 } := by
  obtain ⟨hcnt, hacc⟩ := h
  have hne : s.accCnt.toNat ≠ 7 := fun h => h7 (BitVec.eq_of_toNat_eq h)
  have hsucc : (s.accCnt + 1#4).toNat = s.accCnt.toNat + 1 := by simp [BitVec.toNat_add]; omega
  refine ⟨by simp only [hsucc]; omega, fun k hk => ?_⟩
  simp only [hsucc] at hk
  rw [setBit_getLsbD _ _ _ (by omega), if_neg (by omega)]
  exact hacc k (by omega)

/-- One more bit of SR is read, and a 0 takes its place at the other end (R43). -/
theorem shiftLeft_low_bits {sr : Byte} {c : Nat} (h : ∀ k < 8 - c, sr.getLsbD k = false) :
    ∀ k < 8 - (c - 1), (sr <<< 1).getLsbD k = false := by
  intro k hk
  cases k with
  | zero => simp
  | succ k => simpa using fun _ => h k (by omega)

theorem transfer_of_writeBit (h : writeBit b s = .done t) : Transfer s t := by
  rcases writeBit_cases b s with ⟨-, -, hw⟩ | ⟨-, hroom, hw⟩ | ⟨h7, hw⟩ <;>
    rw [hw] at h <;> cases h <;> refine ⟨rfl, fun ⟨hcfg, hwr, hrd, hin, hout⟩ => ?_⟩
  · exact ⟨hcfg, ⟨by simp, by simp⟩, hrd, hin, by simp; omega⟩
  · exact ⟨hcfg, writerOk_setBit hwr h7, hrd, hin, hout⟩

theorem transfer_of_flushByte (h : flushByte s = .done t) : Transfer s t := by
  rcases flushByte_cases s with ⟨-, hf⟩ | ⟨-, -, hf⟩ | ⟨-, hroom, hf⟩ <;> rw [hf] at h <;> cases h
  · exact .refl s
  · exact ⟨rfl, fun ⟨hcfg, _, hrd, hin, hout⟩ => ⟨hcfg, ⟨by simp, by simp⟩, hrd, hin, by simp; omega⟩⟩

theorem transfer_of_readBit (h : readBit s = .bit b t) : Transfer s t := by
  rcases readBit_cases s with ⟨h0, hr⟩ | ⟨-, v, rest, hq, hr⟩ | ⟨-, -, -, hr⟩ | ⟨-, -, -, hr⟩ <;>
    rw [hr] at h <;> cases h <;> refine ⟨rfl, fun ⟨hcfg, hwr, ⟨hcnt, hsr⟩, hin, hout⟩ => ?_⟩
  · have hne : s.srCnt.toNat ≠ 0 := fun h => h0 (BitVec.eq_of_toNat_eq h)
    have hpred : (s.srCnt - 1#4).toNat = s.srCnt.toNat - 1 :=
      BitVec.toNat_sub_of_le (BitVec.le_def.mpr (Nat.one_le_iff_ne_zero.mpr hne))
    refine ⟨hcfg, hwr, ⟨?_, ?_⟩, hin, hout⟩ <;> simp only [hpred]
    · omega
    · exact shiftLeft_low_bits hsr
  · rw [hq, List.length_cons] at hin
    exact ⟨hcfg, hwr, ⟨by simp, shiftLeft_low_bits (c := 8) (by simp)⟩, Nat.le_of_succ_le hin, hout⟩

theorem transfer_of_popByte (h : popByte s = .byte v t) : Transfer s t := by
  rcases popByte_cases s with ⟨v', rest, hq, hp⟩ | ⟨-, -, hp⟩ | ⟨-, -, hp⟩ <;> rw [hp] at h <;> cases h
  refine ⟨rfl, fun ⟨hcfg, hwr, hrd, hin, hout⟩ => ?_⟩
  rw [hq, List.length_cons] at hin
  exact ⟨hcfg, hwr, hrd, Nat.le_of_succ_le hin, hout⟩

theorem transfer_of_emit (h : emit v s = .done t) : Transfer s t := by
  rcases emit_cases v s with ⟨-, he⟩ | ⟨hroom, he⟩ <;> rw [he] at h <;> cases h
  exact ⟨rfl, fun ⟨hcfg, hwr, hrd, hin, hout⟩ => ⟨hcfg, hwr, hrd, hin, by simp; omega⟩⟩

end

/-- A step at a call is a primitive's transfer, or none, and then a move of the engine. -/
theorem CallStep.transfer {i : Instr} {loc : Loc} {s t : State} (h : CallStep i loc s t) :
    ∃ s', Transfer s s' ∧ ControlOnly s' t := by
  cases h with
  | held => exact ⟨s, .refl s, rfl⟩
  | writeBits h => exact ⟨_, transfer_of_writeBit h, controlOnly_writeBitsLoop _ _⟩
  | flush h => exact ⟨_, transfer_of_flushByte h, controlOnly_finish _⟩
  | readEof h => exact ⟨s, .refl s, controlOnly_complete _ _⟩
  | readBit h => exact ⟨_, transfer_of_readBit h, controlOnly_complete _ _⟩
  | skipEof h => exact ⟨s, .refl s, controlOnly_complete _ _⟩
  | skipBit h => exact ⟨_, transfer_of_readBit h, controlOnly_skipLoop _ _ _⟩
  | encodeSym h => exact ⟨_, transfer_of_writeBit h, controlOnly_encodeSymLoop _ _ _⟩
  | streamEnd h => exact ⟨s, .refl s, controlOnly_complete _ _⟩
  | streamByte h => exact ⟨_, transfer_of_popByte h, controlOnly_streamByte _ _ _⟩
  | streamWrite h => exact ⟨_, transfer_of_writeBit h, controlOnly_streamLoop _ _ _ _⟩
  | decodeEmitRoot h => exact ⟨_, transfer_of_emit h, controlOnly_decodeRootLoop _ _ _ _⟩
  | decodeEof h => exact ⟨s, .refl s, controlOnly_raise _ _⟩
  | decodeBit h => exact ⟨_, transfer_of_readBit h, controlOnly_decodeMove _ _ _⟩
  | decodeEmit h => exact ⟨_, transfer_of_emit h, controlOnly_decodeLoop _ _ _ _⟩

theorem CallStep.tablesKept {i : Instr} {loc : Loc} {s t : State} (h : CallStep i loc s t) : TablesKept s t := by
  obtain ⟨s', htr, hc⟩ := h.transfer
  exact htr.tablesKept.trans hc.tablesKept

/-! ## The buffers along a step -/

theorem resetCore_bufferOk {s : State} (h : s.cfg.Admitted) : BufferOk (resetCore s) := by
  refine ⟨h, ⟨?_, ?_⟩, ⟨?_, ?_⟩, ?_, ?_⟩ <;> simp [resetCore]

theorem commandBody_bufferOk (i : Instr) {s : State} (h : BufferOk s) : BufferOk (commandBody i s) := by
  have kept {t : State} (hk : ControlOnly s t) : BufferOk t := hk.buffersKept.bufferOk h
  cases i with
  | nop => exact kept (controlOnly_finish s)
  | clear => exact (controlOnly_finish _).buffersKept.bufferOk (resetCore_bufferOk h.1)
  | ackErr => exact kept rfl
  | loadRecord sym =>
    rcases loadRecordBody_cases sym s with ⟨c, hl⟩ | ⟨-, -, hl⟩ <;> rw [commandBody, hl]
    · exact kept (controlOnly_raise s c)
    · exact h
  | build => exact h
  | genCodes => exact h
  | queryNode idx => rw [commandBody, queryNodeBody]; split <;> exact h
  | queryCode sym => exact h
  | writeBits nb v => exact kept (controlOnly_writeBitsLoop s _)
  | flush => exact kept (controlOnly_goTo s _)
  | readBit => exact kept (controlOnly_goTo s _)
  | skipBits n => exact kept (controlOnly_skipLoop s _ _)
  | alignRead =>
    obtain ⟨hcfg, hwr, -, hin, hout⟩ := h
    exact ⟨hcfg, hwr, ⟨Nat.zero_le 8, fun k _ => BitVec.getLsbD_zero⟩, hin, hout⟩
  | encodeSym sym => exact kept (controlOnly_encodeSymBody s _)
  | encodeStream => exact kept (controlOnly_goTo s _)
  | decode => exact kept (controlOnly_decodeBody s)

theorem exec_bufferOk {i : Instr} {s t : State} (h : exec i s = .next t) (hs : BufferOk s) : BufferOk t := by
  rcases exec_next h with ⟨rfl, -⟩ | rfl | ⟨rfl, -, -⟩ | ⟨loc, -, hres⟩
  · exact hs
  · exact (controlOnly_raise s _).buffersKept.bufferOk hs
  · exact commandBody_bufferOk i hs
  · obtain ⟨s', htr, hc⟩ := (callStep_of_commandResume hres).transfer
    exact hc.buffersKept.bufferOk (htr.bufferOk hs)

theorem controlOnly_dispatchIllegal (w : Word) (s : State) : ControlOnly s (dispatchIllegal w s) := by
  unfold dispatchIllegal
  split
  · exact controlOnly_finish s
  · exact controlOnly_raise s _

theorem controlOnly_abort (s : State) : ControlOnly s (abort s) := by
  rcases abort_cases s with ⟨-, h⟩ | ⟨-, h⟩ <;> rw [h] <;> rfl

theorem hostRead_bufferOk (r : Reg) {s : State} (h : BufferOk s) : BufferOk (hostRead r s) := by
  cases r
  case outData =>
    obtain ⟨hcfg, hwr, hrd, hin, hout⟩ := h
    exact ⟨hcfg, hwr, hrd, hin, by simp [hostRead, readEffect]; omega⟩
  all_goals exact h

theorem writeCtrl_cases (v : Word) (s : State) :
    (v.getLsbD 0 = true ∧ writeCtrl v s = softReset s) ∨
    (v.getLsbD 0 = false ∧ ControlOnly { s with eos := v.getLsbD 2 } (writeCtrl v s)) := by
  unfold writeCtrl
  cases v.getLsbD 0
  · exact .inr ⟨rfl, by cases v.getLsbD 1 <;> [rfl; exact controlOnly_abort _]⟩
  · exact .inl ⟨rfl, rfl⟩

theorem hostWrite_bufferOk (r : Reg) (v : Word) {s : State} (h : BufferOk s) : BufferOk (hostWrite r v s) := by
  cases r
  case ctrl =>
    rcases writeCtrl_cases v s with ⟨-, hw⟩ | ⟨-, hc⟩
    · rw [hostWrite, hw]
      exact resetCore_bufferOk h.1
    · exact hc.buffersKept.bufferOk h
  case cmd => rcases latch_cases v s with ⟨-, hl⟩ | ⟨-, hl⟩ <;> rw [hostWrite, hl] <;> exact h
  case inData =>
    obtain ⟨hcfg, hwr, hrd, hin, hout⟩ := h
    rw [hostWrite, pushIn]
    split
    · exact ⟨hcfg, hwr, hrd, by simp; omega, hout⟩
    · exact ⟨hcfg, hwr, hrd, hin, hout⟩
  all_goals exact h

/-- Who moves in a step, and that it takes its turn from the list (R63). -/
theorem step_cases {s t : State} (h : step s = .next t) :
    ∃ rest, (engineMoves s ∧ engineTurn { s with turns := rest } = .next t) ∨
      (∃ r, t = hostRead r { s with turns := rest }) ∨
      (∃ r v, hostWrites r v s ∧ t = hostWrite r v { s with turns := rest }) ∨
      (s.turns = .powerOn :: rest ∧ t = powerOn { s with turns := rest }) := by
  rcases step_next h with ⟨hturns, he⟩ | ⟨rest, hturns, he⟩ | ⟨a, rest, hturns, ha⟩ |
    ⟨rest, hturns, rfl⟩
  · exact ⟨s.turns, .inl ⟨.inl hturns, he⟩⟩
  · exact ⟨rest, .inl ⟨.inr ⟨rest, hturns⟩, he⟩⟩
  · rcases hostAccess_next ha with ⟨addr, -, rfl⟩ | ⟨addr, v, rfl, rfl⟩
    · exact ⟨rest, .inr (.inl ⟨_, rfl⟩)⟩
    · exact ⟨rest, .inr (.inr (.inl ⟨_, v, ⟨addr, rest, hturns, rfl⟩, rfl⟩))⟩
  · exact ⟨rest, .inr (.inr (.inr ⟨hturns, rfl⟩))⟩

/-- What every step keeps: what a command, an illegal word, a host access and a power-on reset keep, if the turns to
come play no part in it. -/
theorem step_keeps {P : State → Prop} (hturns : ∀ s rest, P s → P { s with turns := rest })
    (hillegal : ∀ s, P s → P (dispatchIllegal s.cmdLast s))
    (hexec : ∀ i s t, P s → decode s.cmdLast = .ok i → exec i s = .next t → P t)
    (hread : ∀ r s, P s → P (hostRead r s)) (hwrite : ∀ r v s, P s → P (hostWrite r v s))
    (hpower : ∀ s, P s → P (powerOn s)) {s t : State} (hs : P s) (h : step s = .next t) : P t := by
  obtain ⟨rest, ⟨-, he⟩ | ⟨r, rfl⟩ | ⟨r, v, -, rfl⟩ | ⟨-, rfl⟩⟩ := step_cases h
  · rcases engineTurn_next he with ⟨-, rfl⟩ | ⟨-, i, hd, he⟩ | ⟨-, -, rfl⟩
    · exact hturns s rest hs
    · exact hexec i _ t (hturns s rest hs) hd he
    · exact hillegal _ (hturns s rest hs)
  · exact hread r _ (hturns s rest hs)
  · exact hwrite r v _ (hturns s rest hs)
  · exact hpower _ (hturns s rest hs)

/-- Settles O49: each primitive keeps the buffers in bounds, and so does each host access. -/
theorem stepKeepsBuffersInBounds : Obligations.StepKeepsBuffersInBounds := by
  unfold Obligations.StepKeepsBuffersInBounds
  intro s t hs h
  exact step_keeps (P := BufferOk) (fun _ _ h => h)
    (fun s h => (controlOnly_dispatchIllegal _ s).buffersKept.bufferOk h) (fun _ _ _ h _ he => exec_bufferOk he h)
    (fun r _ h => hostRead_bufferOk r h) (fun r v _ h => hostWrite_bufferOk r v h)
    (fun s h => (resetCore_bufferOk h.1 : BufferOk (resetCore s))) hs h

end Sys2Proof.Machine
end

section
/-! PROOFS. Where the engine stands after a step of a command (R47, R79, R80), what a host access does to its position,
and O50 from these. -/

namespace Sys2Proof.Machine

/-! ## Where a command leaves the engine -/

/-- After t the engine stands at a call of command i, with ERR, PHASE and CMD_LAST as in s. -/
structure RunsAt (i : Instr) (s : State) (loc : Loc) (t : State) : Prop where
  eng : t.eng = .running loc
  atCall : atCall i loc t = true
  err : t.err = s.err
  phase : t.phase = s.phase
  cmdLast : t.cmdLast = s.cmdLast

/-- Command i has ended in t, or the engine stands at one of its calls. -/
def StandsAt (i : Instr) (s t : State) : Prop := t.eng = .idle ∨ ∃ loc, RunsAt i s loc t

theorem StandsAt.of_transfer {i : Instr} {s s' t : State} (h : StandsAt i s' t) (htr : Transfer s s') :
    StandsAt i s t :=
  h.imp_right fun ⟨loc, hr⟩ => ⟨loc, hr.eng, hr.atCall, hr.err.trans htr.err, hr.phase.trans htr.tablesKept.phase,
    hr.cmdLast.trans htr.cmdLast⟩

section
variable (s : State)

theorem standsAt_goTo {i : Instr} {loc : Loc} (h : atCall i loc (goTo loc s) = true) : StandsAt i s (goTo loc s) :=
  .inr ⟨loc, rfl, h, rfl, rfl, rfl⟩

theorem standsAt_writeBitsLoop {nb : BitVec 5} {j : Nat} (v : BitVec 16) (hj : j ≤ nb.toNat) :
    StandsAt (.writeBits nb v) s (writeBitsLoop j s) := by
  cases j with
  | zero => exact .inl rfl
  | succ j => exact standsAt_goTo s (decide_eq_true hj)

theorem standsAt_skipLoop (n : BitVec 24) (k : Nat) : StandsAt (.skipBits n) s (skipLoop n k s) := by
  unfold skipLoop
  split
  case isTrue h => exact standsAt_goTo s (decide_eq_true h)
  case isFalse => exact .inl rfl

theorem standsAt_encodeSymLoop {sym : Byte} (hv : (s.code sym).valid = true) (j : Nat) :
    StandsAt (.encodeSym sym) s (encodeSymLoop sym j s) := by
  unfold encodeSymLoop
  split
  case isTrue h => exact standsAt_goTo s (Bool.and_eq_true_iff.mpr ⟨hv, decide_eq_true h⟩)
  case isFalse => exact .inl rfl

theorem standsAt_encodeSymBody (sym : Byte) : StandsAt (.encodeSym sym) s (encodeSymBody sym s) := by
  unfold encodeSymBody
  split
  case isTrue h => exact standsAt_encodeSymLoop s h 0
  case isFalse => exact .inl rfl

theorem standsAt_streamLoop {v : Byte} (hv : (s.code v).valid = true) (cnt : Word) (j : Nat) :
    StandsAt .encodeStream s (streamLoop cnt v j s) := by
  unfold streamLoop
  split
  case isTrue h => exact standsAt_goTo s (Bool.and_eq_true_iff.mpr ⟨hv, decide_eq_true h⟩)
  case isFalse => exact standsAt_goTo s rfl

theorem standsAt_streamByte (cnt : Word) (v : Byte) : StandsAt .encodeStream s (streamByte cnt v s) := by
  unfold streamByte
  split
  case isTrue h => exact standsAt_streamLoop s h cnt 0
  case isFalse => exact .inl rfl

theorem standsAt_decodeRootLoop (hk : (s.node s.rootIdx).kind = .leaf) (e r : Word) (c : Index) :
    StandsAt .decode s (decodeRootLoop e { s with decRemain := r, decCur := c }) := by
  unfold decodeRootLoop
  split
  case isTrue => exact .inl rfl
  case isFalse h =>
    exact .inr ⟨_, rfl, Bool.and_eq_true_iff.mpr ⟨beq_iff_eq.mpr hk, bne_iff_ne.mpr h⟩, rfl, rfl, rfl⟩

theorem standsAt_decodeLoop (hk : (s.node s.rootIdx).kind = .internal) (e r : Word) (c : Index) :
    StandsAt .decode s (decodeLoop e { s with decRemain := r, decCur := c }) := by
  unfold decodeLoop
  split
  case isTrue => exact .inl rfl
  case isFalse h =>
    exact .inr ⟨_, rfl, Bool.and_eq_true_iff.mpr ⟨beq_iff_eq.mpr hk, bne_iff_ne.mpr h⟩, rfl, rfl, rfl⟩

theorem standsAt_decodeMove (hk : (s.node s.rootIdx).kind = .internal) (hr : s.decRemain ≠ 0) (e : Word) (b : Bool) :
    StandsAt .decode s (decodeMove e b s) := by
  unfold decodeMove
  split
  · exact .inr ⟨_, rfl, Bool.and_eq_true_iff.mpr ⟨beq_iff_eq.mpr hk, bne_iff_ne.mpr hr⟩, rfl, rfl, rfl⟩
  · exact standsAt_decodeLoop s hk e s.decRemain _

theorem standsAt_decodeBody : StandsAt .decode s (decodeBody s) := by
  unfold decodeBody
  split
  case h_1 hk => exact standsAt_decodeRootLoop s hk 0 _ _
  case h_2 hk => exact standsAt_decodeLoop s hk 0 _ _

theorem standsAt_commandBody (i : Instr) : StandsAt i s (commandBody i s) := by
  cases i with
  | nop | clear | ackErr | build | genCodes | queryCode | alignRead => exact .inl rfl
  | loadRecord sym =>
    rcases loadRecordBody_cases sym s with ⟨c, hl⟩ | ⟨-, -, hl⟩ <;> rw [commandBody, hl] <;> exact .inl rfl
  | queryNode idx => exact .inl (by rw [commandBody, queryNodeBody]; split <;> rfl)
  | writeBits nb v => exact standsAt_writeBitsLoop s v le_rfl
  | flush => exact standsAt_goTo s rfl
  | readBit => exact standsAt_goTo s rfl
  | skipBits n => exact standsAt_skipLoop s n 0
  | encodeSym sym => exact standsAt_encodeSymBody s sym
  | encodeStream => exact standsAt_goTo s rfl
  | decode => exact standsAt_decodeBody s

end

theorem TablesKept.code {s t : State} (h : TablesKept s t) (sym : Byte) : t.code sym = s.code sym := by
  simp only [State.code, h.codes]

theorem TablesKept.node {s t : State} (h : TablesKept s t) (i : Index) : t.node i = s.node i := by
  simp only [State.node, h.nodes]

theorem TablesKept.rootNode {s t : State} (h : TablesKept s t) : t.node t.rootIdx = s.node s.rootIdx := by
  rw [h.node, h.rootIdx]

theorem CallStep.standsAt {i : Instr} {loc : Loc} {s t : State} (h : CallStep i loc s t) (heng : s.eng = .running loc)
    (hcall : Machine.atCall i loc s = true) : StandsAt i s t := by
  cases h with
  | held => exact .inr ⟨loc, heng, hcall, rfl, rfl, rfl⟩
  | writeBits h =>
    exact (standsAt_writeBitsLoop _ _ (of_decide_eq_true hcall).le).of_transfer (transfer_of_writeBit h)
  | flush | readEof | readBit | skipEof | streamEnd | decodeEof => exact .inl rfl
  | skipBit h => exact (standsAt_skipLoop _ _ _).of_transfer (transfer_of_readBit h)
  | encodeSym h =>
    have htr := transfer_of_writeBit h
    have hv := (Bool.and_eq_true_iff.mp hcall).1
    exact (standsAt_encodeSymLoop _ (htr.tablesKept.code _ ▸ hv) _).of_transfer htr
  | streamByte h => exact (standsAt_streamByte _ _ _).of_transfer (transfer_of_popByte h)
  | streamWrite h =>
    have htr := transfer_of_writeBit h
    have hv := (Bool.and_eq_true_iff.mp hcall).1
    exact (standsAt_streamLoop _ (htr.tablesKept.code _ ▸ hv) _ _).of_transfer htr
  | decodeEmitRoot h =>
    have htr := transfer_of_emit h
    have hk := beq_iff_eq.mp (Bool.and_eq_true_iff.mp hcall).1
    exact (standsAt_decodeRootLoop _ (htr.tablesKept.rootNode ▸ hk) _ _ _).of_transfer htr
  | decodeBit h =>
    have htr := transfer_of_readBit h
    obtain ⟨hk, hr⟩ := Bool.and_eq_true_iff.mp hcall
    exact (standsAt_decodeMove _ (htr.tablesKept.rootNode ▸ beq_iff_eq.mp hk)
      (htr.decRemain ▸ bne_iff_ne.mp hr) _ _).of_transfer htr
  | decodeEmit h =>
    have htr := transfer_of_emit h
    have hk := beq_iff_eq.mp (Bool.and_eq_true_iff.mp hcall).1
    exact (standsAt_decodeLoop _ (htr.tablesKept.rootNode ▸ hk) _ _ _).of_transfer htr

/-! ## The position invariant -/

theorem engineOk_of_idle {s : State} (h : s.eng = .idle) : engineOk s = true := by simp [engineOk, h]

theorem engineOk_of_pending {s : State} (h : s.eng = .pending) : engineOk s = true := by simp [engineOk, h]

theorem engineOk_running_iff {s : State} {loc : Loc} (h : s.eng = .running loc) :
    engineOk s = true ↔ ∃ i, decode s.cmdLast = .ok i ∧ atCall i loc s = true ∧ s.err = .ok ∧
      phaseError i s.phase = .ok := by
  cases hd : decode s.cmdLast <;> simp [engineOk, h, hd, and_assoc]

/-- The three commands the lock lets through have no call. -/
theorem err_eq_ok_of_atCall {i : Instr} {loc : Loc} {s t : State} (hl : lockedOut i.opc s = false)
    (hc : atCall i loc t = true) : s.err = .ok := by
  cases i with
  | nop | clear | ackErr => simp [atCall] at hc
  | _ => simpa [lockedOut, lockExempt, Instr.opc] using hl

theorem StandsAt.engineOk {i : Instr} {s t : State} (h : StandsAt i s t) (hd : decode s.cmdLast = .ok i)
    (hp : phaseError i s.phase = .ok) (he : ∀ loc, Machine.atCall i loc t = true → s.err = .ok) :
    Machine.engineOk t = true := by
  rcases h with hidle | ⟨loc, hr⟩
  · exact engineOk_of_idle hidle
  · exact (engineOk_running_iff hr.eng).mpr
      ⟨i, hr.cmdLast ▸ hd, hr.atCall, hr.err.trans (he loc hr.atCall), hr.phase ▸ hp⟩

theorem exec_engineOk {i : Instr} {s t : State} (hs : engineOk s = true) (hd : decode s.cmdLast = .ok i)
    (h : exec i s = .next t) : engineOk t = true := by
  rcases exec_next h with ⟨rfl, -⟩ | rfl | ⟨rfl, hl, hp⟩ | ⟨loc, heng, hres⟩
  · exact engineOk_of_idle rfl
  · exact engineOk_of_idle rfl
  · exact (standsAt_commandBody s i).engineOk hd hp fun _ => err_eq_ok_of_atCall hl
  · obtain ⟨i', hd', hcall, herr, hp⟩ := (engineOk_running_iff heng).mp hs
    obtain rfl : i' = i := Except.ok.inj (hd'.symm.trans hd)
    exact ((callStep_of_commandResume hres).standsAt heng hcall).engineOk hd hp fun _ _ => herr

/-! ## Host accesses -/

/-- The engine stands where it stood, under the same word and the same ERR, with the decoder's registers unchanged. -/
structure PositionKept (s t : State) : Prop where
  tablesKept : TablesKept s t
  eng : t.eng = s.eng
  err : t.err = s.err
  cmdLast : t.cmdLast = s.cmdLast
  decRemain : t.decRemain = s.decRemain
  decCur : t.decCur = s.decCur

theorem PositionKept.atCall {s t : State} (h : PositionKept s t) (i : Instr) (loc : Loc) :
    Machine.atCall i loc t = Machine.atCall i loc s := by
  have hcode := h.tablesKept.code
  have hroot := h.tablesKept.rootNode
  cases i with
  | writeBits | flush | readBit | skipBits | encodeSym | encodeStream | decode =>
    cases loc <;> simp only [Machine.atCall, hcode, hroot, h.decRemain]
  | _ => rfl

theorem PositionKept.engineOk {s t : State} (h : PositionKept s t) : Machine.engineOk t = Machine.engineOk s := by
  simp only [Machine.engineOk, h.eng, h.cmdLast, h.atCall, h.err, h.tablesKept.phase]

theorem hostRead_positionKept (r : Reg) (s : State) : PositionKept s (hostRead r s) := by
  cases r <;> exact ⟨by constructor <;> rfl, rfl, rfl, rfl, rfl, rfl⟩

/-- A host write leaves the engine idle, latches a word, or keeps its position. -/
theorem hostWrite_position (r : Reg) (v : Word) (s : State) :
    (hostWrite r v s).eng = .idle ∨ (hostWrite r v s).eng = .pending ∨ PositionKept s (hostWrite r v s) := by
  cases r
  case ctrl =>
    rw [hostWrite, writeCtrl]
    split
    · exact .inl rfl
    · split
      · rcases abort_cases { s with eos := v.getLsbD 2 } with ⟨-, h⟩ | ⟨-, h⟩ <;> rw [h]
        · exact .inr (.inr ⟨by constructor <;> rfl, rfl, rfl, rfl, rfl, rfl⟩)
        · exact .inl rfl
      · exact .inr (.inr ⟨by constructor <;> rfl, rfl, rfl, rfl, rfl, rfl⟩)
  case cmd =>
    rcases latch_cases v s with ⟨-, h⟩ | ⟨-, h⟩ <;> rw [hostWrite, h]
    · exact .inr (.inl rfl)
    · exact .inr (.inr ⟨by constructor <;> rfl, rfl, rfl, rfl, rfl, rfl⟩)
  case inData =>
    rw [hostWrite, pushIn]
    split <;> exact .inr (.inr ⟨by constructor <;> rfl, rfl, rfl, rfl, rfl, rfl⟩)
  all_goals exact .inr (.inr ⟨by constructor <;> rfl, rfl, rfl, rfl, rfl, rfl⟩)

theorem hostWrite_engineOk (r : Reg) (v : Word) {s : State} (h : engineOk s = true) :
    engineOk (hostWrite r v s) = true := by
  rcases hostWrite_position r v s with hi | hp | hk
  · exact engineOk_of_idle hi
  · exact engineOk_of_pending hp
  · exact hk.engineOk.trans h

theorem dispatchIllegal_eng (w : Word) (s : State) : (dispatchIllegal w s).eng = .idle := by
  unfold dispatchIllegal; split <;> rfl

theorem step_engineOk {s t : State} (hs : engineOk s = true) (h : step s = .next t) : engineOk t = true :=
  step_keeps (P := fun s => engineOk s = true) (fun _ _ h => h)
    (fun _ _ => engineOk_of_idle (dispatchIllegal_eng _ _)) (fun _ _ _ => exec_engineOk)
    (fun r s h => (hostRead_positionKept r s).engineOk.trans h) (fun r v _ h => hostWrite_engineOk r v h)
    (fun _ _ => engineOk_of_idle rfl) hs h

/-! ## Progress -/

theorem exists_commandResume_of_atCall {i : Instr} {loc : Loc} {s : State} (h : atCall i loc s = true) :
    ∃ t, commandResume i loc s = some t := by
  cases i <;> cases loc <;> simp only [atCall, Bool.false_eq_true] at h
  case readBit.readBit =>
    rw [commandResume, readBitResume]; split <;> exact ⟨_, rfl⟩
  case skipBits.skipBits =>
    rw [commandResume, skipResume]; split <;> exact ⟨_, rfl⟩
  case encodeStream.streamPop =>
    rw [commandResume, encodeStreamResume]; split <;> exact ⟨_, rfl⟩
  case decode.decodeRead =>
    rw [commandResume, decodeResume]; split <;> exact ⟨_, rfl⟩
  all_goals exact ⟨_, rfl⟩

theorem exists_exec_of_pending (i : Instr) {s : State} (h : s.eng = .pending) : ∃ t, exec i s = .next t :=
  ⟨_, (exec_eq_engineStep i s).trans (engineStep_pending h)⟩

theorem exists_engineTurn {s : State} (h : engineOk s = true) : ∃ t, engineTurn s = .next t := by
  unfold engineTurn
  split
  case h_1 => exact ⟨s, rfl⟩
  case h_2 heng =>
    split
    · exact exists_exec_of_pending _ heng
    · exact ⟨_, rfl⟩
  case h_3 loc heng =>
    obtain ⟨i, hd, hcall, -, -⟩ := (engineOk_running_iff heng).mp h
    obtain ⟨t, hres⟩ := exists_commandResume_of_atCall hcall
    rw [hd]
    exact ⟨t, (exec_eq_engineStep i s).trans (engineStep_running heng hres)⟩

theorem exists_hostAccess {a : Access} {s : State} (h : turnAdmitted s.cfg (.host a) = true) :
    ∃ t, hostAccess a s = .next t := by
  cases a <;> obtain ⟨hw, ha⟩ := Bool.and_eq_true_iff.mp h <;> simp [hostAccess, hw, ha]

theorem exists_step {s : State} (h : engineOk s = true) (ht : nextTurnAdmitted s = true) : ∃ t, step s = .next t := by
  unfold step runTurn
  unfold nextTurnAdmitted at ht
  split
  case h_1 => exact exists_engineTurn h
  case h_2 turn rest hturns =>
    rw [hturns] at ht
    cases turn with
    | engine => exact exists_engineTurn (s := { s with turns := rest }) h
    | host a => exact exists_hostAccess (s := { s with turns := rest }) ht
    | powerOn => exact ⟨_, rfl⟩

/-- Settles O50: at a call of its own every command has a step, and each step ends idle or at such a call. -/
theorem stepNeverStopsAndKeepsTheEngineInPlace : Obligations.StepNeverStopsAndKeepsTheEngineInPlace := by
  unfold Obligations.StepNeverStopsAndKeepsTheEngineInPlace
  intro s hs hadm
  obtain ⟨t, ht⟩ := exists_step hs hadm
  exact ⟨t, ht, step_engineOk hs ht⟩

end Sys2Proof.Machine
end

section
/-! PROOFS. The only writers of the records, the tree, the code table and PHASE, what each makes of the invariants of
R34 to R41, and O53. -/

namespace Sys2Proof.Machine

/-! ## Who writes the tables -/

theorem tablesKept_queryNodeBody (idx : Index) (s : State) : TablesKept s (queryNodeBody idx s) := by
  unfold queryNodeBody; split <;> constructor <;> rfl

theorem tablesKept_commandBody (i : Instr) (s : State) :
    TablesKept s (commandBody i s) ∨ i = .clear ∨ i = .build ∨ i = .genCodes ∨
    ∃ sym, i = .loadRecord sym ∧ s.loaded.getLsbD sym.toNat = false ∧ s.total.toNat + s.cmdArg.toNat < 2 ^ 32 ∧
      commandBody i s = appendRecord sym s := by
  cases i with
  | clear | build | genCodes => simp
  | loadRecord sym =>
    rcases loadRecordBody_cases sym s with ⟨c, h⟩ | ⟨hnew, hfit, h⟩
    · exact .inl (by rw [commandBody, h]; exact (controlOnly_raise s c).tablesKept)
    · exact .inr (.inr (.inr (.inr ⟨sym, rfl, hnew, hfit, h⟩)))
  | nop => exact .inl (controlOnly_finish s).tablesKept
  | ackErr | alignRead | queryCode => exact .inl (by constructor <;> rfl)
  | queryNode idx => exact .inl (tablesKept_queryNodeBody idx s)
  | writeBits nb v => exact .inl (controlOnly_writeBitsLoop s _).tablesKept
  | flush | readBit | encodeStream => exact .inl (controlOnly_goTo s _).tablesKept
  | skipBits n => exact .inl (controlOnly_skipLoop s n 0).tablesKept
  | encodeSym sym => exact .inl (controlOnly_encodeSymBody s sym).tablesKept
  | decode => exact .inl (controlOnly_decodeBody s).tablesKept

/-- The four writers of the tables, each in the phases R73 admits; every other step of a command keeps them. -/
theorem exec_tables {i : Instr} {s t : State} (h : exec i s = .next t) :
    TablesKept s t ∨ (i = .clear ∧ t = finish (resetCore s)) ∨
    (i = .build ∧ s.phase = .loaded ∧ t = buildBody s) ∨
    (i = .genCodes ∧ (s.phase = .built ∨ s.phase = .coded) ∧ t = genCodesBody s) ∨
    ∃ sym, i = .loadRecord sym ∧ (s.phase = .empty ∨ s.phase = .loaded) ∧ s.loaded.getLsbD sym.toNat = false ∧
      s.total.toNat + s.cmdArg.toNat < 2 ^ 32 ∧ t = appendRecord sym s := by
  rcases exec_next h with ⟨rfl, -⟩ | rfl | ⟨rfl, -, hp⟩ | ⟨loc, -, hres⟩
  · exact .inl (controlOnly_finish s).tablesKept
  · exact .inl (controlOnly_raise s _).tablesKept
  · rcases tablesKept_commandBody i s with hk | rfl | rfl | rfl | ⟨sym, rfl, hnew, hfit, hb⟩
    · exact .inl hk
    · exact .inr (.inl ⟨rfl, rfl⟩)
    · exact .inr (.inr (.inl ⟨rfl, phaseError_build_iff.mp hp, rfl⟩))
    · exact .inr (.inr (.inr (.inl ⟨rfl, phaseError_genCodes_iff.mp hp, rfl⟩)))
    · exact .inr (.inr (.inr (.inr ⟨sym, rfl, phaseError_loadRecord_iff.mp hp, hnew, hfit, hb⟩)))
  · exact .inl (callStep_of_commandResume hres).tablesKept

theorem hostWrite_tables (r : Reg) (v : Word) (s : State) :
    TablesKept s (hostWrite r v s) ∨ (r = .ctrl ∧ v.getLsbD 0 = true ∧ hostWrite r v s = softReset s) := by
  by_cases hr : r = .ctrl
  · subst hr
    rcases writeCtrl_cases v s with ⟨h0, hw⟩ | ⟨-, hc⟩
    · exact .inr ⟨rfl, h0, hw⟩
    · have heos : TablesKept s { s with eos := v.getLsbD 2 } := by constructor <;> rfl
      exact .inl (heos.trans hc.tablesKept)
  · left
    cases r
    case ctrl => exact absurd rfl hr
    case cmd => rcases latch_cases v s with ⟨-, h⟩ | ⟨-, h⟩ <;> rw [hostWrite, h] <;> constructor <;> rfl
    case inData => rw [hostWrite, pushIn]; split <;> constructor <;> rfl
    all_goals constructor <;> rfl

/-! ## PHASE -/

theorem engineTurn_phase {s t : State} (h : engineTurn s = .next t) (hne : t.phase ≠ s.phase) :
    (s.phase = .empty ∧ t.phase = .loaded ∧ ∃ sym, decode s.cmdLast = .ok (.loadRecord sym)) ∨
    (s.phase = .loaded ∧ t.phase = .built ∧ decode s.cmdLast = .ok .build) ∨
    (s.phase = .built ∧ t.phase = .coded ∧ decode s.cmdLast = .ok .genCodes) ∨
    (t.phase = .empty ∧ decode s.cmdLast = .ok .clear) := by
  rcases engineTurn_next h with ⟨-, rfl⟩ | ⟨-, i, hd, he⟩ | ⟨-, -, rfl⟩
  · exact absurd rfl hne
  · rcases exec_tables he with hk | ⟨rfl, rfl⟩ | ⟨rfl, hp, rfl⟩ | ⟨rfl, hp, rfl⟩ |
      ⟨sym, rfl, hp, -, -, rfl⟩
    · exact absurd hk.phase hne
    · exact .inr (.inr (.inr ⟨rfl, hd⟩))
    · exact .inr (.inl ⟨hp, rfl, hd⟩)
    · exact .inr (.inr (.inl ⟨hp.resolve_right fun hc => hne hc.symm, rfl, hd⟩))
    · exact .inl ⟨hp.resolve_right fun hl => hne hl.symm, rfl, sym, hd⟩
  · exact absurd (controlOnly_dispatchIllegal _ s).tablesKept.phase hne

/-- Settles O53: of the writers of the tables each sets PHASE to its own value, from the phases R73 admits. -/
theorem phaseChangesOnlyAlongThePipeline : Obligations.PhaseChangesOnlyAlongThePipeline := by
  unfold Obligations.PhaseChangesOnlyAlongThePipeline
  intro s t h hne
  obtain ⟨rest, ⟨hm, he⟩ | ⟨r, rfl⟩ | ⟨r, v, hw, rfl⟩ | ⟨hturns, rfl⟩⟩ := step_cases h
  · rcases engineTurn_phase he hne with ⟨hp, hp', hd⟩ | ⟨hp, hp', hd⟩ | ⟨hp, hp', hd⟩ | ⟨hp', hd⟩
    · exact .inl ⟨hm, hp, hp', hd⟩
    · exact .inr (.inl ⟨hm, hp, hp', hd⟩)
    · exact .inr (.inr (.inl ⟨hm, hp, hp', hd⟩))
    · exact .inr (.inr (.inr ⟨hp', .inl ⟨hm, hd⟩⟩))
  · exact absurd (hostRead_positionKept r _).tablesKept.phase hne
  · rcases hostWrite_tables r v { s with turns := rest } with hk | ⟨rfl, h0, hreset⟩
    · exact absurd hk.phase hne
    · exact .inr (.inr (.inr ⟨congrArg State.phase hreset, .inr (.inl ⟨v, hw, h0⟩)⟩))
  · exact .inr (.inr (.inr ⟨rfl, .inr (.inr ⟨rest, hturns⟩)⟩))

/-! ## The records -/

section
variable {s t : State}

theorem TablesKept.recordOk (h : TablesKept s t) (hs : RecordOk s) : RecordOk t := by
  simpa only [RecordOk, h.nrec, h.phase, h.rootValid, h.rootIdx, h.nodes, h.loaded, h.total] using hs

theorem TablesKept.treeOk (h : TablesKept s t) (hs : TreeOk s) : TreeOk t := by
  simpa only [TreeOk, h.nrec, h.phase, h.node, h.rootIdx, h.nodes, h.codes, h.total] using hs

theorem recordOk_resetCore (s : State) : RecordOk (resetCore s) := by
  refine ⟨?_, ?_, ?_, ?_, ⟨?_, ?_⟩, ?_, ?_⟩ <;> simp [resetCore, countSum]

theorem treeOk_resetCore (s : State) : TreeOk (resetCore s) := by
  constructor <;> simp [resetCore]

/-- The loaded symbols are distinct, so with 256 records every symbol is loaded (R35, R37). -/
theorem nrec_lt_of_not_loaded (h : RecordOk s) {sym : Byte} (hnew : s.loaded.getLsbD sym.toNat = false) :
    s.nrec.toNat < 256 := by
  obtain ⟨hn, -, -, -, ⟨-, hsym⟩, hloaded, -⟩ := h
  refine hn.lt_of_ne fun h256 => ?_
  have hinj : Function.Injective fun i : Fin (2 ^ 8) => (readNode s.nodes i).sym.toFin := by
    intro i j hij
    have heq := congrArg BitVec.ofFin hij
    rcases lt_trichotomy i j with hlt | rfl | hlt
    · exact absurd heq.symm (hsym j (by omega) i hlt)
    · rfl
    · exact absurd heq (hsym i (by omega) j hlt)
  obtain ⟨i, hi⟩ := Finite.surjective_of_injective hinj sym.toFin
  have hmem := (hloaded sym.toNat sym.isLt).mpr ⟨i, by omega, congrArg Fin.val hi⟩
  simp [hnew] at hmem

theorem countSum_congr {nodes nodes' : Vector Node 511} {n : Nat}
    (h : ∀ i < n, readNode nodes' i = readNode nodes i) : countSum nodes' n = countSum nodes n :=
  congrArg List.sum (List.map_congr_left fun i hi => by rw [h i (List.mem_range.mp hi)])

theorem countSum_succ (nodes : Vector Node 511) (n : Nat) :
    countSum nodes (n + 1) = countSum nodes n + (readNode nodes n).count.toNat := by
  simp [countSum, List.range_succ]

theorem readNode_appendRecord_last (sym : Byte) (hn : s.nrec.toNat < 256) :
    readNode (appendRecord sym s).nodes s.nrec.toNat = ⟨.leaf, sym, s.cmdArg, 0, 0⟩ :=
  readNode_writeNode_same _ _ (by omega)

theorem readNode_appendRecord_of_lt (sym : Byte) {i : Nat} (hi : i < s.nrec.toNat) :
    readNode (appendRecord sym s).nodes i = readNode s.nodes i :=
  readNode_writeNode_other _ _ hi.ne'

/-- A Leaf with a new symbol keeps the symbols distinct (R39). -/
theorem leafShape_appendRecord (h : LeafShape s.nodes s.nrec.toNat) {sym : Byte} (hn : s.nrec.toNat < 256)
    (hfresh : ∀ i < s.nrec.toNat, (readNode s.nodes i).sym ≠ sym) :
    LeafShape (appendRecord sym s).nodes (s.nrec.toNat + 1) := by
  obtain ⟨hleaf, hsym⟩ := h
  have hlast := readNode_appendRecord_last sym hn
  refine ⟨fun i hi => ?_, fun i hi j hj => ?_⟩ <;> rcases Nat.lt_succ_iff_lt_or_eq.mp hi with hlt | rfl
  · rw [readNode_appendRecord_of_lt sym hlt]; exact hleaf i hlt
  · rw [hlast]; exact ⟨rfl, rfl, rfl⟩
  · rw [readNode_appendRecord_of_lt sym hlt, readNode_appendRecord_of_lt sym (hj.trans hlt)]
    exact hsym i hlt j hj
  · rw [hlast, readNode_appendRecord_of_lt sym hj]; exact (hfresh j hj).symm

/-- LOADED marks the new symbol with the old ones (R37). -/
theorem loaded_appendRecord_iff {c : Nat} (hc : c < 256) {sym : Byte} (hn : s.nrec.toNat < 256)
    (h : s.loaded.getLsbD c = true ↔ ∃ i < s.nrec.toNat, (readNode s.nodes i).sym.toNat = c) :
    (appendRecord sym s).loaded.getLsbD c = true ↔
      ∃ i < s.nrec.toNat + 1, (readNode (appendRecord sym s).nodes i).sym.toNat = c := by
  have hbit : (appendRecord sym s).loaded.getLsbD c = (decide (c = sym.toNat) || s.loaded.getLsbD c) :=
    setLoaded_getLsbD _ _ _ hc
  rw [hbit, Bool.or_eq_true, decide_eq_true_iff, h, Nat.exists_lt_succ_right, readNode_appendRecord_last sym hn,
    or_comm, eq_comm]
  exact or_congr_left (exists_congr fun i => and_congr_right fun hi => by rw [readNode_appendRecord_of_lt sym hi])

theorem recordOk_appendRecord (h : RecordOk s) {sym : Byte} (hp : s.phase = .empty ∨ s.phase = .loaded)
    (hnew : s.loaded.getLsbD sym.toNat = false) (hfit : s.total.toNat + s.cmdArg.toNat < 2 ^ 32) :
    RecordOk (appendRecord sym s) := by
  have hn := nrec_lt_of_not_loaded h hnew
  obtain ⟨-, -, hvalid, hroot, hleaf, hloaded, htotal⟩ := h
  have hsucc : (s.nrec + 1).toNat = s.nrec.toNat + 1 := by simp [BitVec.toNat_add]; omega
  have hsum : (s.total + s.cmdArg).toNat = s.total.toNat + s.cmdArg.toNat := by rw [BitVec.toNat_add]; omega
  have hinvalid : s.rootValid = false := by
    rw [← Bool.not_eq_true, hvalid]; rcases hp with hp | hp <;> simp [hp]
  have hfresh : ∀ i < s.nrec.toNat, (readNode s.nodes i).sym ≠ sym := fun i hi he => by
    simp [(hloaded sym.toNat sym.isLt).mpr ⟨i, hi, by rw [he]⟩] at hnew
  simp only [RecordOk, appendRecord_nrec, hsucc]
  refine ⟨hn, by simp [appendRecord], by simp [appendRecord, hinvalid], fun _ => hroot hinvalid,
    leafShape_appendRecord hleaf hn hfresh, fun c hc => loaded_appendRecord_iff hc hn (hloaded c hc), ?_⟩
  rw [countSum_succ, readNode_appendRecord_last sym hn, countSum_congr fun i hi => readNode_appendRecord_of_lt sym hi,
    ← htotal]
  exact hsum

theorem recordOk_buildBody (h : RecordOk s) (hp : s.phase = .loaded) : RecordOk (buildBody s) := by
  obtain ⟨hn, hempty, -, -, hleaf, hloaded, htotal⟩ := h
  have hold : ∀ i < s.nrec.toNat, readNode (buildBody s).nodes i = readNode s.nodes i := fun i hi =>
    readNode_mergeAll_of_lt _ _ hi
  refine ⟨hn, ?_, by simp [buildBody], by simp [buildBody], hleaf.of_readNode_eq hold, fun c hc => ?_, ?_⟩
  · simpa [buildBody, hp] using hempty
  · exact (hloaded c hc).trans (exists_congr fun i => and_congr_right fun hi => by rw [hold i hi])
  · exact htotal.trans (countSum_congr hold).symm

theorem treeOk_buildBody (h : RecordOk s) (hp : s.phase = .loaded) : TreeOk (buildBody s) := by
  obtain ⟨htree, -, hcount⟩ := buildBody_makes_tree h hp
  exact ⟨fun _ => ⟨htree, hcount⟩, by simp [buildBody]⟩

theorem recordOk_genCodesBody (h : RecordOk s) (hp : s.phase = .built ∨ s.phase = .coded) :
    RecordOk (genCodesBody s) := by
  obtain ⟨hn, hempty, hvalid, hroot, hrest⟩ := h
  refine ⟨hn, ?_, ?_, hroot, hrest⟩
  · have hne : s.phase ≠ .empty := by rcases hp with hp | hp <;> simp [hp]
    simpa [genCodesBody, hne] using hempty
  · simpa [genCodesBody, hp] using hvalid

theorem treeOk_genCodesBody (h : TreeOk s) (hp : s.phase = .built ∨ s.phase = .coded) : TreeOk (genCodesBody s) :=
  ⟨fun _ => h.1 hp, fun _ => rfl⟩

/-- The records and the tree along a step of a command (R34 to R41). -/
theorem exec_recordOk_treeOk {i : Instr} (h : exec i s = .next t) (hr : RecordOk s) (ht : TreeOk s) :
    RecordOk t ∧ TreeOk t := by
  rcases exec_tables h with hk | ⟨-, rfl⟩ | ⟨-, hp, rfl⟩ | ⟨-, hp, rfl⟩ | ⟨sym, -, hp, hnew, hfit, rfl⟩
  · exact ⟨hk.recordOk hr, hk.treeOk ht⟩
  · exact ⟨recordOk_resetCore s, treeOk_resetCore s⟩
  · exact ⟨recordOk_buildBody hr hp, treeOk_buildBody hr hp⟩
  · exact ⟨recordOk_genCodesBody hr hp, treeOk_genCodesBody ht hp⟩
  · exact ⟨recordOk_appendRecord hr hp hnew hfit, by constructor <;> simp [appendRecord]⟩

end

end Sys2Proof.Machine
end

section
/-! PROOFS. Where a running DECODE stands in the tree (R49, R113), and from this and the rest of the invariants O51 and
O48. -/

namespace Sys2Proof.Machine

/-! ## Leaves and Internal nodes of a built tree -/

section
variable {s : State} (hr : RecordOk s) (ht : TreeOk s) (hp : s.phase = .built ∨ s.phase = .coded)
include hr ht hp

/-- ROOT_IDX + 1 is the number of entries of the tree (R40). -/
theorem rootIdx_toNat : s.rootIdx.toNat = 2 * s.nrec.toNat - 2 ∧ 1 ≤ s.nrec.toNat := by
  obtain ⟨-, hempty, -⟩ := hr
  obtain ⟨⟨hroot, -⟩, -⟩ := ht.1 hp
  exact ⟨hroot, Nat.one_le_iff_ne_zero.mpr fun h0 => by rcases hp with hp | hp <;> simp [hp] at hempty <;> omega⟩

/-- The records are the Leaves and every later entry of the tree is Internal (R39). -/
theorem node_kind_eq_leaf_iff {i : Index} (hi : i.toNat ≤ s.rootIdx.toNat) :
    (s.node i).kind = .leaf ↔ i.toNat < s.nrec.toNat := by
  obtain ⟨hroot, h1⟩ := rootIdx_toNat hr ht hp
  obtain ⟨-, -, -, -, ⟨hleaf, -⟩, -⟩ := hr
  obtain ⟨⟨-, hint, -⟩, -⟩ := ht.1 hp
  refine ⟨fun hk => ?_, fun hlt => (hleaf _ hlt).1⟩
  by_contra hge
  have hk' := (hint i.toNat (by omega) (by omega)).1
  rw [State.node, hk'] at hk
  cases hk

theorem node_kind_eq_internal_iff {i : Index} (hi : i.toNat ≤ s.rootIdx.toNat) :
    (s.node i).kind = .internal ↔ s.nrec.toNat ≤ i.toNat := by
  rw [← not_lt, ← node_kind_eq_leaf_iff hr ht hp hi]
  cases (s.node i).kind <;> simp

/-- A child of an Internal node stands below it (R39). -/
theorem childOf_lt {i : Index} (hi : i.toNat ≤ s.rootIdx.toNat) (hn : s.nrec.toNat ≤ i.toNat) (b : Bool) :
    (childOf b (s.node i)).toNat < i.toNat := by
  obtain ⟨hroot, h1⟩ := rootIdx_toNat hr ht hp
  obtain ⟨⟨-, hint, -⟩, -⟩ := ht.1 hp
  obtain ⟨-, -, hl, hr', -⟩ := hint i.toNat (by omega) hn
  cases b <;> assumption

end

/-! ## The decoder -/

theorem decoderOk_of_idle {s : State} (h : s.eng = .idle) : decoderOk s = true := by simp [decoderOk, h]

theorem decoderOk_of_pending {s : State} (h : s.eng = .pending) : decoderOk s = true := by simp [decoderOk, h]

theorem PositionKept.decoderOk {s t : State} (h : PositionKept s t) : Machine.decoderOk t = Machine.decoderOk s := by
  simp only [Machine.decoderOk, h.eng, h.decCur, h.decRemain, h.tablesKept.rootIdx, h.tablesKept.nrec,
    h.tablesKept.node]

/-- Only DECODE uses the decoder's registers. -/
theorem StandsAt.decoderOk {i : Instr} {s t : State} (h : StandsAt i s t) (hi : i ≠ .decode) :
    Machine.decoderOk t = true := by
  rcases h with hidle | ⟨loc, hr⟩
  · exact decoderOk_of_idle hidle
  · have hcall := hr.atCall
    cases loc <;> simp only [Machine.decoderOk, hr.eng]
    all_goals cases i <;> simp [Machine.atCall] at hcall hi

theorem decoderOk_decodeRootLoop {s : State} {e r : Word} {c : Index} (hc : c = s.rootIdx)
    (hsum : e.toNat + r.toNat = (s.node s.rootIdx).count.toNat) :
    decoderOk (decodeRootLoop e { s with decRemain := r, decCur := c }) = true := by
  unfold decodeRootLoop
  split
  · exact decoderOk_of_idle rfl
  · simpa [decoderOk, goTo, State.node, hc] using hsum

theorem decoderOk_decodeLoop {s : State} {e r : Word} {c : Index} (hn : s.nrec.toNat ≤ c.toNat)
    (hc : c.toNat ≤ s.rootIdx.toNat) (hsum : e.toNat + r.toNat = (s.node s.rootIdx).count.toNat) :
    decoderOk (decodeLoop e { s with decRemain := r, decCur := c }) = true := by
  unfold decodeLoop
  split
  · exact decoderOk_of_idle rfl
  · simpa [decoderOk, goTo, State.node, hn, hc] using hsum

/-- One symbol more emitted is one fewer due. -/
theorem emitted_add_remaining {e r : Word} {n : Nat} (h : e.toNat + r.toNat = n) (hr : r ≠ 0) (hn : n < 2 ^ 32) :
    (e + 1).toNat + (r - 1).toNat = n := by
  have hpos : r.toNat ≠ 0 := fun h0 => hr (BitVec.eq_of_toNat_eq h0)
  have hpred : (r - 1).toNat = r.toNat - 1 :=
    BitVec.toNat_sub_of_le (BitVec.le_def.mpr (Nat.one_le_iff_ne_zero.mpr hpos))
  have hsucc : (e + 1).toNat = e.toNat + 1 := by simp [BitVec.toNat_add]; omega
  omega

section
variable {s : State} (hr : RecordOk s) (ht : TreeOk s) (hp : s.phase = .built ∨ s.phase = .coded)
include hr ht hp

theorem decoderOk_decodeBody : decoderOk (decodeBody s) = true := by
  unfold decodeBody
  split
  case h_1 => exact decoderOk_decodeRootLoop rfl (by simp)
  case h_2 hk =>
    exact decoderOk_decodeLoop ((node_kind_eq_internal_iff hr ht hp le_rfl).mp hk) le_rfl (by simp)

theorem decoderOk_decodeMove {e : Word} (b : Bool) (hn : s.nrec.toNat ≤ s.decCur.toNat)
    (hc : s.decCur.toNat ≤ s.rootIdx.toNat)
    (hsum : e.toNat + s.decRemain.toNat = (s.node s.rootIdx).count.toNat) :
    decoderOk (decodeMove e b s) = true := by
  have hchild := ((childOf_lt hr ht hp hc hn b).trans_le hc).le
  unfold decodeMove
  split
  case h_1 hk =>
    have hlt := (node_kind_eq_leaf_iff hr ht hp hchild).mp hk
    exact Bool.and_eq_true_iff.mpr ⟨decide_eq_true hlt, beq_iff_eq.mpr hsum⟩
  case h_2 hk => exact decoderOk_decodeLoop ((node_kind_eq_internal_iff hr ht hp hchild).mp hk) hchild hsum

end

/-- The fields DECODE reads of the tables are untouched by the primitive before it moves on. -/
theorem callStep_decode_decoderOk {loc : Loc} {s t : State} (hr : RecordOk s) (ht : TreeOk s)
    (hp : s.phase = .built ∨ s.phase = .coded) (h : CallStep .decode loc s t) (heng : s.eng = .running loc)
    (hcall : atCall .decode loc s = true) (hdec : decoderOk s = true) : decoderOk t = true := by
  have hcount := (s.node s.rootIdx).count.isLt
  cases h with
  | held => exact hdec
  | decodeEof => exact decoderOk_of_idle rfl
  | decodeEmitRoot h =>
    have htr := transfer_of_emit h
    have hk := htr.tablesKept
    simp only [decoderOk, heng, Bool.and_eq_true, beq_iff_eq] at hdec
    have hr0 := bne_iff_ne.mp (Bool.and_eq_true_iff.mp hcall).2
    obtain ⟨hcur, hsum⟩ := hdec
    refine decoderOk_decodeRootLoop (by rw [htr.decCur, hk.rootIdx, hcur]) ?_
    rw [hk.rootNode, htr.decRemain]
    exact emitted_add_remaining hsum hr0 hcount
  | decodeBit h =>
    have htr := transfer_of_readBit h
    have hk := htr.tablesKept
    simp only [decoderOk, heng, Bool.and_eq_true, beq_iff_eq, decide_eq_true_eq] at hdec
    obtain ⟨⟨hn, hc⟩, hsum⟩ := hdec
    exact decoderOk_decodeMove (hk.recordOk hr) (hk.treeOk ht) (hk.phase ▸ hp) _ (by rwa [hk.nrec, htr.decCur])
      (by rwa [hk.rootIdx, htr.decCur]) (by rwa [hk.rootNode, htr.decRemain])
  | decodeEmit h =>
    have htr := transfer_of_emit h
    have hk := htr.tablesKept
    simp only [decoderOk, heng, Bool.and_eq_true, beq_iff_eq, decide_eq_true_eq] at hdec
    obtain ⟨hkind, hr0⟩ := Bool.and_eq_true_iff.mp hcall
    have hroot := (node_kind_eq_internal_iff hr ht hp le_rfl).mp (beq_iff_eq.mp hkind)
    refine decoderOk_decodeLoop (by rwa [hk.nrec, hk.rootIdx]) le_rfl ?_
    rw [hk.rootNode, htr.decRemain]
    exact emitted_add_remaining hdec.2 (bne_iff_ne.mp hr0) hcount

theorem exec_decoderOk {i : Instr} {s t : State} (hr : RecordOk s) (ht : TreeOk s) (heng : engineOk s = true)
    (hdec : decoderOk s = true) (hd : decode s.cmdLast = .ok i) (h : exec i s = .next t) : decoderOk t = true := by
  rcases exec_next h with ⟨rfl, -⟩ | rfl | ⟨rfl, -, hp⟩ | ⟨loc, hrun, hres⟩
  · exact decoderOk_of_idle rfl
  · exact decoderOk_of_idle rfl
  · by_cases hi : i = .decode
    · subst hi
      exact decoderOk_decodeBody hr ht (phaseError_decode_iff.mp hp)
    · exact (standsAt_commandBody s i).decoderOk hi
  · obtain ⟨i', hd', hcall, -, hp⟩ := (engineOk_running_iff hrun).mp heng
    obtain rfl : i' = i := Except.ok.inj (hd'.symm.trans hd)
    have hstep := callStep_of_commandResume hres
    by_cases hi : i' = .decode
    · subst hi
      exact callStep_decode_decoderOk hr ht (phaseError_decode_iff.mp hp) hstep hrun hcall hdec
    · exact (hstep.standsAt hrun hcall).decoderOk hi

/-! ## All the invariants -/

theorem inv_resetCore {s : State} (h : s.cfg.Admitted) : Inv (resetCore s) :=
  ⟨resetCore_bufferOk h, recordOk_resetCore s, treeOk_resetCore s, engineOk_of_idle rfl, decoderOk_of_idle rfl⟩

theorem exec_inv {i : Instr} {s t : State} (hs : Inv s) (hd : decode s.cmdLast = .ok i) (h : exec i s = .next t) :
    Inv t := by
  obtain ⟨hb, hr, ht, heng, hdec⟩ := hs
  obtain ⟨hr', ht'⟩ := exec_recordOk_treeOk h hr ht
  exact ⟨exec_bufferOk h hb, hr', ht', exec_engineOk heng hd h, exec_decoderOk hr ht heng hdec hd h⟩

theorem dispatchIllegal_inv (w : Word) {s : State} (hs : Inv s) : Inv (dispatchIllegal w s) := by
  obtain ⟨hb, hr, ht, -, -⟩ := hs
  have hc := controlOnly_dispatchIllegal w s
  have hi := dispatchIllegal_eng w s
  exact ⟨hc.buffersKept.bufferOk hb, hc.tablesKept.recordOk hr, hc.tablesKept.treeOk ht, engineOk_of_idle hi,
    decoderOk_of_idle hi⟩

theorem hostRead_inv (r : Reg) {s : State} (hs : Inv s) : Inv (hostRead r s) := by
  obtain ⟨hb, hr, ht, heng, hdec⟩ := hs
  have hk := hostRead_positionKept r s
  exact ⟨hostRead_bufferOk r hb, hk.tablesKept.recordOk hr, hk.tablesKept.treeOk ht, hk.engineOk.trans heng,
    hk.decoderOk.trans hdec⟩

theorem hostWrite_decoderOk (r : Reg) (v : Word) {s : State} (h : decoderOk s = true) :
    decoderOk (hostWrite r v s) = true := by
  rcases hostWrite_position r v s with hi | hp | hk
  · exact decoderOk_of_idle hi
  · exact decoderOk_of_pending hp
  · exact hk.decoderOk.trans h

theorem hostWrite_inv (r : Reg) (v : Word) {s : State} (hs : Inv s) : Inv (hostWrite r v s) := by
  rcases hostWrite_tables r v s with hk | ⟨-, -, hw⟩
  · obtain ⟨hb, hr, ht, heng, hdec⟩ := hs
    exact ⟨hostWrite_bufferOk r v hb, hk.recordOk hr, hk.treeOk ht, hostWrite_engineOk r v heng,
      hostWrite_decoderOk r v hdec⟩
  · rw [hw]
    exact inv_resetCore (s := softReset s) hs.1.1

/-- Settles O51: the invariants of the buffers, of the tables and of the engine's position, each kept by every step. -/
theorem stepKeepsEveryInvariant : Obligations.StepKeepsEveryInvariant := by
  unfold Obligations.StepKeepsEveryInvariant
  intro s t hs h
  exact step_keeps (P := Inv) (fun _ _ h => h) (fun s h => dispatchIllegal_inv _ h) (fun _ _ _ => exec_inv)
    (fun r _ h => hostRead_inv r h) (fun r v _ h => hostWrite_inv r v h)
    (fun s h => inv_resetCore (s := powerOn s) h.1.1) hs h

/-- Settles O48: the reset state is its own ResetCore. -/
theorem resetMeetsEveryInvariant : Obligations.ResetMeetsEveryInvariant := by
  unfold Obligations.ResetMeetsEveryInvariant
  intro c hc
  exact inv_resetCore (s := State.resetWith c) hc

end Sys2Proof.Machine
end

section
/-! PROOFS. When RESULT changes (R21): O54. -/

namespace Sys2Proof.Machine

/-- RESULT is as it was, or it was written as the command ended without a new error. -/
def ReportsAtEnd (s t : State) : Prop := t.result = s.result ∨ (t.eng = .idle ∧ t.err = s.err)

theorem ReportsAtEnd.of_transfer {s s' t : State} (h : ReportsAtEnd s' t) (htr : Transfer s s') : ReportsAtEnd s t :=
  h.imp (·.trans htr.result) (And.imp_right (·.trans htr.err))

section
variable (s : State)

theorem reportsAtEnd_complete (r : Word) : ReportsAtEnd s (complete r s) := .inr ⟨rfl, rfl⟩

theorem reportsAtEnd_skipLoop (n : BitVec 24) (k : Nat) : ReportsAtEnd s (skipLoop n k s) := by
  unfold skipLoop
  split
  · exact .inl rfl
  · exact reportsAtEnd_complete s _

theorem reportsAtEnd_decodeRootLoop (e r : Word) (c : Index) :
    ReportsAtEnd s (decodeRootLoop e { s with decRemain := r, decCur := c }) := by
  unfold decodeRootLoop
  split
  · exact .inr ⟨rfl, rfl⟩
  · exact .inl rfl

theorem reportsAtEnd_decodeLoop (e r : Word) (c : Index) :
    ReportsAtEnd s (decodeLoop e { s with decRemain := r, decCur := c }) := by
  unfold decodeLoop
  split
  · exact .inr ⟨rfl, rfl⟩
  · exact .inl rfl

theorem reportsAtEnd_decodeMove (e : Word) (b : Bool) : ReportsAtEnd s (decodeMove e b s) := by
  unfold decodeMove
  split
  · exact .inl rfl
  · exact reportsAtEnd_decodeLoop s e s.decRemain _

theorem reportsAtEnd_decodeBody : ReportsAtEnd s (decodeBody s) := by
  unfold decodeBody
  split
  · exact reportsAtEnd_decodeRootLoop s 0 _ _
  · exact reportsAtEnd_decodeLoop s 0 _ _

end

/-- The commands whose pseudocode writes RESULT (R21). -/
def WritesResult (i : Instr) : Prop := i = .readBit ∨ (∃ n, i = .skipBits n) ∨ i = .encodeStream ∨ i = .decode

theorem streamLoop_result (cnt : Word) (v : Byte) (j : Nat) (s : State) :
    (streamLoop cnt v j s).result = s.result := by
  unfold streamLoop; split <;> rfl

theorem streamByte_result (cnt : Word) (v : Byte) (s : State) : (streamByte cnt v s).result = s.result := by
  unfold streamByte
  split
  · exact streamLoop_result cnt v 0 s
  · exact raise_result s _

theorem encodeSymLoop_result (sym : Byte) (j : Nat) (s : State) : (encodeSymLoop sym j s).result = s.result := by
  unfold encodeSymLoop; split <;> rfl

theorem writeBitsLoop_result (j : Nat) (s : State) : (writeBitsLoop j s).result = s.result := by
  cases j <;> rfl

theorem commandBody_result (i : Instr) (s : State) (hi : i ≠ .clear) :
    (commandBody i s).result = s.result ∨ (WritesResult i ∧ ReportsAtEnd s (commandBody i s)) := by
  cases i with
  | clear => exact absurd rfl hi
  | nop | ackErr | build | genCodes | queryCode | flush | readBit | alignRead | encodeStream => exact .inl rfl
  | loadRecord sym =>
    rcases loadRecordBody_cases sym s with ⟨c, h⟩ | ⟨-, -, h⟩ <;> rw [commandBody, h]
    · exact .inl (raise_result s c)
    · exact .inl rfl
  | queryNode idx => rw [commandBody, queryNodeBody]; split <;> exact .inl rfl
  | writeBits nb v => exact .inl (writeBitsLoop_result _ s)
  | skipBits n => exact .inr ⟨.inr (.inl ⟨n, rfl⟩), reportsAtEnd_skipLoop s n 0⟩
  | encodeSym sym =>
    rw [commandBody, encodeSymBody]
    split
    · exact .inl (encodeSymLoop_result sym 0 s)
    · exact .inl (raise_result s _)
  | decode => exact .inr ⟨.inr (.inr (.inr rfl)), reportsAtEnd_decodeBody s⟩

theorem CallStep.result {i : Instr} {loc : Loc} {s t : State} (h : CallStep i loc s t) :
    t.result = s.result ∨ (WritesResult i ∧ ReportsAtEnd s t) := by
  cases h with
  | held => exact .inl rfl
  | writeBits h => exact .inl ((writeBitsLoop_result _ _).trans (transfer_of_writeBit h).result)
  | flush h => exact .inl (transfer_of_flushByte h).result
  | readEof => exact .inr ⟨.inl rfl, reportsAtEnd_complete s _⟩
  | readBit h => exact .inr ⟨.inl rfl, (reportsAtEnd_complete _ _).of_transfer (transfer_of_readBit h)⟩
  | skipEof => exact .inr ⟨.inr (.inl ⟨_, rfl⟩), reportsAtEnd_complete s _⟩
  | skipBit h =>
    exact .inr ⟨.inr (.inl ⟨_, rfl⟩), (reportsAtEnd_skipLoop _ _ _).of_transfer (transfer_of_readBit h)⟩
  | encodeSym h => exact .inl ((encodeSymLoop_result _ _ _).trans (transfer_of_writeBit h).result)
  | streamEnd => exact .inr ⟨.inr (.inr (.inl rfl)), reportsAtEnd_complete s _⟩
  | streamByte h => exact .inl ((streamByte_result _ _ _).trans (transfer_of_popByte h).result)
  | streamWrite h => exact .inl ((streamLoop_result _ _ _ _).trans (transfer_of_writeBit h).result)
  | decodeEmitRoot h =>
    exact .inr ⟨.inr (.inr (.inr rfl)), (reportsAtEnd_decodeRootLoop _ _ _ _).of_transfer (transfer_of_emit h)⟩
  | decodeEof => exact .inl (raise_result s _)
  | decodeBit h =>
    exact .inr ⟨.inr (.inr (.inr rfl)), (reportsAtEnd_decodeMove _ _ _).of_transfer (transfer_of_readBit h)⟩
  | decodeEmit h =>
    exact .inr ⟨.inr (.inr (.inr rfl)), (reportsAtEnd_decodeLoop _ _ _ _).of_transfer (transfer_of_emit h)⟩

/-- Settles O54: RESULT is written by `complete` alone, and only four commands end by it. -/
theorem resultIsWrittenOnlyOnCompletion : Obligations.ResultIsWrittenOnlyOnCompletion := by
  unfold Obligations.ResultIsWrittenOnlyOnCompletion
  intro i s t h hne hi
  have hres : t.result = s.result ∨ (WritesResult i ∧ ReportsAtEnd s t) := by
    rcases exec_next h with ⟨rfl, -⟩ | rfl | ⟨rfl, -, -⟩ | ⟨loc, -, hres⟩
    · exact .inl rfl
    · exact .inl (raise_result s _)
    · exact commandBody_result i s hi
    · exact (callStep_of_commandResume hres).result
  obtain ⟨hw, hend⟩ := hres.resolve_left hne
  exact ⟨hw, hend.resolve_left hne⟩

end Sys2Proof.Machine
end

section
/-! PROOFS. BUILD and GEN_CODES read only the entries already written, and the other operations commute with an exchange
of the tables where they do not read them. -/

namespace Sys2Proof.Machine

/-! ## The merge and the walk read written entries only -/

section
variable {nodes nodes' : Vector Node 511}

theorem readNode_writeNode_congr {next : Nat} {n : Node} (hnext : next < 511)
    (h : ∀ i < next, readNode nodes' i = readNode nodes i) :
    ∀ i < next + 1, readNode (writeNode nodes' next n) i = readNode (writeNode nodes next n) i := by
  intro i hi
  rcases Nat.lt_succ_iff_lt_or_eq.mp hi with hlt | rfl
  · rw [readNode_writeNode_other _ _ (by omega), readNode_writeNode_other _ _ (by omega), h i hlt]
  · rw [readNode_writeNode_same _ _ hnext, readNode_writeNode_same _ _ hnext]

/-- The loop of R102 merges alike in two arenas that agree below the first free entry. -/
theorem mergeLoop_congr (fuel : Nat) {heap : List Nat} {next : Nat} (hheap : ∀ j ∈ heap, j < next)
    (h : ∀ i < next, readNode nodes' i = readNode nodes i) (hroom : next + heap.length ≤ 512)
    (hfuel : heap.length ≤ fuel + 1) :
    (mergeLoop fuel heap next nodes').1 = (mergeLoop fuel heap next nodes).1 ∧
    ∀ i < next + (heap.length - 1),
      readNode (mergeLoop fuel heap next nodes').2 i = readNode (mergeLoop fuel heap next nodes).2 i := by
  induction fuel generalizing heap next nodes nodes' with
  | zero => exact ⟨rfl, fun i hi => h i (by omega)⟩
  | succ fuel ih =>
    match heap, hheap, hroom, hfuel with
    | [], _, _, _ => exact ⟨rfl, h⟩
    | [r], _, _, _ => rw [mergeLoop_singleton, mergeLoop_singleton]; exact ⟨rfl, h⟩
    | i :: j :: tail, hheap, hroom, hfuel =>
      obtain ⟨a, b, rest, hp, hloop⟩ := exists_mergeLoop_succ nodes (heap := i :: j :: tail) (by simp)
      have hlen := hp.length_eq
      simp only [List.length_cons] at hlen hroom hfuel
      have hrest : ∀ k ∈ rest ++ [next], k < next + 1 := by
        intro k hk
        rcases List.mem_append.mp hk with hk | hk
        · exact (hheap k (hp.mem_iff.mpr (by simp [hk]))).trans (Nat.lt_succ_self next)
        · simp at hk; omega
      rw [hloop nodes' fun k hk => h k (hheap k hk), hloop nodes fun _ _ => rfl]
      exact (ih hrest (readNode_writeNode_congr (by omega) h) (by simp; omega) (by simp; omega)).imp_right
        fun hagree k hk => hagree k (by simp at hk ⊢; omega)

theorem mergeAll_congr {n : Nat} (hn : n ≤ 256) (h : ∀ i < n, readNode nodes' i = readNode nodes i) :
    (mergeAll n nodes').1 = (mergeAll n nodes).1 ∧
    ∀ i < 2 * n - 1, readNode (mergeAll n nodes').2 i = readNode (mergeAll n nodes).2 i := by
  obtain ⟨hheap, hnodes⟩ := mergeLoop_congr n (heap := List.range n) (fun j => List.mem_range.mp) h (by simp; omega)
    (by simp)
  exact ⟨hheap, fun i hi => hnodes i (by simp; omega)⟩

/-- Walk stays among the entries up to a root below which every child stands. -/
theorem walk_congr {r : Nat} (h : ∀ i : Index, i.toNat ≤ r → readNode nodes' i.toNat = readNode nodes i.toNat)
    (hchild : ∀ i : Index, i.toNat ≤ r → (readNode nodes i.toNat).kind = .internal →
      ∀ b, (childOf b (readNode nodes i.toNat)).toNat ≤ r)
    (fuel : Nat) {i : Index} (hi : i.toNat ≤ r) (p : List Bool) (codes : Vector CodeEntry 256) :
    walk fuel nodes' i p codes = walk fuel nodes i p codes := by
  induction fuel generalizing i p codes with
  | zero => rfl
  | succ fuel ih =>
    rw [walk, walk, h i hi]
    split
    case h_1 => rfl
    case h_2 hk => exact (congrArg _ (ih (hchild i hi hk false) _ _)).trans (ih (hchild i hi hk true) _ _)

end

/-! ## Exchanging the tables -/

/-- The state with another arena and another code table. -/
def State.withTables (ns : Vector Node 511) (cs : Vector CodeEntry 256) (s : State) : State :=
  { s with nodes := ns, codes := cs }

theorem SameVisible.exists_withTables {s s' : State} (h : SameVisible s s') : ∃ ns cs, s' = s.withTables ns cs :=
  ⟨s'.nodes, s'.codes, h.1⟩

section
variable {s t : State} {ns : Vector Node 511} {cs : Vector CodeEntry 256}

theorem TablesKept.sameVisible (h : TablesKept s t) (hv : SameVisible s (s.withTables ns cs)) :
    SameVisible t (t.withTables ns cs) := by
  obtain ⟨-, hnodes, hcodes⟩ := hv
  have hw : writtenNodes t = writtenNodes s := by simp only [writtenNodes, h.phase, h.nrec]
  exact ⟨Eq.refl _, by rw [hw, h.nodes]; exact hnodes, by rw [h.phase, h.codes]; exact hcodes⟩

/-- In EMPTY nothing is written. -/
theorem sameVisible_of_empty (h : s.phase = .empty) : SameVisible s (s.withTables ns cs) :=
  ⟨rfl, by simp [writtenNodes, h], by simp [h]⟩

end

section
variable (ns : Vector Node 511) (cs : Vector CodeEntry 256) (s : State)

@[simp] theorem withTables_cfg : (s.withTables ns cs).cfg = s.cfg := rfl
@[simp] theorem withTables_turns : (s.withTables ns cs).turns = s.turns := rfl
@[simp] theorem withTables_eos : (s.withTables ns cs).eos = s.eos := rfl
@[simp] theorem withTables_phase : (s.withTables ns cs).phase = s.phase := rfl
@[simp] theorem withTables_total : (s.withTables ns cs).total = s.total := rfl
@[simp] theorem withTables_rootIdx : (s.withTables ns cs).rootIdx = s.rootIdx := rfl
@[simp] theorem withTables_accCnt : (s.withTables ns cs).accCnt = s.accCnt := rfl
@[simp] theorem withTables_srCnt : (s.withTables ns cs).srCnt = s.srCnt := rfl
@[simp] theorem withTables_inq : (s.withTables ns cs).inq = s.inq := rfl
@[simp] theorem withTables_outq : (s.withTables ns cs).outq = s.outq := rfl
@[simp] theorem withTables_err : (s.withTables ns cs).err = s.err := rfl
@[simp] theorem withTables_eng : (s.withTables ns cs).eng = s.eng := rfl
@[simp] theorem withTables_cmdLast : (s.withTables ns cs).cmdLast = s.cmdLast := rfl

theorem withTables_setErr (c : ErrCode) : setErr c (s.withTables ns cs) = (setErr c s).withTables ns cs := by
  rw [setErr, setErr, withTables_err]; split <;> rfl

theorem withTables_raise (c : ErrCode) : raise c (s.withTables ns cs) = (raise c s).withTables ns cs :=
  congrArg finish (withTables_setErr ns cs s c)

theorem withTables_abort : abort (s.withTables ns cs) = (abort s).withTables ns cs := by
  rw [abort, abort, withTables_eng]
  split
  · rfl
  · exact withTables_setErr ns cs { s with eng := .idle } .aborted

theorem withTables_writeBitsLoop (j : Nat) :
    writeBitsLoop j (s.withTables ns cs) = (writeBitsLoop j s).withTables ns cs := by
  cases j <;> rfl

theorem withTables_skipLoop (n : BitVec 24) (k : Nat) :
    skipLoop n k (s.withTables ns cs) = (skipLoop n k s).withTables ns cs := by
  rw [skipLoop, skipLoop]; split <;> rfl

theorem withTables_decodeRootLoop (e r : Word) (c : Index) :
    decodeRootLoop e { s.withTables ns cs with decRemain := r, decCur := c } =
      (decodeRootLoop e { s with decRemain := r, decCur := c }).withTables ns cs := by
  unfold decodeRootLoop; dsimp only; split <;> rfl

theorem withTables_decodeLoop (e r : Word) (c : Index) :
    decodeLoop e { s.withTables ns cs with decRemain := r, decCur := c } =
      (decodeLoop e { s with decRemain := r, decCur := c }).withTables ns cs := by
  unfold decodeLoop; dsimp only; split <;> rfl

theorem withTables_loadRecordBody (sym : Byte) :
    (∃ c, loadRecordBody sym s = raise c s ∧
      loadRecordBody sym (s.withTables ns cs) = raise c (s.withTables ns cs)) ∨
    (loadRecordBody sym s = appendRecord sym s ∧
      loadRecordBody sym (s.withTables ns cs) = appendRecord sym (s.withTables ns cs)) := by
  have hl : (s.withTables ns cs).isLoaded sym = s.isLoaded sym := rfl
  have hc : (s.withTables ns cs).countOperand = s.countOperand := rfl
  rw [loadRecordBody, loadRecordBody, hl, hc, withTables_total]
  split
  · exact .inl ⟨_, rfl, rfl⟩
  · split
    · exact .inl ⟨_, rfl, rfl⟩
    · exact .inr ⟨rfl, rfl⟩

end

/-! The codec and the queries read entries of the tables, and agree where those do. -/

section
variable {ns : Vector Node 511} {cs : Vector CodeEntry 256} {s : State}

theorem withTables_encodeSymLoop (h : cs = s.codes) (sym : Byte) (j : Nat) :
    encodeSymLoop sym j (s.withTables ns cs) = (encodeSymLoop sym j s).withTables ns cs := by
  have hcode : (s.withTables ns cs).code sym = s.code sym := by subst h; rfl
  rw [encodeSymLoop, encodeSymLoop, hcode]; split <;> rfl

theorem withTables_encodeSymBody (h : cs = s.codes) (sym : Byte) :
    encodeSymBody sym (s.withTables ns cs) = (encodeSymBody sym s).withTables ns cs := by
  have hcode : (s.withTables ns cs).code sym = s.code sym := by subst h; rfl
  rw [encodeSymBody, encodeSymBody, hcode]
  split
  · exact withTables_encodeSymLoop h sym 0
  · exact withTables_raise ns cs s _

theorem withTables_streamLoop (h : cs = s.codes) (cnt : Word) (v : Byte) (j : Nat) :
    streamLoop cnt v j (s.withTables ns cs) = (streamLoop cnt v j s).withTables ns cs := by
  have hcode : (s.withTables ns cs).code v = s.code v := by subst h; rfl
  rw [streamLoop, streamLoop, hcode]; split <;> rfl

theorem withTables_streamByte (h : cs = s.codes) (cnt : Word) (v : Byte) :
    streamByte cnt v (s.withTables ns cs) = (streamByte cnt v s).withTables ns cs := by
  have hcode : (s.withTables ns cs).code v = s.code v := by subst h; rfl
  rw [streamByte, streamByte, hcode]
  split
  · exact withTables_streamLoop h cnt v 0
  · exact withTables_raise ns cs s _

theorem withTables_queryCodeBody (h : cs = s.codes) (sym : Byte) :
    queryCodeBody sym (s.withTables ns cs) = (queryCodeBody sym s).withTables ns cs := by
  subst h; rfl

/-- The two arenas agree on the entries of the tree. -/
def SameTree (ns : Vector Node 511) (s : State) : Prop :=
  ∀ i : Index, i.toNat ≤ s.rootIdx.toNat → readNode ns i.toNat = s.node i

theorem withTables_queryNodeBody (h : SameTree ns s) (idx : Index) :
    queryNodeBody idx (s.withTables ns cs) = (queryNodeBody idx s).withTables ns cs := by
  rw [queryNodeBody, queryNodeBody, withTables_rootIdx]
  split
  case isTrue hle =>
    have hnode : (s.withTables ns cs).node idx = s.node idx := h idx hle
    rw [hnode]
    rfl
  case isFalse => rfl

theorem withTables_decodeBody (h : SameTree ns s) :
    decodeBody (s.withTables ns cs) = (decodeBody s).withTables ns cs := by
  have hroot : (s.withTables ns cs).node (s.withTables ns cs).rootIdx = s.node s.rootIdx := h _ le_rfl
  rw [decodeBody, decodeBody, hroot]
  split
  · exact withTables_decodeRootLoop ns cs s 0 _ _
  · exact withTables_decodeLoop ns cs s 0 _ _

theorem withTables_decodeMove {e : Word} {b : Bool} (h : SameTree ns s) (hcur : s.decCur.toNat ≤ s.rootIdx.toNat)
    (hchild : (childOf b (s.node s.decCur)).toNat ≤ s.rootIdx.toNat) :
    decodeMove e b (s.withTables ns cs) = (decodeMove e b s).withTables ns cs := by
  have hnode : (s.withTables ns cs).node (s.withTables ns cs).decCur = s.node s.decCur := h _ hcur
  have hnext : (s.withTables ns cs).node (childOf b (s.node s.decCur)) = s.node (childOf b (s.node s.decCur)) :=
    h _ hchild
  rw [decodeMove, decodeMove, hnode, hnext]
  split
  · rfl
  · exact withTables_decodeLoop ns cs s e s.decRemain _

end

/-! ## The primitives touch no table -/

/-- The answer of a pushing primitive with its state changed. -/
def Pushed.map (f : State → State) : Pushed → Pushed
  | .hold => .hold
  | .done s => .done (f s)

/-- The answer of ReadBit with its state changed. -/
def BitRead.map (f : State → State) : BitRead → BitRead
  | .hold => .hold
  | .eof => .eof
  | .bit b s => .bit b (f s)

/-- The answer of PopByte with its state changed. -/
def ByteRead.map (f : State → State) : ByteRead → ByteRead
  | .hold => .hold
  | .finished => .finished
  | .byte v s => .byte v (f s)

section
variable (ns : Vector Node 511) (cs : Vector CodeEntry 256) (s : State)

theorem withTables_writeBit (b : Bool) :
    writeBit b (s.withTables ns cs) = (writeBit b s).map (State.withTables ns cs) := by
  rw [writeBit, writeBit, withTables_accCnt, withTables_outq, withTables_cfg]
  split
  · rfl
  · split <;> rfl

theorem withTables_flushByte : flushByte (s.withTables ns cs) = (flushByte s).map (State.withTables ns cs) := by
  rw [flushByte, flushByte, withTables_accCnt, withTables_outq, withTables_cfg]
  split
  · rfl
  · split <;> rfl

theorem withTables_emit (v : Byte) :
    emit v (s.withTables ns cs) = (emit v s).map (State.withTables ns cs) := by
  rw [emit, emit, withTables_outq, withTables_cfg]; split <;> rfl

theorem withTables_popByte : popByte (s.withTables ns cs) = (popByte s).map (State.withTables ns cs) := by
  rw [popByte, popByte, withTables_inq, withTables_eos]
  split
  · rfl
  · split <;> rfl

theorem withTables_readBit : readBit (s.withTables ns cs) = (readBit s).map (State.withTables ns cs) := by
  rw [readBit, readBit, withTables_srCnt, withTables_inq, withTables_eos]
  split
  · split
    · rfl
    · split <;> rfl
  · rfl

end

end Sys2Proof.Machine
end

section
/-! PROOFS. Every step of a command, every host access and every turn commutes with an exchange of what is not written,
and O55 from this. -/

namespace Sys2Proof.Machine

/-! ## Steps at a call -/

section
variable {ns : Vector Node 511} {cs : Vector CodeEntry 256} {s : State}

theorem withTables_afterPush {p : Pushed} {rest : State → State}
    (h : ∀ s', p = .done s' → rest (s'.withTables ns cs) = (rest s').withTables ns cs) :
    afterPush (p.map (State.withTables ns cs)) rest (s.withTables ns cs) =
      (afterPush p rest s).withTables ns cs := by
  cases p with
  | hold => rfl
  | done s' => exact h s' rfl

theorem withTables_writeBitsResume (v : BitVec 16) (loc : Loc) :
    writeBitsResume v loc (s.withTables ns cs) = (writeBitsResume v loc s).map (State.withTables ns cs) := by
  cases loc with
  | writeBits j =>
    rw [writeBitsResume, withTables_writeBit, withTables_afterPush fun _ _ => withTables_writeBitsLoop ns cs _ j]
    rfl
  | _ => rfl

theorem withTables_flushResume (loc : Loc) :
    flushResume loc (s.withTables ns cs) = (flushResume loc s).map (State.withTables ns cs) := by
  cases loc with
  | flush =>
    rw [flushResume, withTables_flushByte, withTables_afterPush (rest := finish) fun _ _ => rfl]
    rfl
  | _ => rfl

theorem withTables_readBitResume (loc : Loc) :
    readBitResume loc (s.withTables ns cs) = (readBitResume loc s).map (State.withTables ns cs) := by
  cases loc with
  | readBit => rw [readBitResume, readBitResume, withTables_readBit]; cases readBit s <;> rfl
  | _ => rfl

theorem withTables_skipResume (n : BitVec 24) (loc : Loc) :
    skipResume n loc (s.withTables ns cs) = (skipResume n loc s).map (State.withTables ns cs) := by
  cases loc with
  | skipBits k =>
    rw [skipResume, skipResume, withTables_readBit]
    cases readBit s with
    | bit b s' => exact congrArg some (withTables_skipLoop ns cs s' n (k + 1))
    | _ => rfl
  | _ => rfl

theorem withTables_encodeSymResume (h : cs = s.codes) (sym : Byte) (loc : Loc) :
    encodeSymResume sym loc (s.withTables ns cs) = (encodeSymResume sym loc s).map (State.withTables ns cs) := by
  cases loc with
  | encodeSym j =>
    have hcode : (s.withTables ns cs).code sym = s.code sym := by subst h; rfl
    have hloop (s' : State) (hw : writeBit (codeBit (s.code sym).bits j) s = .done s') :=
      withTables_encodeSymLoop (ns := ns) (h.trans (transfer_of_writeBit hw).tablesKept.codes.symm) sym (j + 1)
    rw [encodeSymResume, hcode, withTables_writeBit, withTables_afterPush hloop]
    rfl
  | _ => rfl

theorem withTables_encodeStreamResume (h : cs = s.codes) (loc : Loc) :
    encodeStreamResume loc (s.withTables ns cs) = (encodeStreamResume loc s).map (State.withTables ns cs) := by
  cases loc with
  | streamPop cnt =>
    rw [encodeStreamResume, encodeStreamResume, withTables_popByte]
    cases hq : popByte s with
    | byte v s' =>
      exact congrArg some (withTables_streamByte (h.trans (transfer_of_popByte hq).tablesKept.codes.symm) cnt v)
    | _ => rfl
  | streamWrite cnt v j =>
    have hcode : (s.withTables ns cs).code v = s.code v := by subst h; rfl
    have hloop (s' : State) (hw : writeBit (codeBit (s.code v).bits j) s = .done s') :=
      withTables_streamLoop (ns := ns) (h.trans (transfer_of_writeBit hw).tablesKept.codes.symm) cnt v (j + 1)
    rw [encodeStreamResume, hcode, withTables_writeBit, withTables_afterPush hloop]
    rfl
  | _ => rfl

theorem SameTree.of_transfer {s' : State} (h : SameTree ns s) (htr : Transfer s s') : SameTree ns s' := by
  intro i hi
  rw [htr.tablesKept.node]
  exact h i (htr.tablesKept.rootIdx ▸ hi)

theorem withTables_decodeResume {loc : Loc} (h : SameTree ns s) (hcur : s.decCur.toNat ≤ s.rootIdx.toNat)
    (hchild : ∀ e b, loc = .decodeRead e → (childOf b (s.node s.decCur)).toNat ≤ s.rootIdx.toNat) :
    decodeResume loc (s.withTables ns cs) = (decodeResume loc s).map (State.withTables ns cs) := by
  cases loc with
  | decodeEmitRoot e =>
    have hnode : (s.withTables ns cs).node (s.withTables ns cs).rootIdx = s.node s.rootIdx := h _ le_rfl
    rw [decodeResume, hnode, withTables_emit,
      withTables_afterPush fun s' _ => withTables_decodeRootLoop ns cs s' (e + 1) (s'.decRemain - 1) s'.decCur]
    rfl
  | decodeRead e =>
    rw [decodeResume, decodeResume, withTables_readBit]
    cases hb : readBit s with
    | hold => rfl
    | eof => exact congrArg some (withTables_raise ns cs s _)
    | bit b s' =>
      have htr := transfer_of_readBit hb
      have hk := htr.tablesKept
      refine congrArg some (withTables_decodeMove (h.of_transfer htr) ?_ ?_)
      · rwa [htr.decCur, hk.rootIdx]
      · rw [htr.decCur, hk.node, hk.rootIdx]
        exact hchild e b rfl
  | decodeEmit e =>
    have hnode : (s.withTables ns cs).node (s.withTables ns cs).decCur = s.node s.decCur := h _ hcur
    rw [decodeResume, hnode, withTables_emit,
      withTables_afterPush fun s' _ => withTables_decodeLoop ns cs s' (e + 1) (s'.decRemain - 1) s'.rootIdx]
    rfl
  | _ => rfl

end

/-! ## Commands -/

section
variable {ns : Vector Node 511} {cs : Vector CodeEntry 256} {s : State}

/-- While a tree stands, all its entries are written. -/
theorem SameVisible.sameTree (hv : SameVisible s (s.withTables ns cs)) (hr : RecordOk s) (ht : TreeOk s)
    (hp : s.phase = .built ∨ s.phase = .coded) : SameTree ns s := by
  obtain ⟨hroot, h1⟩ := rootIdx_toNat hr ht hp
  have hw : writtenNodes s = 2 * s.nrec.toNat - 1 := by rcases hp with hp | hp <;> simp [writtenNodes, hp]
  obtain ⟨-, hnodes, -⟩ := hv
  exact fun i hi => hnodes i.toNat (by omega)

/-- Outside BUILT and CODED the written entries are the records. -/
theorem writtenNodes_eq_nrec (hr : RecordOk s) (hp : s.phase = .empty ∨ s.phase = .loaded) :
    writtenNodes s = s.nrec.toNat := by
  obtain ⟨-, hempty, -⟩ := hr
  rcases hp with hp | hp
  · simp [writtenNodes, hp, hempty.mp hp]
  · simp [writtenNodes, hp]

theorem appendRecord_sameVisible (hv : SameVisible s (s.withTables ns cs)) (hr : RecordOk s)
    (hp : s.phase = .empty ∨ s.phase = .loaded) (sym : Byte) :
    SameVisible (appendRecord sym s) (appendRecord sym (s.withTables ns cs)) := by
  have hn := hr.1
  obtain ⟨-, hnodes, -⟩ := hv
  rw [writtenNodes_eq_nrec hr hp] at hnodes
  have hw : writtenNodes (appendRecord sym s) ≤ s.nrec.toNat + 1 := by
    simp only [writtenNodes, appendRecord, BitVec.toNat_add]; exact Nat.mod_le _ _
  exact ⟨rfl, fun i hi => readNode_writeNode_congr (by omega) hnodes i (hi.trans_le hw), by simp [appendRecord]⟩

theorem buildBody_sameVisible (hv : SameVisible s (s.withTables ns cs)) (hr : RecordOk s) (hp : s.phase = .loaded) :
    SameVisible (buildBody s) (buildBody (s.withTables ns cs)) := by
  obtain ⟨-, hnodes, -⟩ := hv
  rw [writtenNodes_eq_nrec hr (.inr hp)] at hnodes
  obtain ⟨hheap, hmerged⟩ := mergeAll_congr hr.1 hnodes
  have heq : buildBody (s.withTables ns cs) = (buildBody s).withTables (mergeAll s.nrec.toNat ns).2 cs := by
    have hroot : onlyElement (mergeAll s.nrec.toNat ns).1 = onlyElement (mergeAll s.nrec.toNat s.nodes).1 :=
      congrArg onlyElement hheap
    unfold buildBody
    rw [← hroot]
    rfl
  rw [heq]
  exact ⟨rfl, hmerged, by simp [buildBody]⟩

theorem genCodesBody_sameVisible (hv : SameVisible s (s.withTables ns cs)) (hr : RecordOk s) (ht : TreeOk s)
    (hp : s.phase = .built ∨ s.phase = .coded) :
    SameVisible (genCodesBody s) (genCodesBody (s.withTables ns cs)) := by
  have htree := hv.sameTree hr ht hp
  have hcodes : codesOf ns s.rootIdx = codesOf s.nodes s.rootIdx :=
    walk_congr htree (fun i hi hk b =>
      ((childOf_lt hr ht hp hi ((node_kind_eq_internal_iff hr ht hp hi).mp hk) b).trans_le hi).le) 511 le_rfl _ _
  have hw : writtenNodes (genCodesBody s) = writtenNodes s := by
    rcases hp with hp | hp <;> simp [writtenNodes, hp, genCodesBody]
  obtain ⟨-, hnodes, -⟩ := hv
  exact ⟨rfl, by rw [hw]; exact hnodes, fun _ => hcodes⟩

theorem commandBody_sameVisible (hv : SameVisible s (s.withTables ns cs)) (hr : RecordOk s) (ht : TreeOk s)
    {i : Instr} (hp : phaseError i s.phase = .ok) :
    SameVisible (commandBody i s) (commandBody i (s.withTables ns cs)) := by
  have kept {f : State → State} (hk : TablesKept s (f s))
      (hw : f (s.withTables ns cs) = (f s).withTables ns cs) : SameVisible (f s) (f (s.withTables ns cs)) :=
    hw ▸ hk.sameVisible hv
  have hcoded : s.phase = .coded → cs = s.codes := hv.2.2
  cases i with
  | nop => exact kept (controlOnly_finish s).tablesKept rfl
  | clear => exact sameVisible_of_empty rfl
  | ackErr => exact kept (f := commandBody .ackErr) (by constructor <;> rfl) rfl
  | loadRecord sym =>
    rw [commandBody]
    rcases withTables_loadRecordBody ns cs s sym with ⟨c, h, h'⟩ | ⟨h, h'⟩ <;> rw [h, h']
    · exact kept (controlOnly_raise s c).tablesKept (withTables_raise ns cs s c)
    · exact appendRecord_sameVisible hv hr (phaseError_loadRecord_iff.mp hp) sym
  | build => exact buildBody_sameVisible hv hr (phaseError_build_iff.mp hp)
  | genCodes => exact genCodesBody_sameVisible hv hr ht (phaseError_genCodes_iff.mp hp)
  | queryNode idx =>
    have htree := hv.sameTree hr ht (phaseError_queryNode_iff.mp hp)
    exact kept (tablesKept_queryNodeBody idx s) (withTables_queryNodeBody htree idx)
  | queryCode sym =>
    have hcodes := hcoded (phaseError_queryCode_iff.mp hp)
    exact kept (by constructor <;> rfl) (withTables_queryCodeBody hcodes sym)
  | writeBits nb v => exact kept (controlOnly_writeBitsLoop s _).tablesKept (withTables_writeBitsLoop ns cs s _)
  | flush | readBit | encodeStream => exact kept (controlOnly_goTo s _).tablesKept rfl
  | skipBits n => exact kept (controlOnly_skipLoop s n 0).tablesKept (withTables_skipLoop ns cs s n 0)
  | alignRead => exact kept (f := commandBody .alignRead) (by constructor <;> rfl) rfl
  | encodeSym sym =>
    have hcodes := hcoded (phaseError_encodeSym_iff.mp hp)
    exact kept (controlOnly_encodeSymBody s sym).tablesKept (withTables_encodeSymBody hcodes sym)
  | decode =>
    have htree := hv.sameTree hr ht (phaseError_decode_iff.mp hp)
    exact kept (controlOnly_decodeBody s).tablesKept (withTables_decodeBody htree)

/-- A running DECODE stands inside the tree (R113). -/
theorem decCur_le_rootIdx (hr : RecordOk s) (ht : TreeOk s) (hp : s.phase = .built ∨ s.phase = .coded) {loc : Loc}
    (heng : s.eng = .running loc) (hcall : atCall .decode loc s = true) (hdec : decoderOk s = true) :
    s.decCur.toNat ≤ s.rootIdx.toNat ∧ ∀ e, loc = .decodeRead e → s.nrec.toNat ≤ s.decCur.toNat := by
  obtain ⟨hroot, h1⟩ := rootIdx_toNat hr ht hp
  cases loc with
  | decodeEmitRoot e =>
    simp only [decoderOk, heng, Bool.and_eq_true, beq_iff_eq] at hdec
    exact ⟨by rw [hdec.1], by simp⟩
  | decodeRead e =>
    simp only [decoderOk, heng, Bool.and_eq_true, beq_iff_eq, decide_eq_true_eq] at hdec
    exact ⟨hdec.1.2, fun _ _ => hdec.1.1⟩
  | decodeEmit e =>
    simp only [decoderOk, heng, Bool.and_eq_true, beq_iff_eq, decide_eq_true_eq] at hdec
    exact ⟨by omega, by simp⟩
  | _ => simp [atCall] at hcall

theorem withTables_commandResume (hv : SameVisible s (s.withTables ns cs)) (hr : RecordOk s) (ht : TreeOk s)
    {i : Instr} {loc : Loc} (heng : s.eng = .running loc) (hcall : atCall i loc s = true)
    (hp : phaseError i s.phase = .ok) (hdec : decoderOk s = true) :
    commandResume i loc (s.withTables ns cs) = (commandResume i loc s).map (State.withTables ns cs) := by
  have hcoded : s.phase = .coded → cs = s.codes := hv.2.2
  cases i with
  | writeBits nb v => exact withTables_writeBitsResume v loc
  | flush => exact withTables_flushResume loc
  | readBit => exact withTables_readBitResume loc
  | skipBits n => exact withTables_skipResume n loc
  | encodeSym sym => exact withTables_encodeSymResume (hcoded (phaseError_encodeSym_iff.mp hp)) sym loc
  | encodeStream => exact withTables_encodeStreamResume (hcoded (phaseError_encodeStream_iff.mp hp)) loc
  | decode =>
    have hp' := phaseError_decode_iff.mp hp
    obtain ⟨hcur, hn⟩ := decCur_le_rootIdx hr ht hp' heng hcall hdec
    exact withTables_decodeResume (hv.sameTree hr ht hp') hcur fun e b he =>
      ((childOf_lt hr ht hp' hcur (hn e he) b).trans_le hcur).le
  | _ => rfl

theorem dispatch_sameVisible (hv : SameVisible s (s.withTables ns cs)) {i : Instr} {body : State → State}
    (hbody : phaseError i s.phase = .ok → SameVisible (body s) (body (s.withTables ns cs))) :
    SameVisible (dispatch i body s) (dispatch i body (s.withTables ns cs)) := by
  have hl : lockedOut i.opc (s.withTables ns cs) = lockedOut i.opc s := rfl
  rw [dispatch, dispatch, hl, withTables_phase]
  split
  · exact (controlOnly_finish s).tablesKept.sameVisible hv
  · split
    case isTrue hp => exact hbody hp
    case isFalse =>
      rw [withTables_raise]
      exact (controlOnly_raise s _).tablesKept.sameVisible hv

theorem exec_sameVisible (hv : SameVisible s (s.withTables ns cs)) (hs : Inv s) {i : Instr} {t : State}
    (hd : decode s.cmdLast = .ok i) (h : exec i s = .next t) :
    ∃ t', exec i (s.withTables ns cs) = .next t' ∧ SameVisible t t' := by
  obtain ⟨-, hr, ht, heng, hdec⟩ := hs
  rw [exec_eq_engineStep] at h ⊢
  rcases engineStep_next h with ⟨hrest, rfl⟩ | ⟨loc, hrun, hres⟩
  · have hvis := dispatch_sameVisible hv (i := i) fun hp => commandBody_sameVisible hv hr ht hp
    rcases hrest with hi | hp
    · exact ⟨_, engineStep_idle (s := s.withTables ns cs) hi, hvis⟩
    · exact ⟨_, engineStep_pending (s := s.withTables ns cs) hp, hvis⟩
  · obtain ⟨i', hd', hcall, -, hp⟩ := (engineOk_running_iff hrun).mp heng
    obtain rfl : i' = i := Except.ok.inj (hd'.symm.trans hd)
    have hres' := withTables_commandResume hv hr ht hrun hcall hp hdec
    rw [hres] at hres'
    exact ⟨_, engineStep_running (s := s.withTables ns cs) hrun hres',
      (callStep_of_commandResume hres).tablesKept.sameVisible hv⟩

/-! ## Turns -/

theorem dispatchIllegal_sameVisible (hv : SameVisible s (s.withTables ns cs)) (w : Word) :
    SameVisible (dispatchIllegal w s) (dispatchIllegal w (s.withTables ns cs)) := by
  have hw : dispatchIllegal w (s.withTables ns cs) = (dispatchIllegal w s).withTables ns cs := by
    have hl : lockedOut (opcOf w) (s.withTables ns cs) = lockedOut (opcOf w) s := rfl
    rw [dispatchIllegal, dispatchIllegal, hl]
    split
    · rfl
    · exact withTables_raise ns cs s _
  rw [hw]
  exact (controlOnly_dispatchIllegal w s).tablesKept.sameVisible hv

theorem engineTurn_sameVisible (hv : SameVisible s (s.withTables ns cs)) (hs : Inv s) {t : State}
    (h : engineTurn s = .next t) : ∃ t', engineTurn (s.withTables ns cs) = .next t' ∧ SameVisible t t' := by
  unfold engineTurn at h ⊢
  rw [withTables_eng, withTables_cmdLast]
  split at h
  · cases h
    exact ⟨_, rfl, hv⟩
  · split at h
    case h_1 i hd => exact exec_sameVisible hv hs hd h
    case h_2 => cases h; exact ⟨_, rfl, dispatchIllegal_sameVisible hv _⟩
  · split at h
    case h_1 i hd => exact exec_sameVisible hv hs hd h
    case h_2 => cases h

theorem hostRead_sameVisible (hv : SameVisible s (s.withTables ns cs)) (r : Reg) :
    SameVisible (hostRead r s) (hostRead r (s.withTables ns cs)) := by
  have hw : hostRead r (s.withTables ns cs) = (hostRead r s).withTables ns cs := by cases r <;> rfl
  rw [hw]
  exact (hostRead_positionKept r s).tablesKept.sameVisible hv

theorem withTables_hostWrite (ns : Vector Node 511) (cs : Vector CodeEntry 256) (s : State) (r : Reg) (v : Word) :
    hostWrite r v (s.withTables ns cs) = (hostWrite r v s).withTables ns cs := by
  cases r
  case ctrl =>
    rw [hostWrite, hostWrite, writeCtrl, writeCtrl]
    split
    · rfl
    · split
      · exact withTables_abort ns cs { s with eos := v.getLsbD 2 }
      · rfl
  case cmd => rw [hostWrite, hostWrite, latch, latch, withTables_eng]; split <;> rfl
  case inData => rw [hostWrite, hostWrite, pushIn, pushIn, withTables_inq, withTables_cfg]; split <;> rfl
  all_goals rfl

theorem hostWrite_sameVisible (hv : SameVisible s (s.withTables ns cs)) (r : Reg) (v : Word) :
    SameVisible (hostWrite r v s) (hostWrite r v (s.withTables ns cs)) := by
  rw [withTables_hostWrite]
  rcases hostWrite_tables r v s with hk | ⟨-, -, hw⟩
  · exact hk.sameVisible hv
  · rw [hw]
    exact sameVisible_of_empty rfl

theorem hostAccess_read_eq_next_iff {addr size : Nat} {t : State} :
    hostAccess (.read addr size) s = .next t ↔
      inWindow s.cfg addr = true ∧ admittedAccess s.cfg addr size = true ∧
        hostRead (regAt (addr - s.cfg.base)) s = t := by
  cases hw : inWindow s.cfg addr <;> cases ha : admittedAccess s.cfg addr size <;> simp [hostAccess, hw, ha]

theorem hostAccess_write_eq_next_iff {addr size : Nat} {v : Word} {t : State} :
    hostAccess (.write addr size v) s = .next t ↔
      inWindow s.cfg addr = true ∧ admittedAccess s.cfg addr size = true ∧
        hostWrite (regAt (addr - s.cfg.base)) v s = t := by
  cases hw : inWindow s.cfg addr <;> cases ha : admittedAccess s.cfg addr size <;> simp [hostAccess, hw, ha]

theorem hostAccess_sameVisible (hv : SameVisible s (s.withTables ns cs)) {a : Access} {t : State}
    (h : hostAccess a s = .next t) : ∃ t', hostAccess a (s.withTables ns cs) = .next t' ∧ SameVisible t t' := by
  cases a with
  | read addr size =>
    obtain ⟨hw, ha, rfl⟩ := hostAccess_read_eq_next_iff.mp h
    exact ⟨_, hostAccess_read_eq_next_iff.mpr ⟨hw, ha, rfl⟩, hostRead_sameVisible hv _⟩
  | write addr size v =>
    obtain ⟨hw, ha, rfl⟩ := hostAccess_write_eq_next_iff.mp h
    exact ⟨_, hostAccess_write_eq_next_iff.mpr ⟨hw, ha, rfl⟩, hostWrite_sameVisible hv _ v⟩

theorem takeTurn_sameVisible (hv : SameVisible s (s.withTables ns cs)) (hs : Inv s) {turn : Turn} {t : State}
    (h : takeTurn turn s = .next t) : ∃ t', takeTurn turn (s.withTables ns cs) = .next t' ∧ SameVisible t t' := by
  cases turn with
  | engine => exact engineTurn_sameVisible hv hs h
  | host a => exact hostAccess_sameVisible hv h
  | powerOn => cases h; exact ⟨_, rfl, sameVisible_of_empty rfl⟩

end

/-- Settles O55: every turn commutes with an exchange of the tables, as far as they are not written. -/
theorem unwrittenStorageIsUnobservable : Obligations.UnwrittenStorageIsUnobservable := by
  unfold Obligations.UnwrittenStorageIsUnobservable
  intro s s' t hs hv h
  obtain ⟨ns, cs, rfl⟩ := hv.exists_withTables
  unfold step runTurn at h ⊢
  rw [withTables_turns]
  split at h
  case h_1 => exact engineTurn_sameVisible hv hs h
  case h_2 turn rest _ =>
    have hrest : SameVisible { s with turns := rest } (State.withTables ns cs { s with turns := rest }) :=
      ⟨rfl, hv.2.1, hv.2.2⟩
    exact takeTurn_sameVisible hrest hs h

end Sys2Proof.Machine
end

section
/-! PROOFS. Resets (R52), the register window (R15 to R33) and the lock (R46): O7, O8, O9, O10, O17. -/

namespace Sys2Proof.Machine

/-! ## Resets and the lock -/

theorem getElem_replicate_zero (k : Fin 8) : (Vector.replicate 8 (0 : Word))[k] = 0 := Vector.getElem_replicate k.isLt

/-- Settles O7: both resets and CLEAR write the table of R52 out, CLEAR all of it but the three fields of the latch. -/
theorem resetsLeaveTheResetTable : Obligations.ResetsLeaveTheResetTable := by
  unfold Obligations.ResetsLeaveTheResetTable
  refine ⟨?_, fun s hs => ⟨finish (resetCore s), ?_, rfl, rfl, rfl, rfl⟩⟩
  · rintro t (⟨c, rfl⟩ | ⟨s, rfl⟩) <;>
      exact ⟨rfl, rfl, rfl, rfl, rfl, rfl, rfl, rfl, rfl, rfl, rfl, rfl, rfl, rfl, rfl, rfl, rfl, rfl, rfl, rfl, rfl,
        rfl, rfl, rfl, rfl, rfl, rfl, rfl, rfl, rfl, getElem_replicate_zero⟩
  · have hunlocked : lockedOut Instr.clear.opc s = false := by simp [lockedOut, lockExempt, Instr.opc]
    exact exec_of_begins ⟨hs, hunlocked, rfl⟩

/-- The opcodes the lock lets through are those of NOP, CLEAR and ACK_ERR. -/
theorem lockExempt_opc_iff (i : Instr) : lockExempt i.opc = true ↔ i = .nop ∨ i = .clear ∨ i = .ackErr := by
  cases i <;> simp [lockExempt, Instr.opc]

/-- Settles O17: check 1 of R79 ends such a command before its pseudocode begins. -/
theorem lockedCommandsHaveNoEffect : Obligations.LockedCommandsHaveNoEffect := by
  unfold Obligations.LockedCommandsHaveNoEffect
  intro i s hs herr hnop hclear hack
  have hlocked : lockedOut i.opc s = true := by
    simp [lockedOut, herr, ← Bool.not_eq_true, lockExempt_opc_iff, hnop, hclear, hack]
  rw [exec_eq_engineStep, engineStep_pending hs, dispatch, if_pos hlocked]
  rfl

/-! ## Fields of a concatenation -/

section
variable {n m k l : Nat} (a : BitVec n) (b : BitVec m) (c : BitVec k) (d : BitVec l)

theorem append₂_fields : (a ++ b).extractLsb' 0 m = b ∧ (a ++ b).extractLsb' m n = a :=
  ⟨BitVec.extractLsb'_append_eq_right, BitVec.extractLsb'_append_eq_left⟩

/-- A field above the lowest one is a field of the word without it. -/
theorem extractLsb'_append_high (start len : Nat) :
    (a ++ b).extractLsb' (m + start) len = a.extractLsb' start len := by
  rw [BitVec.extractLsb'_append_eq_of_le (Nat.le_add_right m start), Nat.add_sub_cancel_left]

theorem append₃_fields :
    (a ++ b ++ c).extractLsb' 0 k = c ∧ (a ++ b ++ c).extractLsb' k m = b ∧
    (a ++ b ++ c).extractLsb' (k + m) n = a :=
  ⟨(append₂_fields _ c).1, (extractLsb'_append_high _ c 0 m).trans (append₂_fields a b).1,
    (extractLsb'_append_high _ c m n).trans (append₂_fields a b).2⟩

theorem append₄_fields :
    (a ++ b ++ c ++ d).extractLsb' 0 l = d ∧ (a ++ b ++ c ++ d).extractLsb' l k = c ∧
    (a ++ b ++ c ++ d).extractLsb' (l + k) m = b ∧ (a ++ b ++ c ++ d).extractLsb' (l + (k + m)) n = a := by
  obtain ⟨hc, hb, ha⟩ := append₃_fields a b c
  exact ⟨(append₂_fields _ d).1, (extractLsb'_append_high _ d 0 k).trans hc,
    (extractLsb'_append_high _ d k m).trans hb, (extractLsb'_append_high _ d (k + m) n).trans ha⟩

end

@[simp] theorem bitVal_getElem_zero (b : Bool) : (bitVal 1 b)[0] = b := by
  cases b <;> rfl

/-! ## What registers read -/

theorem regAt_codeBits (k : Fin 8) : regAt (0x50 + 4 * k.val) = .codeBits k := by
  fin_cases k <;> rfl

theorem regValue_root_getLsbD (s : State) : (regValue .root s).getLsbD 31 = s.rootValid := by
  have htop : (regValue .root s).extractLsb' 31 1 = bitVal 1 s.rootValid := (append₃_fields _ (0#22) s.rootIdx).2.2
  simpa [BitVec.getElem_extractLsb'] using congrArg (·[0]) htop

/-- STATUS after power-on reset: both FIFOs are empty, and neither is full, since a depth is at least 1. -/
theorem regValue_status_resetWith {c : Config} (hc : c.Admitted) :
    regValue .status (State.resetWith c) = 0x5000#32 := by
  obtain ⟨⟨hin, -⟩, ⟨hout, -⟩, -⟩ := hc
  have hinFull : (State.resetWith c).inFull = false := beq_eq_false_iff_ne.mpr (by simp [State.resetWith]; omega)
  have houtFull : (State.resetWith c).outFull = false := beq_eq_false_iff_ne.mpr (by simp [State.resetWith]; omega)
  rw [regValue, statusValue, hinFull, houtFull]
  change (0#16 ++ bitVal 1 false ++ bitVal 1 true ++ bitVal 1 false ++ bitVal 1 true ++ errNumber .ok ++ 0#1 ++
    bitVal 1 false ++ bitVal 1 false ++ bitVal 1 false ++ phaseNumber .empty ++ bitVal 1 false) = 0x5000#32
  decide

/-- Settles O8: the map offset by offset, each register's fields out of their concatenation, and the reset column. -/
theorem registersReadTheirResetValues : Obligations.RegistersReadTheirResetValues := by
  unfold Obligations.RegistersReadTheirResetValues
  refine ⟨rfl, regAt_codeBits, fun s => ?_, fun c hc r => ?_⟩
  · obtain ⟨hinLevel, hpad, houtLevel, htop⟩ :=
      append₄_fields (0#8) (BitVec.ofNat 8 s.outq.length) (0#8) (BitVec.ofNat 8 s.inq.length)
    obtain ⟨hnrec, hnrec'⟩ := append₂_fields (0#23) s.nrec
    obtain ⟨hroot, hroot', -⟩ := append₃_fields (bitVal 1 s.rootValid) (0#22) s.rootIdx
    obtain ⟨hcur, hcur'⟩ := append₂_fields (0#23) s.decCur
    obtain ⟨hacc, hcnt, hwr⟩ := append₃_fields (0#20) s.accCnt s.acc
    obtain ⟨hsr, hsrCnt, hrd⟩ := append₃_fields (0#20) s.srCnt s.sr
    exact ⟨rfl, rfl, rfl, rfl, rfl, rfl, rfl, rfl, rfl, rfl, rfl, fun _ => rfl, rfl,
      fun h => (congrArg BitVec.toNat hinLevel).trans (Nat.mod_eq_of_lt (Nat.lt_succ_of_le h)),
      fun h => (congrArg BitVec.toNat houtLevel).trans (Nat.mod_eq_of_lt (Nat.lt_succ_of_le h)),
      hpad, htop, hnrec, hnrec', hroot, hroot', regValue_root_getLsbD s, hcur, hcur', hacc, hcnt, hwr, hsr, hsrCnt,
      hrd⟩
  · cases r with
    | status => exact regValue_status_resetWith hc
    | codeBits k => exact getElem_replicate_zero k
    | ctrl | fifoLevel | nrec | root | decCur | wrState | rdState => simp [regValue, State.resetWith, bitVal]
    | _ => rfl

/-! ## CTRL -/

theorem regValue_ctrl_getLsbD (s : State) (k : Nat) : (regValue .ctrl s).getLsbD k = (decide (k = 2) && s.eos) := by
  have hctrl : regValue .ctrl s = if s.eos then 0x4#32 else 0x0#32 := by
    rw [regValue]; cases s.eos <;> rfl
  rw [hctrl]
  cases s.eos
  · simp
  · have htwo : (0x4#32) = BitVec.twoPow 32 2 := rfl
    simp [htwo, BitVec.getLsbD_twoPow, eq_comm]

/-- Settles O9, by the branches of the write: SRST, then ABORT, idle or busy, then EOS alone. -/
theorem ctrlWritesResetAbortAndStoreEos : Obligations.CtrlWritesResetAbortAndStoreEos := by
  unfold Obligations.CtrlWritesResetAbortAndStoreEos
  intro v s
  refine ⟨fun h0 => ?_, fun h0 h1 => ?_, fun h0 h1 hidle => ?_, fun h0 h1 hbusy => ?_, regValue_ctrl_getLsbD s⟩ <;>
    rw [hostWrite, writeCtrl]
  · rw [if_pos h0]; rfl
  · rw [if_neg (Bool.eq_false_iff.mp h0), if_neg (Bool.eq_false_iff.mp h1)]
  · rw [if_neg (Bool.eq_false_iff.mp h0), if_pos h1, abort, if_pos hidle]
  · rw [if_neg (Bool.eq_false_iff.mp h0), if_pos h1]
    rcases abort_cases { s with eos := v.getLsbD 2 } with ⟨hi, -⟩ | ⟨-, ha⟩
    · exact absurd hi hbusy
    · exact ha

/-! ## STATUS -/

/-- STATUS as the concatenation of its twelve fields, bit by bit. -/
theorem regValue_status_getLsbD (s : State) (k : Nat) : (regValue .status s).getLsbD k =
    BitVec.getLsbD (w := 16 + 1 + 1 + 1 + 1 + 4 + 1 + 1 + 1 + 1 + 3 + 1) (statusValue s) k := rfl

/-- STATUS as the concatenation of its twelve fields, field by field. -/
theorem regValue_status_extractLsb' (s : State) (start len : Nat) : (regValue .status s).extractLsb' start len =
    BitVec.extractLsb' (n := 16 + 1 + 1 + 1 + 1 + 4 + 1 + 1 + 1 + 1 + 3 + 1) start len (statusValue s) := rfl

section
variable (s : State)

theorem status_phase : (regValue .status s).extractLsb' 1 3 = phaseNumber s.phase := by
  rw [regValue_status_extractLsb', statusValue]
  simp [BitVec.extractLsb'_append_eq_of_le, BitVec.extractLsb'_append_eq_of_add_le, -Nat.reduceAdd]

theorem status_err : (regValue .status s).extractLsb' 8 4 = errNumber s.err := by
  rw [regValue_status_extractLsb', statusValue]
  simp [BitVec.extractLsb'_append_eq_of_le, BitVec.extractLsb'_append_eq_of_add_le, -Nat.reduceAdd]

theorem status_high : (regValue .status s).extractLsb' 16 16 = 0#16 := by
  rw [regValue_status_extractLsb', statusValue]
  simp [BitVec.extractLsb'_append_eq_of_le, -Nat.reduceAdd]

/-- The one-bit fields of STATUS (R18). -/
theorem status_flags :
    (regValue .status s).getLsbD 0 = s.busy ∧ (regValue .status s).getLsbD 4 = s.hold ∧
    (regValue .status s).getLsbD 5 = s.ovr ∧ (regValue .status s).getLsbD 6 = s.inOvf ∧
    (regValue .status s).getLsbD 7 = false ∧ (regValue .status s).getLsbD 12 = s.inq.isEmpty ∧
    (regValue .status s).getLsbD 13 = s.inFull ∧ (regValue .status s).getLsbD 14 = s.outq.isEmpty ∧
    (regValue .status s).getLsbD 15 = s.outFull := by
  simp only [regValue_status_getLsbD, statusValue, BitVec.getLsbD_append, -Nat.reduceAdd]
  simp

theorem status_getLsbD_high {k : Nat} (hk : 16 ≤ k) : (regValue .status s).getLsbD k = false := by
  by_cases h32 : k < 32
  · have hbit := congrArg (BitVec.getLsbD · (k - 16)) (status_high s)
    simpa [BitVec.getLsbD_extractLsb', Nat.add_sub_cancel' hk, show k - 16 < 16 by omega] using hbit
  · exact BitVec.getLsbD_of_ge _ _ (by omega)

theorem hold_iff : s.hold = true ↔ ∃ loc, s.eng = .running loc ∧ wouldHold loc.prim s = true := by
  cases h : s.eng <;> simp [State.hold, h]

end

/-- Settles O10: the flags out of the concatenation, and the two bits a write clears. -/
theorem statusShowsTheFlags : Obligations.StatusShowsTheFlags := by
  unfold Obligations.StatusShowsTheFlags
  intro s
  obtain ⟨hbusy, hhold, hovr, hinOvf, hseven, hinEmpty, hinFull, houtEmpty, houtFull⟩ := status_flags s
  refine ⟨?_, (status_phase s).trans ?_, ?_, hovr, hinOvf, hseven, (status_err s).trans ?_, ?_, ?_, ?_, ?_,
    fun k => status_getLsbD_high s, fun v => ?_⟩
  · rw [hbusy]; exact bne_iff_ne
  · cases s.phase <;> rfl
  · rw [hhold]; exact hold_iff s
  · cases s.err <;> rfl
  · rw [hinEmpty]; exact List.isEmpty_iff
  · rw [hinFull]; exact beq_iff_eq
  · rw [houtEmpty]; exact List.isEmpty_iff
  · rw [houtFull]; exact beq_iff_eq
  · rw [hostWrite, writeStatus]
    cases v.getLsbD 5 <;> cases v.getLsbD 6 <;> simp

end Sys2Proof.Machine
end

section
/-! PROOFS. The bits of a byte (R57), what WriteBit and ReadBit do to the bit streams (R58, R90, R92), and O35 from
these. -/

namespace Sys2Proof.Machine

/-! ## The bits of a byte -/

@[simp] theorem byteBits_length (v : Byte) : (byteBits v).length = 8 := by
  simp [byteBits]

theorem take_byteBits (v : Byte) {n : Nat} (hn : n ≤ 8) :
    (byteBits v).take n = (List.range n).map fun k => v.getLsbD (7 - k) := by
  rw [byteBits, ← List.map_take, List.take_range, Nat.min_eq_left hn]

/-- The bit assigned next to the n highest ones is the one behind them in stream order. -/
theorem take_byteBits_setBit (v : Byte) (b : Bool) {n : Nat} (hn : n < 8) :
    (byteBits (setBit v (7 - n) b)).take (n + 1) = (byteBits v).take n ++ [b] := by
  have hlast : (setBit v (7 - n) b).getLsbD (7 - n) = b := by
    rw [setBit_getLsbD _ _ _ (by omega), if_pos rfl]
  have hkept : ∀ k ∈ List.range n, (setBit v (7 - n) b).getLsbD (7 - k) = v.getLsbD (7 - k) := by
    intro k hk
    have hkn := List.mem_range.mp hk
    rw [setBit_getLsbD _ _ _ (by omega), if_neg (by omega)]
  rw [take_byteBits _ (Nat.succ_le_of_lt hn), take_byteBits _ hn.le, List.range_succ, List.map_append,
    List.map_singleton, hlast, List.map_congr_left hkept]

/-- A shift to the left drops the first bit of a byte in stream order and moves the others up. -/
theorem take_byteBits_eq_cons_shiftLeft (v : Byte) {n : Nat} (hn : n < 8) :
    (byteBits v).take (n + 1) = v.getLsbD 7 :: (byteBits (v <<< 1)).take n := by
  have hshift : ∀ k ∈ List.range n, v.getLsbD (7 - (k + 1)) = (v <<< 1).getLsbD (7 - k) := by
    intro k hk
    have hkn := List.mem_range.mp hk
    have hlt : 7 - k < 8 := by omega
    rw [BitVec.getLsbD_shiftLeft, decide_eq_true hlt, decide_eq_false (by omega), Nat.sub_sub]
    rfl
  rw [take_byteBits _ (Nat.succ_le_of_lt hn), take_byteBits _ hn.le, List.range_succ_eq_map, List.map_cons,
    List.map_map, ← List.map_congr_left hshift]
  rfl

theorem byteBits_setBit_zero (v : Byte) (b : Bool) : byteBits (setBit v 0 b) = (byteBits v).take 7 ++ [b] := by
  rw [← take_byteBits_setBit v b (n := 7) (by decide), List.take_of_length_le (byteBits_length _).le]

theorem byteBits_eq_cons_shiftLeft (v : Byte) : byteBits v = v.getLsbD 7 :: (byteBits (v <<< 1)).take 7 := by
  rw [← take_byteBits_eq_cons_shiftLeft v (by decide), List.take_of_length_le (byteBits_length _).le]

/-! ## The input stream's length -/

theorem flatMap_byteBits_length (q : List Byte) : (q.flatMap byteBits).length = 8 * q.length := by
  simp [List.length_flatMap, Nat.mul_comm]

theorem inStream_length (s : State) : (inStream s).length = min s.srCnt.toNat 8 + 8 * s.inq.length := by
  rw [inStream, List.length_append, List.length_take, byteBits_length, flatMap_byteBits_length]

theorem inStream_eq_nil_iff (s : State) : inStream s = [] ↔ s.srCnt = 0#4 ∧ s.inq = [] := by
  rw [← List.length_eq_zero_iff, inStream_length, ← List.length_eq_zero_iff, ← BitVec.toNat_inj, BitVec.toNat_zero]
  omega

/-! ## WriteBit and ReadBit on the streams -/

section
variable {b : Bool} {s t : State}

theorem accCnt_succ_toNat (h : WriterOk s) (h7 : s.accCnt ≠ 7#4) :
    (s.accCnt + 1#4).toNat = s.accCnt.toNat + 1 ∧ s.accCnt.toNat < 7 := by
  have hne : s.accCnt.toNat ≠ 7 := fun h => h7 (BitVec.eq_of_toNat_eq h)
  have hlt : s.accCnt.toNat < 7 := lt_of_le_of_ne h.1 hne
  exact ⟨by simp [BitVec.toNat_add]; omega, hlt⟩

theorem srCnt_pred_toNat (h0 : s.srCnt ≠ 0#4) : (s.srCnt - 1#4).toNat + 1 = s.srCnt.toNat := by
  have hpos : 1 ≤ s.srCnt.toNat := Nat.one_le_iff_ne_zero.mpr fun h => h0 (BitVec.eq_of_toNat_eq h)
  have hle : 1#4 ≤ s.srCnt := BitVec.le_def.mpr hpos
  rw [BitVec.toNat_sub_of_le hle]
  exact Nat.sub_add_cancel hpos

/-- The two ways a WriteBit completes: with the eighth bit of ACC, whose byte goes to the FIFO, or with an earlier
one. -/
theorem writeBit_done (h : writeBit b s = .done t) :
    (s.accCnt = 7#4 ∧ t = { s with outq := s.outq ++ [setBit s.acc 0 b], acc := 0, accCnt := 0 }) ∨
    (s.accCnt ≠ 7#4 ∧ t = { s with acc := setBit s.acc (7 - s.accCnt.toNat) b, accCnt := s.accCnt + 1#4 }) := by
  rcases writeBit_cases b s with ⟨-, -, hw⟩ | ⟨h7, -, hw⟩ | ⟨h7, hw⟩ <;> rw [hw] at h <;> cases h
  · exact .inl ⟨h7, rfl⟩
  · exact .inr ⟨h7, rfl⟩

/-- The two ways a ReadBit returns a bit: from SR, or from a byte it takes into SR. -/
theorem readBit_bit (h : readBit s = .bit b t) :
    (s.srCnt ≠ 0#4 ∧ b = s.sr.getLsbD 7 ∧ t = { s with sr := s.sr <<< 1, srCnt := s.srCnt - 1#4 }) ∨
    (s.srCnt = 0#4 ∧ ∃ v rest, s.inq = v :: rest ∧ b = v.getLsbD 7 ∧
      t = { s with sr := v <<< 1, srCnt := 7#4, inq := rest }) := by
  rcases readBit_cases s with ⟨h0, hr⟩ | ⟨h0, v, rest, hq, hr⟩ | ⟨-, -, -, hr⟩ | ⟨-, -, -, hr⟩ <;>
    rw [hr] at h <;> cases h
  · exact .inl ⟨h0, rfl, rfl⟩
  · exact .inr ⟨h0, v, rest, hq, rfl, rfl⟩

/-- A completed WriteBit appends its bit to the output stream (R90). -/
theorem outStream_of_writeBit (hs : WriterOk s) (h : writeBit b s = .done t) : outStream t = outStream s ++ [b] := by
  rcases writeBit_done h with ⟨h7, rfl⟩ | ⟨h7, rfl⟩
  · simp [outStream, h7, byteBits_setBit_zero]
  · obtain ⟨hsucc, hlt⟩ := accCnt_succ_toNat hs h7
    simp only [outStream, hsucc, take_byteBits_setBit s.acc b (Nat.lt_succ_of_lt hlt), List.append_assoc]

theorem writerOk_of_writeBit (hs : WriterOk s) (h : writeBit b s = .done t) : WriterOk t := by
  rcases writeBit_done h with ⟨-, rfl⟩ | ⟨h7, rfl⟩
  · exact ⟨by simp, by simp⟩
  · exact writerOk_setBit hs h7

theorem frame_of_writeBit (h : writeBit b s = .done t) :
    t = { s with acc := t.acc, accCnt := t.accCnt, outq := t.outq } := by
  rcases writeBit_done h with ⟨-, rfl⟩ | ⟨-, rfl⟩ <;> rfl

/-- A bit ReadBit returns is the first of the input stream (R92). -/
theorem inStream_of_readBit (hs : ReaderOk s) (h : readBit s = .bit b t) : inStream s = b :: inStream t := by
  rcases readBit_bit h with ⟨h0, rfl, rfl⟩ | ⟨h0, v, rest, hq, rfl, rfl⟩
  · have hpred := srCnt_pred_toNat h0
    have hlt : (s.srCnt - 1#4).toNat < 8 := by have := hs.1; omega
    simp only [inStream, ← hpred, take_byteBits_eq_cons_shiftLeft s.sr hlt, List.cons_append]
  · simp [inStream, h0, hq, byteBits_eq_cons_shiftLeft v]

theorem readerOk_of_readBit (hs : ReaderOk s) (h : readBit s = .bit b t) : ReaderOk t := by
  rcases readBit_bit h with ⟨h0, -, rfl⟩ | ⟨-, v, rest, -, -, rfl⟩
  · obtain ⟨hcnt, hsr⟩ := hs
    have hpred : (s.srCnt - 1#4).toNat = s.srCnt.toNat - 1 := Nat.eq_sub_of_add_eq (srCnt_pred_toNat h0)
    exact ⟨by simp only [hpred]; omega, by simpa only [hpred] using shiftLeft_low_bits hsr⟩
  · exact ⟨by simp, shiftLeft_low_bits (c := 8) (by simp)⟩

theorem frame_of_readBit (h : readBit s = .bit b t) : t = { s with sr := t.sr, srCnt := t.srCnt, inq := t.inq } := by
  rcases readBit_bit h with ⟨-, -, rfl⟩ | ⟨-, v, rest, -, -, rfl⟩ <;> rfl

theorem readBit_eq_eof_iff : readBit s = .eof ↔ inStream s = [] ∧ s.eos = true := by
  rw [inStream_eq_nil_iff]
  rcases readBit_cases s with ⟨h0, hr⟩ | ⟨-, v, rest, hq, hr⟩ | ⟨h0, hq, he, hr⟩ | ⟨-, -, he, hr⟩ <;> rw [hr]
  · simp [h0]
  · simp [hq]
  · simp [h0, hq, he]
  · simp [he]

end

/-- Settles O35: of each primitive its effect on the stream, the invariant it keeps, and its frame. -/
theorem writeBitAppendsAndReadBitTakesOneBit : Obligations.WriteBitAppendsAndReadBitTakesOneBit := by
  unfold Obligations.WriteBitAppendsAndReadBitTakesOneBit
  exact ⟨fun _ _ _ hs h => ⟨outStream_of_writeBit hs h, writerOk_of_writeBit hs h, frame_of_writeBit h⟩,
    fun _ _ _ hs h => ⟨inStream_of_readBit hs h, readerOk_of_readBit hs h, frame_of_readBit h⟩,
    fun _ _ => readBit_eq_eof_iff⟩

end Sys2Proof.Machine
end

section
/-! PROOFS. The host's accesses to the FIFOs, to the other registers and to the window (R53 to R62): O12 to O16. -/

namespace Sys2Proof.Machine

/-! ## The input FIFO -/

section
variable {s : State} {v : Byte} {rest : List Byte}

theorem popByte_of_cons (h : s.inq = v :: rest) : popByte s = .byte v { s with inq := rest } := by
  rw [popByte, h]

theorem readBit_of_refill (h : s.inq = v :: rest) (h0 : s.srCnt = 0#4) :
    readBit s = .bit (v.getLsbD 7) { s with sr := v <<< 1, srCnt := 7#4, inq := rest } := by
  simp [readBit, h0, h, shiftOut]

end

/-- Settles O12: the two branches of the push, and PopByte and ReadBit on a FIFO with a byte, where EOS plays no part. -/
theorem inDataWritesPushOrOverflow : Obligations.InDataWritesPushOrOverflow := by
  unfold Obligations.InDataWritesPushOrOverflow
  exact ⟨fun _ _ => ⟨fun h => if_pos h, fun h => if_neg h⟩,
    fun _ _ _ h => ⟨popByte_of_cons h, readBit_of_refill h⟩⟩

/-! ## Reads and their one side effect -/

/-- Appending a byte to VALID is the OR of VALID, shifted up by 8, with the byte extended, so this holds by
computation. -/
theorem outDataValue_cons (b : Byte) (rest : List Byte) : outDataValue (b :: rest) = 0x100#32 ||| b.setWidth 32 := rfl

theorem hostRead_outData (s : State) :
    hostRead .outData s = { s with outq := s.outq.tail, reads := outDataValue s.outq :: s.reads } := rfl

theorem readEffect_of_ne_outData {r : Reg} (h : r ≠ .outData) (s : State) : readEffect r s = s := by
  cases r with
  | outData => exact absurd rfl h
  | _ => rfl

/-- No register shows what past reads returned (log 10). -/
theorem regValue_reads (r : Reg) (s : State) (past : List Word) : regValue r { s with reads := past } = regValue r s := by
  cases r <;> rfl

/-- Settles O13: the pop of OUT_DATA on both shapes of the output FIFO, and the reads without a side effect. -/
theorem outDataReadsPop : Obligations.OutDataReadsPop := by
  unfold Obligations.OutDataReadsPop
  refine ⟨fun s b rest h => ?_, fun s h => ?_, fun r s hr => ?_⟩
  · rw [hostRead_outData, h, outDataValue_cons, List.tail_cons]
  · rw [hostRead_outData, h, outDataValue, List.tail_nil]
  · have hread : hostRead r s = { s with reads := regValue r s :: s.reads } := by
      rw [hostRead, readEffect_of_ne_outData hr]
    exact ⟨hread, by rw [hread, regValue_reads]⟩

/-! ## Writes that are ignored -/

theorem regAt_of_reserved {off : Nat} (h : 0x70 ≤ off) : regAt off = .reserved := by
  unfold regAt
  split
  case h_29 => rfl
  all_goals omega

theorem hostWrite_of_readOnly {r : Reg} (hctrl : r ≠ .ctrl) (hstatus : r ≠ .status) (hcmd : r ≠ .cmd) (harg : r ≠ .arg)
    (hin : r ≠ .inData) (v : Word) (s : State) : hostWrite r v s = s := by
  cases r with
  | ctrl => exact absurd rfl hctrl
  | status => exact absurd rfl hstatus
  | cmd => exact absurd rfl hcmd
  | arg => exact absurd rfl harg
  | inData => exact absurd rfl hin
  | _ => rfl

/-- Settles O14, register by register; from 0x70 on the map has no row. -/
theorem readOnlyAndReservedWritesAreIgnored : Obligations.ReadOnlyAndReservedWritesAreIgnored := by
  unfold Obligations.ReadOnlyAndReservedWritesAreIgnored
  refine ⟨fun r v s hctrl hstatus hcmd harg hin => hostWrite_of_readOnly hctrl hstatus hcmd harg hin v s,
    fun off s h _ => ⟨regAt_of_reserved h, ?_⟩, fun _ _ => rfl⟩
  rw [regAt_of_reserved h, regValue]

/-! ## The window -/

section
variable {c : Config}

theorem inWindow_iff {addr : Nat} : inWindow c addr = true ↔ c.base ≤ addr ∧ addr < c.base + 256 := by
  simp [inWindow]

theorem admittedAccess_base_add_iff {off size : Nat} :
    admittedAccess c (c.base + off) size = true ↔ size = 4 ∧ off % 4 = 0 := by
  simp [admittedAccess]

end

section
variable {s : State} {addr size : Nat}

theorem hostAccess_of_outside (hw : inWindow s.cfg addr = false) (v : Word) :
    hostAccess (.read addr size) s = .fault .outsideWindow ∧
    hostAccess (.write addr size v) s = .fault .outsideWindow := by
  simp [hostAccess, hw]

theorem hostAccess_of_notAdmitted (hw : inWindow s.cfg addr = true) (ha : admittedAccess s.cfg addr size = false)
    (v : Word) :
    hostAccess (.read addr size) s = .refused .accessNotAdmitted ∧
    hostAccess (.write addr size v) s = .refused .accessNotAdmitted := by
  simp [hostAccess, hw, ha]

end

/-- Settles O15: such an address lies in the window, so the access is a step or refused as R55 admits it or not. -/
theorem onlyWholeAlignedAccessesAreAdmitted : Obligations.OnlyWholeAlignedAccessesAreAdmitted := by
  unfold Obligations.OnlyWholeAlignedAccessesAreAdmitted
  intro s off size v hoff
  have hw : inWindow s.cfg (s.cfg.base + off) = true := inWindow_iff.mpr (by omega)
  refine ⟨fun hsize halign => ?_, fun hbad => ?_⟩
  · have ha := admittedAccess_base_add_iff (c := s.cfg).mpr ⟨hsize, halign⟩
    have hreg : regAt (s.cfg.base + off - s.cfg.base) = regAt off := by rw [Nat.add_sub_cancel_left]
    exact ⟨hostAccess_read_eq_next_iff.mpr ⟨hw, ha, by rw [hreg]⟩,
      hostAccess_write_eq_next_iff.mpr ⟨hw, ha, by rw [hreg]⟩⟩
  · have ha : admittedAccess s.cfg (s.cfg.base + off) size = false := by
      rw [← Bool.not_eq_true, admittedAccess_base_add_iff]
      omega
    exact hostAccess_of_notAdmitted hw ha v

/-- Settles O16: no such address lies in the window. -/
theorem accessesOutsideTheWindowFault : Obligations.AccessesOutsideTheWindowFault := by
  unfold Obligations.AccessesOutsideTheWindowFault
  intro s addr size v hout
  have hw : inWindow s.cfg addr = false := by
    rw [← Bool.not_eq_true, inWindow_iff]
    omega
  exact hostAccess_of_outside hw v

end Sys2Proof.Machine
end

section
/-! PROOFS. The decoder as a table of layouts by opcode (R70 to R72), which words it takes for which command, and O1 to
O5 from that. -/

namespace Sys2Proof

/-! ## The two fields of a word -/

theorem opcOf_append_operandOf (w : Word) : opcOf w ++ operandOf w = w :=
  (BitVec.extractLsb'_append_extractLsb'_eq_extractLsb' (Nat.zero_add 24).symm).trans BitVec.extractLsb'_eq_self

theorem encode_eq_iff {i : Instr} {w : Word} : encode i = w ↔ opcOf w = i.opc ∧ operandOf w = i.operand := by
  constructor
  · rintro rfl
    exact Laws.encode_fields i
  · rintro ⟨hopc, hoperand⟩
    rw [encode, ← hopc, ← hoperand, opcOf_append_operandOf]

theorem extractLsb'_operandOf (w : Word) {start len : Nat} (h : start + len ≤ 24) :
    (operandOf w).extractLsb' start len = w.extractLsb' start len := by
  ext k hk
  simp [operandOf, BitVec.getElem_extractLsb', show start + k < 24 by omega]

/-! ## The layouts (R71) -/

section
variable {i j : Instr} {x : BitVec 24}

theorem layoutZ_eq_ok_iff : layoutZ i x = .ok j ↔ x = 0#24 ∧ i = j := by
  unfold layoutZ
  split <;> simp [*]

theorem layoutS_eq_ok_iff {mk : Byte → Instr} :
    layoutS mk x = .ok j ↔ x.extractLsb' 8 16 = 0#16 ∧ mk (x.extractLsb' 0 8) = j := by
  unfold layoutS
  split <;> simp [*]

theorem layoutI_eq_ok_iff {mk : Index → Instr} :
    layoutI mk x = .ok j ↔ x.extractLsb' 9 15 = 0#15 ∧ mk (x.extractLsb' 0 9) = j := by
  unfold layoutI
  split <;> simp [*]

theorem layoutB_eq_ok_iff {mk : BitVec 5 → BitVec 16 → Instr} :
    layoutB mk x = .ok j ↔ x.extractLsb' 21 3 = 0#3 ∧ writeBitsOk (x.extractLsb' 16 5) (x.extractLsb' 0 16) = true ∧
      mk (x.extractLsb' 16 5) (x.extractLsb' 0 16) = j := by
  unfold layoutB
  split
  · split <;> simp only [*, Except.ok.injEq, reduceCtorEq, true_and, false_and, Bool.false_eq_true]
  · simp [*]

theorem layoutK_eq_ok_iff {mk : BitVec 24 → Instr} : layoutK mk x = .ok j ↔ mk x = j := by
  simp [layoutK]

end

/-! An operand is its fields, put together again. -/

section
variable {x : BitVec 24}

theorem append_layoutS (h : x.extractLsb' 8 16 = 0#16) : 0#16 ++ x.extractLsb' 0 8 = x := by
  rw [← h, BitVec.extractLsb'_append_extractLsb'_eq_extractLsb' (Nat.zero_add _).symm, BitVec.extractLsb'_eq_self]

theorem append_layoutI (h : x.extractLsb' 9 15 = 0#15) : 0#15 ++ x.extractLsb' 0 9 = x := by
  rw [← h, BitVec.extractLsb'_append_extractLsb'_eq_extractLsb' (Nat.zero_add _).symm, BitVec.extractLsb'_eq_self]

theorem append_layoutB (h : x.extractLsb' 21 3 = 0#3) : 0#3 ++ x.extractLsb' 16 5 ++ x.extractLsb' 0 16 = x := by
  rw [← h, BitVec.extractLsb'_append_extractLsb'_eq_extractLsb' (Nat.add_comm 5 16),
    BitVec.extractLsb'_append_extractLsb'_eq_extractLsb' (Nat.zero_add _).symm, BitVec.extractLsb'_eq_self]

end

/-! ## The layout of each opcode -/

/-- The layout `decode` reads the operand in, for the opcode of a command (R71, R72). -/
def Instr.layout : Instr → BitVec 24 → Except Illegal Instr
  | .nop => layoutZ .nop
  | .clear => layoutZ .clear
  | .ackErr => layoutZ .ackErr
  | .loadRecord _ => layoutS .loadRecord
  | .build => layoutZ .build
  | .genCodes => layoutZ .genCodes
  | .queryNode _ => layoutI .queryNode
  | .queryCode _ => layoutS .queryCode
  | .writeBits _ _ => layoutB .writeBits
  | .flush => layoutZ .flush
  | .readBit => layoutZ .readBit
  | .skipBits _ => layoutK .skipBits
  | .alignRead => layoutZ .alignRead
  | .encodeSym _ => layoutS .encodeSym
  | .encodeStream => layoutZ .encodeStream
  | .decode => layoutZ .decode

theorem decode_of_opcOf_eq {w : Word} {i : Instr} (h : opcOf w = i.opc) : decode w = i.layout (operandOf w) := by
  unfold decode
  rw [h]
  cases i <;> rfl

/-- One command of each row of the opcode map, in its order, with every operand 0. -/
def rowCommands : List Instr :=
  [.nop, .clear, .ackErr, .loadRecord 0, .build, .genCodes, .queryNode 0, .queryCode 0, .writeBits 0 0, .flush,
    .readBit, .skipBits 0, .alignRead, .encodeSym 0, .encodeStream, .decode]

/-- The command of `rowCommands` that stands for the row of a command. -/
def Instr.zeroed : Instr → Instr
  | .loadRecord _ => .loadRecord 0
  | .queryNode _ => .queryNode 0
  | .queryCode _ => .queryCode 0
  | .writeBits _ _ => .writeBits 0 0
  | .skipBits _ => .skipBits 0
  | .encodeSym _ => .encodeSym 0
  | i => i

theorem zeroed_mem_rowCommands (i : Instr) : i.zeroed ∈ rowCommands := by
  cases i <;> simp [rowCommands, Instr.zeroed]

theorem opc_zeroed (i : Instr) : i.zeroed.opc = i.opc := by
  cases i <;> rfl

/-- The sixteen opcodes (R72). -/
theorem exists_opc_eq_iff {c : Byte} : (∃ i : Instr, c = i.opc) ↔
    c ∈ [0x00#8, 0x01#8, 0x02#8, 0x10#8, 0x11#8, 0x12#8, 0x13#8, 0x14#8, 0x20#8, 0x21#8, 0x22#8, 0x23#8, 0x24#8,
      0x30#8, 0x31#8, 0x32#8] := by
  change _ ↔ c ∈ rowCommands.map Instr.opc
  rw [List.mem_map]
  constructor
  · rintro ⟨i, rfl⟩
    exact ⟨i.zeroed, zeroed_mem_rowCommands i, opc_zeroed i⟩
  · rintro ⟨i, -, h⟩
    exact ⟨i, h.symm⟩

theorem decode_of_unassigned {w : Word} (h : ¬ ∃ i : Instr, opcOf w = i.opc) :
    decode w = .error .unassignedOpcode := by
  simp only [exists_opc_eq_iff, List.mem_cons, List.not_mem_nil, or_false, not_or] at h
  unfold decode
  split <;> simp_all only [not_true_eq_false, false_and, and_false]

/-! ## Decoding and encoding -/

theorem layout_operand {i : Instr} (h : i.wf = true) : i.layout i.operand = .ok i := by
  cases i with
  | loadRecord sym | queryCode sym | encodeSym sym =>
    obtain ⟨hsym, hzero⟩ := Machine.append₂_fields (0#16) sym
    exact layoutS_eq_ok_iff.mpr ⟨hzero, congrArg _ hsym⟩
  | queryNode idx =>
    obtain ⟨hidx, hzero⟩ := Machine.append₂_fields (0#15) idx
    exact layoutI_eq_ok_iff.mpr ⟨hzero, congrArg _ hidx⟩
  | writeBits nb v =>
    obtain ⟨hv, hnb, hzero⟩ := Machine.append₃_fields (0#3) nb v
    refine layoutB_eq_ok_iff.mpr ⟨hzero, ?_⟩
    simp only [Instr.operand]
    rw [hv, hnb]
    exact ⟨h, rfl⟩
  | _ => rfl

/-- What an operand is read as: a well-formed command of the same row that has this operand. -/
theorem layout_eq_ok {i j : Instr} {x : BitVec 24} (h : i.layout x = .ok j) :
    x = j.operand ∧ j.wf = true ∧ j.opc = i.opc ∧ j.mnemonic = i.mnemonic := by
  cases i with
  | loadRecord | queryCode | encodeSym =>
    obtain ⟨hzero, rfl⟩ := layoutS_eq_ok_iff.mp h
    exact ⟨(append_layoutS hzero).symm, rfl, rfl, rfl⟩
  | queryNode =>
    obtain ⟨hzero, rfl⟩ := layoutI_eq_ok_iff.mp h
    exact ⟨(append_layoutI hzero).symm, rfl, rfl, rfl⟩
  | writeBits =>
    obtain ⟨hzero, hwf, rfl⟩ := layoutB_eq_ok_iff.mp h
    exact ⟨(append_layoutB hzero).symm, hwf, rfl, rfl⟩
  | skipBits =>
    obtain rfl := layoutK_eq_ok_iff.mp h
    exact ⟨rfl, rfl, rfl, rfl⟩
  | _ =>
    obtain ⟨rfl, rfl⟩ := layoutZ_eq_ok_iff.mp h
    exact ⟨rfl, rfl, rfl, rfl⟩

/-- The words that decode to a command: its own, if its operands are in range. -/
theorem decode_eq_ok_iff {w : Word} {i : Instr} : decode w = .ok i ↔ encode i = w ∧ i.wf = true := by
  rw [encode_eq_iff]
  constructor
  · intro h
    by_cases hassigned : ∃ j : Instr, opcOf w = j.opc
    · obtain ⟨j, hj⟩ := hassigned
      rw [decode_of_opcOf_eq hj] at h
      obtain ⟨hoperand, hwf, hopc, -⟩ := layout_eq_ok h
      exact ⟨⟨hj.trans hopc.symm, hoperand⟩, hwf⟩
    · rw [decode_of_unassigned hassigned] at h
      cases h
  · rintro ⟨⟨hopc, hoperand⟩, hwf⟩
    rw [decode_of_opcOf_eq hopc, hoperand, layout_operand hwf]

/-- Settles O1: the word of a well-formed command is one that decodes to it. -/
theorem decodeOfEncodeIsTheCommand : Obligations.DecodeOfEncodeIsTheCommand := by
  unfold Obligations.DecodeOfEncodeIsTheCommand
  exact fun _ hwf => decode_eq_ok_iff.mpr ⟨rfl, hwf⟩

/-- Settles O2: a word decodes to a command only if it is the command's word. -/
theorem encodeOfDecodeIsTheWord : Obligations.EncodeOfDecodeIsTheWord := by
  unfold Obligations.EncodeOfDecodeIsTheWord
  exact fun _ _ => decode_eq_ok_iff.mp

/-! ## The rows of the opcode map (R72) -/

/-- How many low bits of the operand the layout of a command takes; the others must be zero (R71). -/
def Instr.operandWidth : Instr → Nat
  | .loadRecord _ | .queryCode _ | .encodeSym _ => 8
  | .queryNode _ => 9
  | .writeBits _ _ => 21
  | .skipBits _ => 24
  | _ => 0

/-- The row of the opcode map for a command: the mask covers OPC and the must-be-zero bits. -/
def Instr.row (i : Instr) : OpcodeRow := ⟨i.mnemonic, i.opc ++ 0#24, BitVec.allOnes 32 <<< i.operandWidth⟩

theorem row_zeroed (i : Instr) : i.zeroed.row = i.row := by
  cases i <;> rfl

/-- The opcode map holds the rows of the commands and no others. -/
theorem mem_opcodeTable_iff {r : OpcodeRow} : r ∈ opcodeTable ↔ ∃ i : Instr, i.row = r := by
  change r ∈ rowCommands.map Instr.row ↔ _
  rw [List.mem_map]
  constructor
  · rintro ⟨i, -, h⟩
    exact ⟨i, h⟩
  · rintro ⟨i, rfl⟩
    exact ⟨i.zeroed, zeroed_mem_rowCommands i, row_zeroed i⟩

/-- A mask that ends at bit k compares OPC and the operand bits from k up. -/
theorem and_mask_eq_iff {w : Word} {c : Byte} {k : Nat} (hk : k ≤ 24) :
    w &&& BitVec.allOnes 32 <<< k = c ++ 0#24 ↔ opcOf w = c ∧ w.extractLsb' k (24 - k) = 0 := by
  have hmasked (b : Nat) (hb : b < 32) :
      (w &&& BitVec.allOnes 32 <<< k).getLsbD b = (decide (k ≤ b) && w.getLsbD b) := by
    rw [BitVec.getLsbD_and, BitVec.getLsbD_shiftLeft, BitVec.getLsbD_allOnes]
    by_cases hkb : k ≤ b
    · simp [hb, hkb, Nat.lt_of_le_of_lt (Nat.sub_le b k) hb]
    · simp [hkb, Nat.lt_of_not_le hkb]
  have hfixed (b : Nat) : (c ++ 0#24).getLsbD b = (decide (24 ≤ b) && c.getLsbD (b - 24)) := by
    rw [BitVec.getLsbD_append]
    by_cases hb : b < 24
    · simp [hb]
    · simp [hb, Nat.le_of_not_lt hb]
  constructor
  · intro h
    rw [h] at hmasked
    constructor
    · refine BitVec.eq_of_getLsbD_eq fun b hb => ?_
      have hbit := (hfixed (24 + b)).symm.trans (hmasked (24 + b) (by omega))
      simpa [opcOf, hb, show k ≤ 24 + b by omega] using hbit.symm
    · refine BitVec.eq_of_getLsbD_eq fun b hb => ?_
      have hbit := (hfixed (k + b)).symm.trans (hmasked (k + b) (by omega))
      simpa [hb, show ¬ 24 ≤ k + b by omega] using hbit.symm
  · rintro ⟨rfl, hzero⟩
    refine BitVec.eq_of_getLsbD_eq fun b hb => (hmasked b hb).trans (Eq.trans ?_ (hfixed b).symm)
    by_cases hopc : 24 ≤ b
    · simp [opcOf, hopc, show k ≤ b by omega, show b - 24 < 8 by omega]
    · by_cases hkb : k ≤ b
      · have hbit := congrArg (·.getLsbD (b - k)) hzero
        simpa [hopc, hkb, show b - k < 24 - k by omega] using hbit
      · simp [hopc, hkb]

/-- R74 (c), the bits of V told one by one. -/
theorem writeBitsOk_iff {nb : BitVec 5} {v : BitVec 16} : writeBitsOk nb v = true ↔
    1 ≤ nb.toNat ∧ nb.toNat ≤ 16 ∧ ∀ k < 16, nb.toNat ≤ k → v.getLsbD k = false := by
  have hbits : v >>> nb.toNat = 0#16 ↔ ∀ k < 16, nb.toNat ≤ k → v.getLsbD k = false := by
    constructor
    · intro h k hk hle
      have hbit := congrArg (·.getLsbD (k - nb.toNat)) h
      simpa [show nb.toNat + (k - nb.toNat) = k by omega] using hbit
    · intro h
      refine BitVec.eq_of_getLsbD_eq fun k _ => ?_
      rw [BitVec.getLsbD_ushiftRight, BitVec.getLsbD_zero]
      by_cases hk : nb.toNat + k < 16
      · exact h _ hk (Nat.le_add_right _ _)
      · exact BitVec.getLsbD_of_ge _ _ (Nat.le_of_not_lt hk)
  simp [writeBitsOk, hbits, and_assoc]

theorem writeBitsOk_low_iff {nb : BitVec 5} {w : Word} : writeBitsOk nb (w.extractLsb' 0 16) = true ↔
    1 ≤ nb.toNat ∧ nb.toNat ≤ 16 ∧ ∀ k < 16, nb.toNat ≤ k → w.getLsbD k = false := by
  rw [writeBitsOk_iff]
  simp +contextual only [BitVec.getLsbD_extractLsb', decide_true, Bool.true_and, Nat.zero_add]

theorem not_writeBitsOk_low_iff {nb : BitVec 5} {w : Word} : ¬ writeBitsOk nb (w.extractLsb' 0 16) = true ↔
    nb.toNat = 0 ∨ nb.toNat > 16 ∨ ∃ k < 16, nb.toNat ≤ k ∧ w.getLsbD k = true := by
  simp only [writeBitsOk_low_iff, not_and_or, not_forall, Nat.not_le, Nat.lt_one_iff, exists_prop, Bool.not_eq_false]

/-- The fields of a word that its layout must find in order: the must-be-zero bits, and the check of WRITE_BITS. -/
theorem exists_layout_eq_ok_iff {i : Instr} {w : Word} : (∃ j, i.layout (operandOf w) = .ok j) ↔
    w.extractLsb' i.operandWidth (24 - i.operandWidth) = 0 ∧
    (i.mnemonic = "WRITE_BITS" → writeBitsOk (w.extractLsb' 16 5) (w.extractLsb' 0 16) = true) := by
  cases i with
  | loadRecord | queryCode | encodeSym =>
    simp [Instr.layout, layoutS_eq_ok_iff, Instr.operandWidth, Instr.mnemonic, extractLsb'_operandOf]
  | queryNode =>
    simp [Instr.layout, layoutI_eq_ok_iff, Instr.operandWidth, Instr.mnemonic, extractLsb'_operandOf]
  | writeBits =>
    simp [Instr.layout, layoutB_eq_ok_iff, Instr.operandWidth, Instr.mnemonic, extractLsb'_operandOf]
  | skipBits =>
    simp [Instr.layout, layoutK_eq_ok_iff, Instr.operandWidth, Instr.mnemonic, BitVec.of_length_zero]
  | _ => simp [Instr.layout, layoutZ_eq_ok_iff, Instr.operandWidth, Instr.mnemonic, operandOf]

/-- Mask and match of a row say that the word has the row's opcode and an operand its layout reads. -/
theorem rowSelects_row_iff {i : Instr} {w : Word} :
    Machine.rowSelects i.row w ↔ opcOf w = i.opc ∧ ∃ j, i.layout (operandOf w) = .ok j := by
  have hwidth : i.operandWidth ≤ 24 := by cases i <;> simp [Instr.operandWidth]
  rw [Machine.rowSelects, exists_layout_eq_ok_iff, writeBitsOk_low_iff]
  exact (and_congr_left' (and_mask_eq_iff hwidth)).trans and_assoc

theorem extractLsb'_of_decode {w : Word} {i : Instr} (h : decode w = .ok i) {start len : Nat}
    (hl : start + len ≤ 24) : w.extractLsb' start len = i.operand.extractLsb' start len := by
  obtain ⟨-, hoperand⟩ := encode_eq_iff.mp (decode_eq_ok_iff.mp h).1
  rw [← hoperand, extractLsb'_operandOf w hl]

theorem symField_of_decode {w : Word} {i : Instr} {sym : Byte} (h : decode w = .ok i) (hi : i.operand = 0#16 ++ sym) :
    sym = w.extractLsb' 0 8 ∧ w.extractLsb' 8 16 = 0 := by
  obtain ⟨hsym, hzero⟩ := Machine.append₂_fields (0#16) sym
  rw [extractLsb'_of_decode h (by decide), extractLsb'_of_decode h (by decide), hi]
  exact ⟨hsym.symm, hzero⟩

/-- Settles O3: the first two parts are `rowSelects_row_iff`; the fields are those of the operand of the decoded
command, which is the operand of the word. -/
theorem wordIsTheCommandItsRowSelects : Obligations.WordIsTheCommandItsRowSelects := by
  unfold Obligations.WordIsTheCommandItsRowSelects
  refine fun w => ⟨fun i h => ?_, fun r hr hsel => ?_, fun sym h => ?_, fun idx h => ?_, fun nb v h => ?_,
    fun n h => ?_, fun i hi h => ?_⟩
  · obtain ⟨hopc, -⟩ := encode_eq_iff.mp (decode_eq_ok_iff.mp h).1
    exact ⟨i.row, mem_opcodeTable_iff.mpr ⟨i, rfl⟩,
      rowSelects_row_iff.mpr ⟨hopc, i, (decode_of_opcOf_eq hopc).symm.trans h⟩, rfl⟩
  · obtain ⟨i, rfl⟩ := mem_opcodeTable_iff.mp hr
    obtain ⟨hopc, j, hj⟩ := rowSelects_row_iff.mp hsel
    obtain ⟨-, -, -, hmnemonic⟩ := layout_eq_ok hj
    exact ⟨j, (decode_of_opcOf_eq hopc).trans hj, hmnemonic⟩
  · rcases h with h | h | h <;> exact symField_of_decode h rfl
  · obtain ⟨hidx, hzero⟩ := Machine.append₂_fields (0#15) idx
    rw [extractLsb'_of_decode h (by decide), extractLsb'_of_decode h (by decide)]
    exact ⟨hidx.symm, hzero⟩
  · obtain ⟨hv, hnb, hzero⟩ := Machine.append₃_fields (0#3) nb v
    obtain ⟨hlow, hhigh, hclear⟩ := writeBitsOk_iff.mp (decode_eq_ok_iff.mp h).2
    rw [extractLsb'_of_decode h (by decide), extractLsb'_of_decode h (by decide), extractLsb'_of_decode h (by decide)]
    refine ⟨hnb.symm, hv.symm, hzero, hlow, hhigh, fun k hk => ?_⟩
    by_cases hk16 : k < 16
    · exact hclear k hk16 hk
    · exact BitVec.getLsbD_of_ge v k (Nat.le_of_not_lt hk16)
  · rw [extractLsb'_of_decode h (by decide)]
    exact BitVec.extractLsb'_eq_self.symm
  · have hoperand : ∀ j ∈ [Instr.nop, .clear, .ackErr, .build, .genCodes, .flush, .readBit, .alignRead, .encodeStream,
        .decode], j.operand = 0#24 := by decide
    rw [extractLsb'_of_decode h (by decide), hoperand i hi]
    rfl

/-! ## Illegal words (R74) -/

theorem exists_error_iff {ε α : Type} {r : Except ε α} : (∃ e, r = .error e) ↔ ¬ ∃ a, r = .ok a := by
  cases r <;> simp

end Sys2Proof

namespace Sys2Proof.Machine

theorem dispatchIllegal_eq (w : Word) (s : State) : dispatchIllegal w s =
    { s with eng := .idle, err := if s.err = .ok then .illegalCmd else s.err } := by
  unfold dispatchIllegal
  by_cases h : s.err = .ok
  · rw [lockedOut_of_ok _ h, raise_of_ok _ h, if_pos h]
    rfl
  · rw [raise_of_err _ h, if_neg h, finish, ite_self]

theorem engineTurn_of_illegal {s : State} {e : Illegal} (hs : s.eng = .pending) (h : decode s.cmdLast = .error e) :
    engineTurn s = .next { s with eng := .idle, err := if s.err = .ok then .illegalCmd else s.err } := by
  simp only [engineTurn, hs, h, dispatchIllegal_eq]

/-- Settles O4: a word of one of the sixteen opcodes is illegal where its layout fails, opcode by opcode. -/
theorem illegalWordsAreLatchedAndRaiseIllegalCmd : Obligations.IllegalWordsAreLatchedAndRaiseIllegalCmd := by
  unfold Obligations.IllegalWordsAreLatchedAndRaiseIllegalCmd
  refine ⟨fun w => ?_, fun w s hs => if_pos hs, fun s e hs hd => engineTurn_of_illegal hs hd⟩
  by_cases hassigned : ∃ i : Instr, opcOf w = i.opc
  · obtain ⟨i, hopc⟩ := hassigned
    rw [exists_error_iff, decode_of_opcOf_eq hopc, exists_layout_eq_ok_iff, hopc]
    cases i with
    | writeBits =>
      rw [← not_writeBitsOk_low_iff]
      simp [Instr.opc, Instr.operandWidth, Instr.mnemonic, imp_iff_not_or]
    | _ => simp [Instr.opc, Instr.operandWidth, Instr.mnemonic]
  · exact iff_of_true ⟨_, decode_of_unassigned hassigned⟩ (.inl (exists_opc_eq_iff.not.mp hassigned))

/-- Settles O5, by running the decoder on the eight words. -/
theorem sampleWordsDecode : Obligations.SampleWordsDecode := by
  unfold Obligations.SampleWordsDecode
  decide

end Sys2Proof.Machine
end

section
/-! PROOFS. A command out of phase raises the error the phase table names and does nothing else (R73, R79): O18. -/

namespace Sys2Proof.Machine

theorem exec_of_phaseError {i : Instr} {s : State} {c : ErrCode} (hs : s.eng = .pending) (herr : s.err = .ok)
    (hp : phaseError i s.phase = c) (hc : c ≠ .ok) : exec i s = .next { s with err := c, eng := .idle } := by
  subst hp
  rw [exec_eq_engineStep, engineStep_pending hs, dispatch, lockedOut_of_ok _ herr, if_neg Bool.false_ne_true, if_neg hc,
    raise_of_ok _ herr]

/-- Settles O18: each row of the table gives the error the dispatch step raises; the lock comes before it, and an
illegal word never comes to it. -/
theorem phaseTableIsEnforced : Obligations.PhaseTableIsEnforced := by
  unfold Obligations.PhaseTableIsEnforced
  refine ⟨fun s hs herr => ?_, fun p sym idx nb v n => ?_, fun i s hs herr hp => ?_, fun s e hs herr hd => ?_⟩
  · have raises {i : Instr} (hp : phaseError i s.phase = .badPhase) :
        exec i s = .next { s with err := .badPhase, eng := .idle } := exec_of_phaseError hs herr hp nofun
    refine ⟨?_, fun hp => ?_, ?_, ?_, fun hp => ?_⟩
    · rintro (hp | hp) sym <;> exact raises (by rw [hp]; rfl)
    · exact exec_of_phaseError hs herr (by rw [hp]; rfl) nofun
    · rintro (hp | hp) <;> exact raises (by rw [hp]; rfl)
    · rintro (hp | hp) <;>
        exact ⟨raises (by rw [hp]; rfl), raises (by rw [hp]; rfl), fun idx => raises (by rw [hp]; rfl)⟩
    · have hphase : s.phase = .empty ∨ s.phase = .loaded ∨ s.phase = .built := by
        cases h : s.phase <;> simp [h] at hp ⊢
      rcases hphase with h | h | h <;>
        exact ⟨raises (by rw [h]; rfl), fun sym => ⟨raises (by rw [h]; rfl), raises (by rw [h]; rfl)⟩⟩
  · simp only [List.forall_mem_cons]
    exact ⟨⟨rfl, rfl, rfl, rfl, rfl, rfl, rfl, rfl, List.forall_mem_nil _⟩, phaseError_loadRecord_iff,
      phaseError_build_iff,
      ⟨phaseError_genCodes_iff, phaseError_queryNode_iff, phaseError_decode_iff, List.forall_mem_nil _⟩,
      ⟨phaseError_queryCode_iff, phaseError_encodeSym_iff, phaseError_encodeStream_iff, List.forall_mem_nil _⟩⟩
  · refine lockedCommandsHaveNoEffect i s hs herr ?_ ?_ ?_ <;> (rintro rfl; exact hp rfl)
  · rw [engineTurn_of_illegal hs hd, if_pos herr]

end Sys2Proof.Machine
end

section
/-! PROOFS. A command at one of its calls stays where it is exactly while the primitive would hold (R80, R81, R89):
O21. -/

namespace Sys2Proof.Machine

/-! ## When a primitive holds -/

section
variable {s : State} {b : Bool} {v : Byte}

theorem writeBit_eq_hold_iff : writeBit b s = .hold ↔ wouldHold .writeBit s = true := by
  rcases writeBit_cases b s with ⟨h7, hf, hw⟩ | ⟨h7, hf, hw⟩ | ⟨h7, hw⟩ <;> rw [hw] <;>
    simp [wouldHold, State.outFull, *]

theorem flushByte_eq_hold_iff : flushByte s = .hold ↔ wouldHold .flush s = true := by
  rcases flushByte_cases s with ⟨h0, hw⟩ | ⟨h0, hf, hw⟩ | ⟨h0, hf, hw⟩ <;> rw [hw] <;>
    simp [wouldHold, State.outFull, *]

theorem readBit_eq_hold_iff : readBit s = .hold ↔ wouldHold .readBit s = true := by
  rcases readBit_cases s with ⟨h0, hr⟩ | ⟨h0, v, rest, hq, hr⟩ | ⟨h0, hq, he, hr⟩ | ⟨h0, hq, he, hr⟩ <;> rw [hr] <;>
    simp [wouldHold, *]

theorem popByte_eq_hold_iff : popByte s = .hold ↔ wouldHold .popByte s = true := by
  rcases popByte_cases s with ⟨v, rest, hq, hp⟩ | ⟨hq, he, hp⟩ | ⟨hq, he, hp⟩ <;> rw [hp] <;> simp [wouldHold, *]

theorem emit_eq_hold_iff : emit v s = .hold ↔ wouldHold .emit s = true := by
  rcases emit_cases v s with ⟨hf, he⟩ | ⟨hf, he⟩ <;> rw [he] <;> simp [wouldHold, State.outFull, *]

end

/-! ## What a completed call changes -/

section
variable {s s' : State} {b : Bool} {v : Byte}

theorem not_buffersKept_of_writeBit (h : writeBit b s = .done s') : ¬ BuffersKept s' s := by
  intro hk
  have hcnt := hk.accCnt
  rcases writeBit_cases b s with ⟨-, -, hw⟩ | ⟨h7, -, hw⟩ | ⟨-, hw⟩ <;> rw [hw] at h <;> cases h
  · simp [h7] at hcnt
  · simp at hcnt

theorem not_buffersKept_of_readBit (h : readBit s = .bit b s') : ¬ BuffersKept s' s := by
  intro hk
  have hcnt := hk.srCnt
  rcases readBit_cases s with ⟨-, hr⟩ | ⟨h0, v, rest, -, hr⟩ | ⟨-, -, -, hr⟩ | ⟨-, -, -, hr⟩ <;>
    rw [hr] at h <;> cases h
  · bv_omega
  · simp [h0] at hcnt

theorem not_buffersKept_of_popByte (h : popByte s = .byte v s') : ¬ BuffersKept s' s := by
  intro hk
  have hin := hk.inq
  rcases popByte_cases s with ⟨v', rest, hq, hp⟩ | ⟨-, -, hp⟩ | ⟨-, -, hp⟩ <;> rw [hp] at h <;> cases h
  simp [hq] at hin

theorem not_buffersKept_of_emit (h : emit v s = .done s') : ¬ BuffersKept s' s := by
  intro hk
  have hout := hk.outq
  rcases emit_cases v s with ⟨-, he⟩ | ⟨-, he⟩ <;> rw [he] at h <;> cases h
  simp at hout

end

/-- What follows a completed call moves the engine only, so it does not undo what the call did to the buffers. -/
theorem ControlOnly.ne_of_not_buffersKept {s s' t : State} (h : ControlOnly s' t) (hne : ¬ BuffersKept s' s) : t ≠ s :=
  fun he => hne (he ▸ h.buffersKept)

theorem ne_of_eng_idle {s t : State} {loc : Loc} (hs : s.eng = .running loc) (ht : t.eng = .idle) : t ≠ s := by
  rintro rfl
  cases hs.symm.trans ht

/-! ## A step at a call -/

/-- A step at a call of ReadBit (R80): it holds, meets the end of the stream, or goes on with a bit. -/
def afterRead (r : BitRead) (atEnd : State) (rest : Bool → State → State) (s : State) : State :=
  match r with
  | .hold => s
  | .eof => atEnd
  | .bit b s' => rest b s'

section
variable (s : State)

theorem readBitResume_eq : readBitResume .readBit s =
    some (afterRead (readBit s) (complete 2 s) (fun b => complete (bitVal 32 b)) s) := by
  rw [readBitResume]; cases readBit s <;> rfl

theorem skipResume_eq (n : BitVec 24) (k : Nat) : skipResume n (.skipBits k) s =
    some (afterRead (readBit s) (complete (BitVec.ofNat 32 k) s) (fun _ => skipLoop n (k + 1)) s) := by
  rw [skipResume]; cases readBit s <;> rfl

theorem decodeResume_decodeRead_eq (e : Word) : decodeResume (.decodeRead e) s =
    some (afterRead (readBit s) (raise .truncated s) (decodeMove e) s) := by
  rw [decodeResume]; cases readBit s <;> rfl

end

section
variable {s : State}

theorem afterPush_eq_self_iff {p : Pushed} {rest : State → State} (hne : ∀ s', p = .done s' → rest s' ≠ s) :
    afterPush p rest s = s ↔ p = .hold := by
  cases p with
  | hold => exact iff_of_true rfl rfl
  | done s' => exact iff_of_false (hne s' rfl) nofun

theorem afterPush_writeBit_eq_self_iff {b : Bool} {rest : State → State} (hrest : ∀ s', ControlOnly s' (rest s')) :
    afterPush (writeBit b s) rest s = s ↔ wouldHold .writeBit s = true :=
  (afterPush_eq_self_iff fun s' hw =>
    (hrest s').ne_of_not_buffersKept (not_buffersKept_of_writeBit hw)).trans writeBit_eq_hold_iff

theorem afterPush_emit_eq_self_iff {v : Byte} {rest : State → State} (hrest : ∀ s', ControlOnly s' (rest s')) :
    afterPush (emit v s) rest s = s ↔ wouldHold .emit s = true :=
  (afterPush_eq_self_iff fun s' he =>
    (hrest s').ne_of_not_buffersKept (not_buffersKept_of_emit he)).trans emit_eq_hold_iff

theorem afterRead_readBit_eq_self_iff {atEnd : State} {rest : Bool → State → State} (hend : atEnd ≠ s)
    (hrest : ∀ b s', ControlOnly s' (rest b s')) :
    afterRead (readBit s) atEnd rest s = s ↔ wouldHold .readBit s = true := by
  rw [← readBit_eq_hold_iff]
  cases hr : readBit s with
  | hold => exact iff_of_true rfl rfl
  | eof => exact iff_of_false hend nofun
  | bit b s' =>
    exact iff_of_false ((hrest b s').ne_of_not_buffersKept (not_buffersKept_of_readBit hr)) nofun

end

/-- Of the steps at a call exactly the held ones leave the state as it is: every other one ends the command or changes
a buffer. -/
theorem commandResume_eq_self_iff {i : Instr} {loc : Loc} {s t : State} (heng : s.eng = .running loc)
    (hcall : atCall i loc s = true) (h : commandResume i loc s = some t) :
    t = s ↔ wouldHold loc.prim s = true := by
  have ended {u : State} (hu : u.eng = .idle) : u ≠ s := ne_of_eng_idle heng hu
  cases i <;> cases loc <;> simp only [atCall, Bool.false_eq_true] at hcall <;> rw [commandResume] at h
  case writeBits.writeBits =>
    cases h
    exact afterPush_writeBit_eq_self_iff fun _ => controlOnly_writeBitsLoop _ _
  case flush.flush =>
    cases h
    exact (afterPush_eq_self_iff fun _ _ => ended rfl).trans flushByte_eq_hold_iff
  case readBit.readBit =>
    cases (readBitResume_eq s).symm.trans h
    exact afterRead_readBit_eq_self_iff (ended rfl) fun _ _ => controlOnly_complete _ _
  case skipBits.skipBits =>
    cases (skipResume_eq s _ _).symm.trans h
    exact afterRead_readBit_eq_self_iff (ended rfl) fun _ _ => controlOnly_skipLoop _ _ _
  case encodeSym.encodeSym =>
    cases h
    exact afterPush_writeBit_eq_self_iff fun _ => controlOnly_encodeSymLoop _ _ _
  case encodeStream.streamPop =>
    rw [Loc.prim, ← popByte_eq_hold_iff]
    cases hp : popByte s <;> simp only [encodeStreamResume, hp, Option.some.injEq] at h <;> subst h
    case hold => exact iff_of_true rfl rfl
    case finished => exact iff_of_false (ended rfl) nofun
    case byte =>
      exact iff_of_false ((controlOnly_streamByte _ _ _).ne_of_not_buffersKept (not_buffersKept_of_popByte hp)) nofun
  case encodeStream.streamWrite =>
    cases h
    exact afterPush_writeBit_eq_self_iff fun _ => controlOnly_streamLoop _ _ _ _
  case decode.decodeEmitRoot =>
    cases h
    exact afterPush_emit_eq_self_iff fun _ => controlOnly_decodeRootLoop _ _ _ _
  case decode.decodeRead =>
    cases (decodeResume_decodeRead_eq s _).symm.trans h
    exact afterRead_readBit_eq_self_iff (ended rfl) fun _ _ => controlOnly_decodeMove _ _ _
  case decode.decodeEmit =>
    cases h
    exact afterPush_emit_eq_self_iff fun _ => controlOnly_decodeLoop _ _ _ _

/-- Settles O21: a command at its call has a step, and `commandResume_eq_self_iff` says when it is the one that changes
nothing. -/
theorem runningCommandMovesUnlessItHolds : Obligations.RunningCommandMovesUnlessItHolds := by
  unfold Obligations.RunningCommandMovesUnlessItHolds
  intro s loc i heng hcall
  obtain ⟨t, hres⟩ := exists_commandResume_of_atCall hcall
  have hexec : exec i s = .next t := (exec_eq_engineStep i s).trans (engineStep_running heng hres)
  have hself := commandResume_eq_self_iff heng hcall hres
  exact ⟨fun hw => by rw [hexec, hself.mpr hw], fun hw => ⟨t, hexec, fun he => by simp [hself.mp he] at hw⟩⟩

end Sys2Proof.Machine
end

section
/-! PROOFS. What NOP, CLEAR, ACK_ERR and the commands of the tables do and leave unchanged (R82 to R84): O22, O23, O24,
O56. -/

namespace Sys2Proof.Machine

/-! ## NOP, CLEAR and ACK_ERR -/

/-- The lock and every phase let NOP, CLEAR and ACK_ERR through (R46, R73). -/
theorem begins_of_lockExempt {i : Instr} {s : State} (hi : lockExempt i.opc = true) (hs : s.eng = .pending) :
    Begins i s := by
  refine ⟨hs, by simp [lockedOut, hi], ?_⟩
  rcases (lockExempt_opc_iff i).mp hi with rfl | rfl | rfl <;> rfl

/-- The only legal word of opcode 0x00 is 0 (R82). -/
theorem exists_decode_error_of_opcOf_zero {w : Word} (hopc : opcOf w = 0x00#8) (hw : w ≠ 0) :
    ∃ e, decode w = .error e := by
  rw [exists_error_iff]
  rintro ⟨i, hi⟩
  rw [decode_of_opcOf_eq (i := .nop) hopc] at hi
  obtain ⟨hoperand, -⟩ := layoutZ_eq_ok_iff.mp hi
  exact hw (encode_eq_iff (i := .nop).mpr ⟨hopc, hoperand⟩).symm

/-- Settles O22: NOP begins from PENDING whatever ERR is, and its pseudocode ends it; other words of its opcode are
illegal. -/
theorem nopOnlyBecomesIdle : Obligations.NopOnlyBecomesIdle := by
  unfold Obligations.NopOnlyBecomesIdle
  refine ⟨rfl, fun s hs => exec_of_begins (begins_of_lockExempt rfl hs), fun s hs hopc hw => ?_⟩
  obtain ⟨e, he⟩ := exists_decode_error_of_opcOf_zero hopc hw
  exact engineTurn_of_illegal hs he

/-- Settles O23: CLEAR begins from PENDING whatever ERR is, and its pseudocode is ResetCore. -/
theorem clearResetsTheCore : Obligations.ClearResetsTheCore := by
  unfold Obligations.ClearResetsTheCore
  exact ⟨rfl, fun s hs => exec_of_begins (begins_of_lockExempt rfl hs)⟩

/-- Settles O24: ACK_ERR begins from PENDING whatever ERR is, and its pseudocode removes the lock. -/
theorem ackErrRemovesTheLock : Obligations.AckErrRemovesTheLock := by
  unfold Obligations.AckErrRemovesTheLock
  exact ⟨rfl, fun s hs => exec_of_begins (begins_of_lockExempt rfl hs)⟩

/-! ## Frames -/

/-- Settles O56: these commands have no call, so a step of one moves the engine only or is the whole pseudocode, which
writes the fields named for that command. -/
theorem tableAndControlCommandsFrame : Obligations.TableAndControlCommandsFrame := by
  unfold Obligations.TableAndControlCommandsFrame
  intro sym idx s t i hi h
  rcases exec_next h with ⟨rfl, -⟩ | rfl | ⟨rfl, -, -⟩ | ⟨loc, -, hres⟩
  · simp
  · simp
  · cases i with
    | nop | ackErr | alignRead => simp [commandBody]
    | loadRecord sym' =>
      obtain rfl : sym' = sym := by simpa using hi
      rcases loadRecordBody_cases sym' s with ⟨c, hl⟩ | ⟨-, -, hl⟩ <;> rw [commandBody, hl]
      · simp
      · simp [appendRecord]
    | build => simp [commandBody, buildBody]
    | genCodes => simp [commandBody, genCodesBody]
    | queryNode idx' =>
      obtain rfl : idx' = idx := by simpa using hi
      rw [commandBody, queryNodeBody]
      split <;> simp
    | queryCode sym' =>
      obtain rfl : sym' = sym := by simpa using hi
      simp [commandBody, queryCodeBody]
    | _ => simp at hi
  · simp only [List.mem_cons, List.not_mem_nil, or_false] at hi
    rcases hi with rfl | rfl | rfl | rfl | rfl | rfl | rfl | rfl <;> cases hres

end Sys2Proof.Machine
end

section
/-! PROOFS. The latch (R78) and the turns of a run (R63, R79): O11, O6. -/

namespace Sys2Proof.Machine

/-- Settles O11: the two branches of the latch. -/
theorem cmdWritesLatchOrOverrun : Obligations.CmdWritesLatchOrOverrun := by
  unfold Obligations.CmdWritesLatchOrOverrun
  exact fun _ _ => ⟨fun h => if_pos h, fun h => if_neg h⟩

section
variable {s : State}

theorem engineTurn_eq_exec {i : Instr} (hs : s.eng ≠ .idle) (hd : decode s.cmdLast = .ok i) :
    engineTurn s = exec i s := by
  unfold engineTurn
  split
  case h_1 hidle => exact absurd hidle hs
  all_goals rw [hd]

theorem engineTurn_of_idle (hs : s.eng = .idle) : engineTurn s = .next s := by
  rw [engineTurn, hs]

theorem step_of_nil (ht : s.turns = []) : step s = engineTurn s := by
  rw [step, runTurn, ht]

theorem step_of_cons {turn : Turn} {rest : List Turn} (ht : s.turns = turn :: rest) :
    step s = takeTurn turn { s with turns := rest } := by
  rw [step, runTurn, ht]

end

/-- Settles O6: who moves is the head of the list, and an engine turn that is not idle runs the decoded command. -/
theorem stepRunsTheLatchedCommand : Obligations.StepRunsTheLatchedCommand := by
  unfold Obligations.StepRunsTheLatchedCommand
  refine ⟨fun s i hs hd => ⟨fun ht => ?_, fun rest ht => ?_⟩, fun _ _ _ ht => step_of_cons ht,
    fun _ _ ht => step_of_cons ht, fun _ hs ht => ?_⟩
  · rw [step_of_nil ht, engineTurn_eq_exec hs hd]
  · exact (step_of_cons ht).trans (engineTurn_eq_exec (s := { s with turns := rest }) hs hd)
  · rw [step_of_nil ht, engineTurn_of_idle hs]

end Sys2Proof.Machine
end

section
/-! PROOFS. The bit-stream commands at each of their calls (R89, R96 to R100), and several engine steps in a row: O20,
O37, O38, O40, O41. -/

namespace Sys2Proof.Machine

/-! ## Engine steps at a call, and in a row -/

section
variable {i : Instr} {s t : State}

theorem exec_of_running {loc : Loc} (heng : s.eng = .running loc) (hres : commandResume i loc s = some t) :
    exec i s = .next t :=
  (exec_eq_engineStep i s).trans (engineStep_running heng hres)

theorem execTimes_succ_of_exec (n : Nat) (h : exec i s = .next t) : execTimes (n + 1) i s = execTimes n i t := by
  rw [execTimes, h]

theorem execTimes_add_of_execTimes {m : Nat} (n : Nat) (h : execTimes m i s = .next t) :
    execTimes (m + n) i s = execTimes n i t := by
  induction m generalizing s with
  | zero => cases h; rw [Nat.zero_add]
  | succ m ih =>
    rw [execTimes] at h
    rw [Nat.add_right_comm, execTimes]
    cases hs : exec i s <;> rw [hs] at h
    case next u => exact ih h
    all_goals cases h

theorem exec_readBit_of_running (heng : s.eng = .running .readBit) :
    exec .readBit s = .next (afterRead (readBit s) (complete 2 s) (fun b => complete (bitVal 32 b)) s) :=
  exec_of_running heng (readBitResume_eq s)

theorem exec_skipBits_of_running {n : BitVec 24} {k : Nat} (heng : s.eng = .running (.skipBits k)) :
    exec (.skipBits n) s =
      .next (afterRead (readBit s) (complete (BitVec.ofNat 32 k) s) (fun _ => skipLoop n (k + 1)) s) :=
  exec_of_running heng (skipResume_eq s n k)

theorem exec_flush_of_running (heng : s.eng = .running .flush) :
    exec .flush s = .next (afterPush (flushByte s) finish s) :=
  exec_of_running heng rfl

end

/-! ## When a primitive holds (R89) -/

section
variable {s : State}

theorem wouldHold_writeBit_iff : wouldHold .writeBit s = true ↔ s.accCnt = 7 ∧ s.outq.length = s.cfg.outDepth := by
  simp [wouldHold, State.outFull]

theorem wouldHold_flush_iff : wouldHold .flush s = true ↔ s.accCnt ≠ 0 ∧ s.outq.length = s.cfg.outDepth := by
  simp [wouldHold, State.outFull]

theorem wouldHold_readBit_iff : wouldHold .readBit s = true ↔ s.srCnt = 0 ∧ s.inq = [] ∧ s.eos = false := by
  simp [wouldHold, and_assoc]

theorem wouldHold_popByte_iff : wouldHold .popByte s = true ↔ s.inq = [] ∧ s.eos = false := by
  simp [wouldHold]

theorem wouldHold_emit_iff : wouldHold .emit s = true ↔ s.outq.length = s.cfg.outDepth := by
  simp [wouldHold, State.outFull]

end

/-- Settles O20: each primitive holds when `wouldHold` says so, `wouldHold` is the table, and O21 says what a command
does then. -/
theorem primitivesHoldExactlyByTheTable : Obligations.PrimitivesHoldExactlyByTheTable := by
  unfold Obligations.PrimitivesHoldExactlyByTheTable
  exact fun s =>
    ⟨fun _ => writeBit_eq_hold_iff.trans wouldHold_writeBit_iff, flushByte_eq_hold_iff.trans wouldHold_flush_iff,
      readBit_eq_hold_iff.trans wouldHold_readBit_iff, popByte_eq_hold_iff.trans wouldHold_popByte_iff,
      fun _ => emit_eq_hold_iff.trans wouldHold_emit_iff, wouldHold_writeBit_iff, wouldHold_flush_iff,
      wouldHold_readBit_iff, wouldHold_popByte_iff, wouldHold_emit_iff,
      fun i loc heng hcall => (runningCommandMovesUnlessItHolds s loc i heng hcall).1⟩

/-! ## FLUSH -/

/-- The unfilled bits of ACC are 0 (R42), so the whole byte is its filled bits and zeros. -/
theorem byteBits_acc_of_writerOk {s : State} (h : WriterOk s) :
    byteBits s.acc = (byteBits s.acc).take s.accCnt.toNat ++ List.replicate (8 - s.accCnt.toNat) false := by
  obtain ⟨hcnt, hzero⟩ := h
  have hrest : (byteBits s.acc).drop s.accCnt.toNat = List.replicate (8 - s.accCnt.toNat) false := by
    refine List.eq_replicate_iff.mpr ⟨by simp, fun b hb => ?_⟩
    obtain ⟨k, hk, rfl⟩ := List.mem_iff_getElem.mp hb
    rw [List.length_drop, byteBits_length] at hk
    simpa [byteBits] using hzero (7 - (s.accCnt.toNat + k)) (by omega)
  rw [← hrest, List.take_append_drop]

section
variable {s : State}

theorem flushByte_of_empty (h0 : s.accCnt = 0) : flushByte s = .done s := if_pos h0

theorem flushByte_of_full (h0 : s.accCnt ≠ 0) (hfull : s.outq.length = s.cfg.outDepth) : flushByte s = .hold :=
  flushByte_eq_hold_iff.mpr (wouldHold_flush_iff.mpr ⟨h0, hfull⟩)

theorem flushByte_of_room (h0 : s.accCnt ≠ 0) (hroom : s.outq.length ≠ s.cfg.outDepth) :
    flushByte s = .done { s with outq := s.outq ++ [s.acc], acc := 0, accCnt := 0 } :=
  (if_neg h0).trans (if_neg hroom)

end

/-- Settles O37: the three ends of Flush, and what the pushed byte is in the stream. -/
theorem flushPadsTheLastByteWithZeros : Obligations.FlushPadsTheLastByteWithZeros := by
  unfold Obligations.FlushPadsTheLastByteWithZeros
  refine ⟨rfl, fun s => ⟨exec_of_begins, fun heng h0 => ?_, fun heng h0 hfull => ?_, fun heng h0 hroom => ⟨?_, ?_⟩⟩⟩
  · rw [exec_flush_of_running heng, flushByte_of_empty h0]; rfl
  · rw [exec_flush_of_running heng, flushByte_of_full h0 hfull]; rfl
  · rw [exec_flush_of_running heng, flushByte_of_room h0 hroom]; rfl
  · intro hw
    rw [List.flatMap_append, List.flatMap_singleton, byteBits_acc_of_writerOk hw, ← List.append_assoc, outStream]

/-! ## READ_BIT and SKIP_BITS -/

section
variable {s : State}

theorem readBit_of_unread (h0 : s.srCnt ≠ 0) :
    readBit s = .bit (s.sr.getLsbD 7) { s with sr := s.sr <<< 1, srCnt := s.srCnt - 1 } :=
  if_neg h0

theorem readBit_of_eos (h0 : s.srCnt = 0) (hq : s.inq = []) (he : s.eos = true) : readBit s = .eof :=
  readBit_eq_eof_iff.mpr ⟨(inStream_eq_nil_iff s).mpr ⟨h0, hq⟩, he⟩

theorem readBit_of_not_eos (h0 : s.srCnt = 0) (hq : s.inq = []) (he : s.eos = false) : readBit s = .hold :=
  readBit_eq_hold_iff.mpr (wouldHold_readBit_iff.mpr ⟨h0, hq, he⟩)

theorem skipLoop_of_lt {n : BitVec 24} {k : Nat} (h : k < n.toNat) : skipLoop n k s = goTo (.skipBits k) s :=
  if_pos h

theorem skipLoop_of_eq {n : BitVec 24} {k : Nat} (h : k = n.toNat) : skipLoop n k s = complete (n.setWidth 32) s := by
  rw [skipLoop, if_neg (by omega), h, BitVec.ofNat_toNat]

end

/-- Settles O38: the four ends of ReadBit. -/
theorem readBitReturnsTheNextBitOrTwo : Obligations.ReadBitReturnsTheNextBitOrTwo := by
  unfold Obligations.ReadBitReturnsTheNextBitOrTwo
  refine ⟨rfl, fun s => ⟨exec_of_begins, fun heng h0 => ?_, fun v rest heng h0 hq => ?_, fun heng h0 hq he => ?_,
    fun heng h0 hq he => ?_⟩⟩ <;> rw [exec_readBit_of_running heng]
  · rw [readBit_of_unread h0]; rfl
  · rw [readBit_of_refill hq h0]; rfl
  · rw [readBit_of_eos h0 hq he]; rfl
  · rw [readBit_of_not_eos h0 hq he]; rfl

/-- Settles O40: the four ends of ReadBit, and after a bit the two branches of the loop head. -/
theorem skipBitsCountsEachBit : Obligations.SkipBitsCountsEachBit := by
  unfold Obligations.SkipBitsCountsEachBit
  intro n k s heng _
  refine ⟨fun h0 hlt => ?_, fun h0 hlast => ?_, fun v rest h0 hq hlt => ?_, fun v rest h0 hq hlast => ?_,
    fun h0 hq he => ?_, fun h0 hq he => ?_⟩ <;> rw [exec_skipBits_of_running heng]
  · rw [readBit_of_unread h0, afterRead, skipLoop_of_lt hlt]; rfl
  · rw [readBit_of_unread h0, afterRead, skipLoop_of_eq hlast]; rfl
  · rw [readBit_of_refill hq h0, afterRead, skipLoop_of_lt hlt]; rfl
  · rw [readBit_of_refill hq h0, afterRead, skipLoop_of_eq hlast]; rfl
  · rw [readBit_of_eos h0 hq he]; rfl
  · rw [readBit_of_not_eos h0 hq he]; rfl

/-! ## ALIGN_READ -/

/-- Settles O41: ALIGN_READ has no call, so its dispatch step is the whole command. -/
theorem alignReadEmptiesTheShiftRegister : Obligations.AlignReadEmptiesTheShiftRegister := by
  unfold Obligations.AlignReadEmptiesTheShiftRegister
  exact ⟨rfl, fun _ hbegins => exec_of_begins hbegins⟩

end Sys2Proof.Machine
end

section
/-! PROOFS. Several bits written or read in a row, as one move of the bit streams (R58, R90, R92): O36, O39. -/

namespace Sys2Proof.Machine

/-! ## Bits written -/

/-- From s to t the bits bs were appended to the output stream; apart from the writer and its FIFO only the engine
moved. -/
structure BitsWritten (bs : List Bool) (s t : State) : Prop where
  frame : t = { s with acc := t.acc, accCnt := t.accCnt, outq := t.outq, eng := t.eng }
  stream : outStream t = outStream s ++ bs
  writerOk : WriterOk t

/-- The output FIFO has room for the bytes that n more bits complete. -/
def HasRoom (n : Nat) (s : State) : Prop := (outStream s).length + n < 8 * s.cfg.outDepth + 8

theorem outStream_length {s : State} (h : WriterOk s) :
    (outStream s).length = 8 * s.outq.length + s.accCnt.toNat := by
  rw [outStream, List.length_append, flatMap_byteBits_length, List.length_take, byteBits_length, min_eq_left]
  exact h.1.trans (by decide)

theorem hasRoom_iff {n : Nat} {s : State} (h : WriterOk s) :
    HasRoom n s ↔ s.outq.length + (s.accCnt.toNat + n) / 8 ≤ s.cfg.outDepth := by
  rw [HasRoom, outStream_length h]
  omega

section
variable {as bs : List Bool} {b : Bool} {s t u : State}

theorem bitsWritten_nil (h : WriterOk s) (eng : Eng) : BitsWritten [] s { s with eng := eng } :=
  ⟨rfl, (List.append_nil _).symm, h⟩

theorem bitsWritten_of_writeBit (hs : WriterOk s) (h : writeBit b s = .done t) : BitsWritten [b] s t := by
  refine ⟨?_, outStream_of_writeBit hs h, writerOk_of_writeBit hs h⟩
  rw [frame_of_writeBit h]

theorem BitsWritten.trans (h : BitsWritten as s t) (h' : BitsWritten bs t u) : BitsWritten (as ++ bs) s u := by
  refine ⟨?_, by rw [h'.stream, h.stream, List.append_assoc], h'.writerOk⟩
  rw [h'.frame, h.frame]

theorem BitsWritten.hasRoom {n : Nat} (h : BitsWritten bs s t) (hroom : HasRoom (n + bs.length) s) : HasRoom n t := by
  have hcfg : t.cfg = s.cfg := by rw [h.frame]
  rw [HasRoom] at hroom
  rw [HasRoom, h.stream, List.length_append, hcfg]
  omega

/-- How many bytes the bits completed, and how many bits are left in ACC. -/
theorem BitsWritten.counts (hs : WriterOk s) (h : BitsWritten bs s t) :
    t.accCnt.toNat = (s.accCnt.toNat + bs.length) % 8 ∧
      t.outq.length = s.outq.length + (s.accCnt.toNat + bs.length) / 8 := by
  have hlen := congrArg List.length h.stream
  rw [List.length_append, outStream_length h.writerOk, outStream_length hs] at hlen
  have ht : t.accCnt.toNat ≤ 7 := h.writerOk.1
  omega

theorem exists_writeBit (b : Bool) (h : s.accCnt.toNat = 7 → s.outq.length < s.cfg.outDepth) :
    ∃ t, writeBit b s = .done t := by
  cases hw : writeBit b s with
  | done t => exact ⟨t, rfl⟩
  | hold =>
    obtain ⟨h7, hfull⟩ := wouldHold_writeBit_iff.mp (writeBit_eq_hold_iff.mp hw)
    exact absurd hfull (h (congrArg BitVec.toNat h7)).ne

theorem exists_writeBit_of_hasRoom {n : Nat} (b : Bool) (hs : WriterOk s) (hroom : HasRoom (n + 1) s) :
    ∃ t, writeBit b s = .done t := by
  refine exists_writeBit b fun h7 => ?_
  rw [hasRoom_iff hs] at hroom
  omega

end

/-! ## WRITE_BITS -/

theorem msbBits_succ (j : Nat) (v : BitVec 16) : msbBits (j + 1) v = v.getLsbD j :: msbBits j v := by
  have hidx : ∀ k ∈ List.range j, v.getLsbD (j + 1 - 1 - (k + 1)) = v.getLsbD (j - 1 - k) := fun k _ => by
    rw [show j + 1 - 1 - (k + 1) = j - 1 - k by omega]
  rw [msbBits, List.range_succ_eq_map, List.map_cons, List.map_map, msbBits, ← List.map_congr_left hidx]
  rfl

theorem msbBits_length (j : Nat) (v : BitVec 16) : (msbBits j v).length = j := by
  simp [msbBits]

theorem exec_writeBits_of_done {nb : BitVec 5} {v : BitVec 16} {j : Nat} {s t : State}
    (heng : s.eng = .running (.writeBits j)) (h : writeBit (v.getLsbD j) s = .done t) :
    exec (.writeBits nb v) s = .next (writeBitsLoop j t) :=
  exec_of_running heng (by rw [commandResume, writeBitsResume, h, afterPush])

/-- With j bits still to be written, j engine steps from the loop head write them and end the command. -/
theorem execTimes_writeBitsLoop (nb : BitVec 5) (v : BitVec 16) (j : Nat) {s : State} (hs : WriterOk s)
    (hroom : HasRoom j s) :
    ∃ t, execTimes j (.writeBits nb v) (writeBitsLoop j s) = .next t ∧ BitsWritten (msbBits j v) s t ∧
      t.eng = .idle := by
  induction j generalizing s with
  | zero => exact ⟨finish s, rfl, bitsWritten_nil hs _, rfl⟩
  | succ j ih =>
    have hgo := bitsWritten_nil hs (.running (.writeBits j))
    obtain ⟨u, hu⟩ := exists_writeBit_of_hasRoom (v.getLsbD j) hgo.writerOk (hgo.hasRoom hroom)
    have hbit := bitsWritten_of_writeBit hgo.writerOk hu
    obtain ⟨t, ht, hbits, hidle⟩ := ih hbit.writerOk (hbit.hasRoom (hgo.hasRoom hroom))
    refine ⟨t, ?_, ?_, hidle⟩
    · rw [← ht]
      exact execTimes_succ_of_exec j (exec_writeBits_of_done rfl hu)
    · rw [msbBits_succ]
      exact hgo.trans (hbit.trans hbits)

/-- Settles O36: the loop head at dispatch, the last WriteBit with and without a full byte, and the whole loop. -/
theorem writeBitsWritesItsBitsMsbFirst : Obligations.WriteBitsWritesItsBitsMsbFirst := by
  unfold Obligations.WriteBitsWritesItsBitsMsbFirst
  intro nb v s hwf hs
  refine ⟨fun hbegins => ?_, fun heng hlt => ?_, fun heng h7 hroom => ?_, fun hbegins hroom => ?_⟩
  · have hnb : nb.toNat = nb.toNat - 1 + 1 := by
      simp only [Instr.wf, writeBitsOk, Bool.and_eq_true, decide_eq_true_eq] at hwf
      omega
    rw [exec_of_begins hbegins, commandBody, hnb]
    rfl
  · obtain ⟨t, ht⟩ := exists_writeBit (s := s) (v.getLsbD 0) (by omega)
    refine ⟨finish t, exec_writeBits_of_done heng ht, ?_, (bitsWritten_of_writeBit hs ht).stream⟩
    rcases writeBit_done ht with ⟨h7, -⟩ | ⟨-, rfl⟩
    · simp [h7] at hlt
    · rfl
  · obtain ⟨t, ht⟩ := exists_writeBit (s := s) (v.getLsbD 0) fun _ => hroom
    refine ⟨finish t, exec_writeBits_of_done heng ht, ?_, (bitsWritten_of_writeBit hs ht).stream⟩
    rcases writeBit_done ht with ⟨-, rfl⟩ | ⟨hne, -⟩
    · rfl
    · exact absurd (BitVec.eq_of_toNat_eq h7) hne
  · obtain ⟨t, ht, hbits, hidle⟩ := execTimes_writeBitsLoop nb v nb.toNat hs ((hasRoom_iff hs).mpr hroom)
    obtain ⟨hcnt, hlen⟩ := hbits.counts hs
    rw [msbBits_length] at hcnt hlen
    refine ⟨t, ?_, ?_, hbits.stream, hcnt, hlen⟩
    · rw [Nat.add_comm, execTimes_succ_of_exec _ (exec_of_begins hbegins), ← ht, commandBody]
    · rw [← hidle]; exact hbits.frame

/-! ## Bits read -/

/-- From s to t the bits bs were taken from the front of the input stream; apart from the reader and its FIFO only the
engine moved. -/
structure BitsRead (bs : List Bool) (s t : State) : Prop where
  frame : t = { s with sr := t.sr, srCnt := t.srCnt, inq := t.inq, eng := t.eng }
  stream : inStream s = bs ++ inStream t
  readerOk : ReaderOk t

section
variable {as bs : List Bool} {b : Bool} {s t u : State}

theorem bitsRead_nil (h : ReaderOk s) (eng : Eng) : BitsRead [] s { s with eng := eng } :=
  ⟨rfl, rfl, h⟩

theorem bitsRead_of_readBit (hs : ReaderOk s) (h : readBit s = .bit b t) : BitsRead [b] s t := by
  refine ⟨?_, inStream_of_readBit hs h, readerOk_of_readBit hs h⟩
  rw [frame_of_readBit h]

theorem BitsRead.trans (h : BitsRead as s t) (h' : BitsRead bs t u) : BitsRead (as ++ bs) s u := by
  refine ⟨?_, by rw [h.stream, h'.stream, List.append_assoc], h'.readerOk⟩
  rw [h'.frame, h.frame]

theorem BitsRead.inStream_eq_drop (h : BitsRead bs s t) : inStream t = (inStream s).drop bs.length := by
  rw [h.stream, List.drop_left]

theorem BitsRead.inStream_length (h : BitsRead bs s t) :
    (inStream s).length = bs.length + (inStream t).length := by
  rw [h.stream, List.length_append]

/-- What a command that ends after these reads leaves. -/
theorem BitsRead.complete_frame (h : BitsRead bs s t) (r : Word) :
    complete r t = { s with sr := t.sr, srCnt := t.srCnt, inq := t.inq, result := r, eng := .idle } := by
  rw [h.frame]; rfl

theorem exists_readBit_of_inStream_ne_nil (h : inStream s ≠ []) : ∃ b t, readBit s = .bit b t := by
  rw [ne_eq, inStream_eq_nil_iff] at h
  rcases readBit_cases s with ⟨-, hr⟩ | ⟨-, v, rest, -, hr⟩ | ⟨h0, hq, -⟩ | ⟨h0, hq, -⟩
  · exact ⟨_, _, hr⟩
  · exact ⟨_, _, hr⟩
  · exact absurd ⟨h0, hq⟩ h
  · exact absurd ⟨h0, hq⟩ h

end

/-! ## SKIP_BITS -/

theorem exec_skipBits_of_bit {n : BitVec 24} {k : Nat} {b : Bool} {s t : State}
    (heng : s.eng = .running (.skipBits k)) (h : readBit s = .bit b t) :
    exec (.skipBits n) s = .next (skipLoop n (k + 1) t) := by
  rw [exec_skipBits_of_running heng, h, afterRead]

/-- While there are bits to skip, m engine steps from one loop head skip m of them and reach the loop head m further
on. -/
theorem execTimes_skipLoop (n : BitVec 24) (m : Nat) {k : Nat} {s : State} (hs : ReaderOk s) (hk : k + m ≤ n.toNat)
    (hm : m ≤ (inStream s).length) :
    ∃ bs t, bs.length = m ∧ BitsRead bs s t ∧
      execTimes m (.skipBits n) (skipLoop n k s) = .next (skipLoop n (k + m) t) := by
  induction m generalizing k s with
  | zero => exact ⟨[], s, rfl, bitsRead_nil hs s.eng, rfl⟩
  | succ m ih =>
    have hgo := bitsRead_nil hs (.running (.skipBits k))
    have hne : inStream s ≠ [] := List.ne_nil_of_length_pos (by omega)
    obtain ⟨b, u, hu⟩ := exists_readBit_of_inStream_ne_nil (s := goTo (.skipBits k) s) hne
    have hbit := hgo.trans (bitsRead_of_readBit hgo.readerOk hu)
    have hlen : (inStream s).length = 1 + (inStream u).length := hbit.inStream_length
    obtain ⟨bs, t, hbs, hbits, ht⟩ := ih (k := k + 1) hbit.readerOk (by omega) (by omega)
    refine ⟨b :: bs, t, by rw [List.length_cons, hbs], hbit.trans hbits, ?_⟩
    rw [skipLoop_of_lt (by omega), execTimes_succ_of_exec m (exec_skipBits_of_bit rfl hu), ht, Nat.add_right_comm k,
      Nat.add_assoc k]

/-- Settles O39: the loop head at dispatch, and the loop to its end or to the end of the stream. -/
theorem skipBitsDropsItsBits : Obligations.SkipBitsDropsItsBits := by
  unfold Obligations.SkipBitsDropsItsBits
  intro n s hs hbegins
  have hdispatch : exec (.skipBits n) s = .next (skipLoop n 0 s) := exec_of_begins hbegins
  refine ⟨fun h0 => ?_, fun h0 => ?_, fun hle => ?_, fun hlt heos => ?_⟩
  · rw [hdispatch, skipLoop_of_eq (by simp [h0]), h0]; rfl
  · rw [hdispatch, skipLoop_of_lt (Nat.pos_of_ne_zero fun h => h0 (BitVec.eq_of_toNat_eq h))]; rfl
  · obtain ⟨bs, t, hbs, hbits, ht⟩ := execTimes_skipLoop n n.toNat (k := 0) hs (by omega) hle
    refine ⟨complete (BitVec.ofNat 32 n.toNat) t, ?_, hbits.complete_frame _, hbs ▸ hbits.inStream_eq_drop⟩
    rw [Nat.add_comm, execTimes_succ_of_exec _ hdispatch, ht, skipLoop_of_eq (Nat.zero_add _), BitVec.ofNat_toNat]
  · obtain ⟨bs, t, hbs, hbits, ht⟩ := execTimes_skipLoop n (inStream s).length (k := 0) hs (by omega) le_rfl
    have hempty : inStream t = [] := by rw [hbits.inStream_eq_drop, hbs, List.drop_length]
    have hteos : t.eos = true := by rw [hbits.frame]; exact heos
    refine ⟨complete (BitVec.ofNat 32 (inStream s).length) t, ?_, hbits.complete_frame _, hempty⟩
    have heof : readBit (goTo (.skipBits (inStream s).length) t) = .eof := readBit_eq_eof_iff.mpr ⟨hempty, hteos⟩
    rw [show 2 + (inStream s).length = (inStream s).length + 1 + 1 by omega, execTimes_succ_of_exec _ hdispatch,
      execTimes_add_of_execTimes 1 ht, Nat.zero_add, skipLoop_of_lt hlt,
      execTimes_succ_of_exec 0 (exec_skipBits_of_running rfl), heof]
    rfl

end Sys2Proof.Machine
end

section
/-! PROOFS. What the commands that write bits and those that read bits leave unchanged (R95): O57, O58. -/

namespace Sys2Proof.Machine

/-! ## What the engine moves -/

/-- Only where the engine stands and ERR changed. -/
def EngineMove (s t : State) : Prop := t = { s with eng := t.eng, err := t.err }

section
variable (s : State)

theorem engineMove_self : EngineMove s s := rfl
theorem engineMove_finish : EngineMove s (finish s) := rfl
theorem engineMove_goTo (loc : Loc) : EngineMove s (goTo loc s) := rfl

theorem engineMove_raise (c : ErrCode) : EngineMove s (raise c s) := by
  unfold raise setErr; split <;> rfl

theorem engineMove_writeBitsLoop (j : Nat) : EngineMove s (writeBitsLoop j s) := by
  cases j <;> rfl

theorem engineMove_encodeSymLoop (sym : Byte) (j : Nat) : EngineMove s (encodeSymLoop sym j s) := by
  unfold encodeSymLoop; split <;> rfl

theorem engineMove_encodeSymBody (sym : Byte) : EngineMove s (encodeSymBody sym s) := by
  unfold encodeSymBody
  split
  · exact engineMove_encodeSymLoop s sym 0
  · exact engineMove_raise s _

theorem engineMove_streamLoop (cnt : Word) (v : Byte) (j : Nat) : EngineMove s (streamLoop cnt v j s) := by
  unfold streamLoop; split <;> rfl

theorem engineMove_streamByte (cnt : Word) (v : Byte) : EngineMove s (streamByte cnt v s) := by
  unfold streamByte
  split
  · exact engineMove_streamLoop s cnt v 0
  · exact engineMove_raise s _

end

/-- A relation of the states before and after a step of a command holds if it holds of the steps that only move the
engine, of the command's pseudocode up to its first call, and of each step at a call. -/
theorem rel_of_exec {P : State → State → Prop} {i : Instr} {s t : State} (h : exec i s = .next t)
    (hmove : ∀ {u}, EngineMove s u → P s u) (hbody : P s (commandBody i s))
    (hcall : ∀ {loc u}, CallStep i loc s u → P s u) : P s t := by
  rcases exec_next h with ⟨rfl, -⟩ | rfl | ⟨rfl, -, -⟩ | ⟨loc, -, hres⟩
  · exact hmove (engineMove_finish s)
  · exact hmove (engineMove_raise s _)
  · exact hbody
  · exact hcall (callStep_of_commandResume hres)

/-! ## The commands that write bits -/

/-- Only the bit writer, the output FIFO, ENG and ERR changed, and the FIFO only grew at its end. -/
structure WriterFrame (s t : State) : Prop where
  frame : t = { s with acc := t.acc, accCnt := t.accCnt, outq := t.outq, eng := t.eng, err := t.err }
  outq : s.outq <+: t.outq

/-- As `WriterFrame`, but RESULT may have changed too and the input FIFO may have lost bytes from its front. -/
structure StreamFrame (s t : State) : Prop where
  frame : t = { s with
    acc := t.acc, accCnt := t.accCnt, outq := t.outq, inq := t.inq, result := t.result, eng := t.eng, err := t.err }
  outq : s.outq <+: t.outq
  inq : t.inq <:+ s.inq

section
variable {s t u : State} {b : Bool} {v : Byte}

theorem EngineMove.writerFrame (h : EngineMove s t) : WriterFrame s t := by
  rw [EngineMove] at h; rw [h]; exact ⟨rfl, List.prefix_rfl⟩

theorem WriterFrame.trans (h : WriterFrame s t) (h' : WriterFrame t u) : WriterFrame s u :=
  ⟨by rw [h'.frame, h.frame], h.outq.trans h'.outq⟩

theorem WriterFrame.streamFrame (h : WriterFrame s t) : StreamFrame s t := by
  have hin : t.inq = s.inq := by rw [h.frame]
  exact ⟨by rw [h.frame], h.outq, hin ▸ List.suffix_rfl⟩

theorem EngineMove.streamFrame (h : EngineMove s t) : StreamFrame s t := h.writerFrame.streamFrame

theorem StreamFrame.trans (h : StreamFrame s t) (h' : StreamFrame t u) : StreamFrame s u :=
  ⟨by rw [h'.frame, h.frame], h.outq.trans h'.outq, h'.inq.trans h.inq⟩

theorem writerFrame_of_writeBit (h : writeBit b s = .done t) : WriterFrame s t := by
  rcases writeBit_done h with ⟨-, rfl⟩ | ⟨-, rfl⟩
  · exact ⟨rfl, List.prefix_append _ _⟩
  · exact ⟨rfl, List.prefix_rfl⟩

theorem writerFrame_of_flushByte (h : flushByte s = .done t) : WriterFrame s t := by
  rcases flushByte_cases s with ⟨-, hf⟩ | ⟨-, -, hf⟩ | ⟨-, -, hf⟩ <;> rw [hf] at h <;> cases h
  · exact ⟨rfl, List.prefix_rfl⟩
  · exact ⟨rfl, List.prefix_append _ _⟩

theorem streamFrame_of_popByte (h : popByte s = .byte v t) : StreamFrame s t := by
  rcases popByte_cases s with ⟨v', rest, hq, hp⟩ | ⟨-, -, hp⟩ | ⟨-, -, hp⟩ <;> rw [hp] at h <;> cases h
  exact ⟨rfl, List.prefix_rfl, hq ▸ List.suffix_cons v rest⟩

theorem streamFrame_complete (s : State) (r : Word) : StreamFrame s (complete r s) :=
  ⟨rfl, List.prefix_rfl, List.suffix_rfl⟩

theorem exec_writeBits_writerFrame {nb : BitVec 5} {v : BitVec 16} (h : exec (.writeBits nb v) s = .next t) :
    WriterFrame s t := by
  refine rel_of_exec h EngineMove.writerFrame (engineMove_writeBitsLoop s _).writerFrame fun hc => ?_
  cases hc with
  | held => exact (engineMove_self s).writerFrame
  | writeBits h => exact (writerFrame_of_writeBit h).trans (engineMove_writeBitsLoop _ _).writerFrame

theorem exec_flush_writerFrame (h : exec .flush s = .next t) : WriterFrame s t := by
  refine rel_of_exec h EngineMove.writerFrame (engineMove_goTo s _).writerFrame fun hc => ?_
  cases hc with
  | held => exact (engineMove_self s).writerFrame
  | flush h => exact (writerFrame_of_flushByte h).trans (engineMove_finish _).writerFrame

theorem exec_encodeSym_writerFrame {sym : Byte} (h : exec (.encodeSym sym) s = .next t) : WriterFrame s t := by
  refine rel_of_exec h EngineMove.writerFrame (engineMove_encodeSymBody s _).writerFrame fun hc => ?_
  cases hc with
  | held => exact (engineMove_self s).writerFrame
  | encodeSym h => exact (writerFrame_of_writeBit h).trans (engineMove_encodeSymLoop _ _ _).writerFrame

theorem exec_encodeStream_streamFrame (h : exec .encodeStream s = .next t) : StreamFrame s t := by
  refine rel_of_exec h EngineMove.streamFrame (engineMove_goTo s _).streamFrame fun hc => ?_
  cases hc with
  | held => exact (engineMove_self s).streamFrame
  | streamEnd => exact streamFrame_complete s _
  | streamByte h => exact (streamFrame_of_popByte h).trans (engineMove_streamByte _ _ _).streamFrame
  | streamWrite h =>
    exact (writerFrame_of_writeBit h).streamFrame.trans (engineMove_streamLoop _ _ _ _).streamFrame

end

/-- Settles O57, command by command: each step is a primitive of the writer, or PopByte, and a move of the engine. -/
theorem writerCommandsFrame : Obligations.WriterCommandsFrame := by
  unfold Obligations.WriterCommandsFrame
  intro nb v sym s t
  refine ⟨fun i hi h => ?_, fun h => ?_⟩
  · suffices hw : WriterFrame s t from ⟨hw.frame, hw.outq⟩
    simp only [List.mem_cons, List.not_mem_nil, or_false] at hi
    rcases hi with rfl | rfl | rfl
    · exact exec_writeBits_writerFrame h
    · exact exec_flush_writerFrame h
    · exact exec_encodeSym_writerFrame h
  · have hs := exec_encodeStream_streamFrame h
    exact ⟨hs.frame, hs.outq, hs.inq⟩

/-! ## The commands that read bits -/

/-- Only the bit reader, the input FIFO, RESULT, ENG and ERR changed, and the FIFO only lost bytes from its front. -/
structure ReaderFrame (s t : State) : Prop where
  frame : t = { s with
    sr := t.sr, srCnt := t.srCnt, inq := t.inq, result := t.result, eng := t.eng, err := t.err }
  inq : t.inq <:+ s.inq

/-- As `ReaderFrame`, but the decoder's registers may have changed too and the output FIFO may have grown at its end. -/
structure DecoderFrame (s t : State) : Prop where
  frame : t = { s with
    sr := t.sr, srCnt := t.srCnt, inq := t.inq, outq := t.outq, decRemain := t.decRemain, decCur := t.decCur,
    result := t.result, eng := t.eng, err := t.err }
  inq : t.inq <:+ s.inq
  outq : s.outq <+: t.outq

section
variable {s t u : State} {b : Bool} {v : Byte}

theorem EngineMove.readerFrame (h : EngineMove s t) : ReaderFrame s t := by
  rw [EngineMove] at h; rw [h]; exact ⟨rfl, List.suffix_rfl⟩

theorem ReaderFrame.trans (h : ReaderFrame s t) (h' : ReaderFrame t u) : ReaderFrame s u :=
  ⟨by rw [h'.frame, h.frame], h'.inq.trans h.inq⟩

theorem ReaderFrame.decoderFrame (h : ReaderFrame s t) : DecoderFrame s t := by
  have hout : t.outq = s.outq := by rw [h.frame]
  exact ⟨by rw [h.frame], h.inq, hout ▸ List.prefix_rfl⟩

theorem ControlOnly.decoderFrame (h : ControlOnly s t) : DecoderFrame s t := by
  rw [ControlOnly] at h; rw [h]; exact ⟨rfl, List.suffix_rfl, List.prefix_rfl⟩

theorem DecoderFrame.trans (h : DecoderFrame s t) (h' : DecoderFrame t u) : DecoderFrame s u :=
  ⟨by rw [h'.frame, h.frame], h'.inq.trans h.inq, h.outq.trans h'.outq⟩

theorem readerFrame_of_readBit (h : readBit s = .bit b t) : ReaderFrame s t := by
  rcases readBit_bit h with ⟨-, -, rfl⟩ | ⟨-, v, rest, hq, -, rfl⟩
  · exact ⟨rfl, List.suffix_rfl⟩
  · exact ⟨rfl, hq ▸ List.suffix_cons v rest⟩

theorem decoderFrame_of_emit (h : emit v s = .done t) : DecoderFrame s t := by
  rcases emit_cases v s with ⟨-, he⟩ | ⟨-, he⟩ <;> rw [he] at h <;> cases h
  exact ⟨rfl, List.suffix_rfl, List.prefix_append _ _⟩

theorem readerFrame_complete (s : State) (r : Word) : ReaderFrame s (complete r s) := ⟨rfl, List.suffix_rfl⟩

theorem readerFrame_skipLoop (s : State) (n : BitVec 24) (k : Nat) : ReaderFrame s (skipLoop n k s) := by
  unfold skipLoop
  split
  · exact (engineMove_goTo s _).readerFrame
  · exact readerFrame_complete s _

theorem exec_readBit_readerFrame (h : exec .readBit s = .next t) : ReaderFrame s t := by
  refine rel_of_exec h EngineMove.readerFrame (engineMove_goTo s _).readerFrame fun hc => ?_
  cases hc with
  | held => exact (engineMove_self s).readerFrame
  | readEof => exact readerFrame_complete s _
  | readBit h => exact (readerFrame_of_readBit h).trans (readerFrame_complete _ _)

theorem exec_skipBits_readerFrame {n : BitVec 24} (h : exec (.skipBits n) s = .next t) : ReaderFrame s t := by
  refine rel_of_exec h EngineMove.readerFrame (readerFrame_skipLoop s n 0) fun hc => ?_
  cases hc with
  | held => exact (engineMove_self s).readerFrame
  | skipEof => exact readerFrame_complete s _
  | skipBit h => exact (readerFrame_of_readBit h).trans (readerFrame_skipLoop _ _ _)

theorem exec_decode_decoderFrame (h : exec .decode s = .next t) : DecoderFrame s t := by
  refine rel_of_exec h (fun hm => hm.readerFrame.decoderFrame) (controlOnly_decodeBody s).decoderFrame fun hc => ?_
  cases hc with
  | held => exact (engineMove_self s).readerFrame.decoderFrame
  | decodeEmitRoot h => exact (decoderFrame_of_emit h).trans (controlOnly_decodeRootLoop _ _ _ _).decoderFrame
  | decodeEof => exact (controlOnly_raise s _).decoderFrame
  | decodeBit h => exact (readerFrame_of_readBit h).decoderFrame.trans (controlOnly_decodeMove _ _ _).decoderFrame
  | decodeEmit h => exact (decoderFrame_of_emit h).trans (controlOnly_decodeLoop _ _ _ _).decoderFrame

end

/-- Settles O58, command by command: each step is a ReadBit, or an Emit of DECODE, and a move of the engine. -/
theorem readerCommandsFrame : Obligations.ReaderCommandsFrame := by
  unfold Obligations.ReaderCommandsFrame
  intro n s t
  refine ⟨fun i hi h => ?_, fun h => ?_⟩
  · suffices hr : ReaderFrame s t from ⟨hr.frame, hr.inq⟩
    simp only [List.mem_cons, List.not_mem_nil, or_false] at hi
    rcases hi with rfl | rfl
    · exact exec_readBit_readerFrame h
    · exact exec_skipBits_readerFrame h
  · have hd := exec_decode_decoderFrame h
    exact ⟨hd.frame, hd.inq, hd.outq⟩

end Sys2Proof.Machine
end

section
/-! PROOFS. The merge of R102 in more detail: each round takes the two nodes of least key among those not yet merged
(R103), the records alone decide the result (R104), and the loop ends at 2N − 2 whatever the counts are; O29, O30, O26
from these. -/

namespace Sys2Proof.Machine

/-! ## The two least keys -/

/-- Of the entries in U, a has the least key and b the least among the others (R103). -/
structure TwoLeast (nodes : Vector Node 511) (U : Nat → Prop) (a b : Nat) : Prop where
  mem_left : U a
  mem_right : U b
  ne : a ≠ b
  left_lt : ∀ j, U j → j ≠ a → nodeKey nodes a < nodeKey nodes j
  right_lt : ∀ j, U j → j ≠ a → j ≠ b → nodeKey nodes b < nodeKey nodes j

/-- A round of the loop with two or more elements in H merges the two with the least keys. -/
theorem exists_mergeLoop_succ_twoLeast (nodes : Vector Node 511) {heap : List Nat} (h : 2 ≤ heap.length)
    (hnd : heap.Nodup) :
    ∃ a b rest, heap.Perm (a :: b :: rest) ∧ TwoLeast nodes (· ∈ heap) a b ∧ ∀ fuel next,
      mergeLoop (fuel + 1) heap next nodes =
        mergeLoop fuel (rest ++ [next]) (next + 1) (writeNode nodes next (mergedNode nodes a b)) := by
  obtain ⟨a, heapA, ha⟩ := exists_extractMin_eq_some nodes (heap := heap) (by rintro rfl; simp at h)
  have hpa := extractMin_perm ha
  have hlen := hpa.length_eq
  obtain ⟨b, rest, hb⟩ := exists_extractMin_eq_some nodes (heap := heapA) (by rintro rfl; simp at hlen; omega)
  have hp := hpa.trans ((extractMin_perm hb).cons a)
  have hbmem : b ∈ heapA := (extractMin_spec hb).1
  have hab : a ≠ b := fun he => (List.nodup_cons.mp (hpa.nodup_iff.mp hnd)).1 (he ▸ hbmem)
  refine ⟨a, b, rest, hp, ?_, fun fuel next => by simp [mergeLoop, ha, hb]⟩
  exact {
    mem_left := (extractMin_spec ha).1
    mem_right := hpa.mem_iff.mpr (List.mem_cons_of_mem a hbmem)
    ne := hab
    left_lt := fun j hj => extractMin_nodeKey_lt ha hj
    right_lt := fun j hj hja => extractMin_nodeKey_lt hb (List.mem_of_ne_of_mem hja (hpa.mem_iff.mp hj)) }

/-! ## The nodes not yet merged -/

/-- Entry j stands below entry i and has no parent below it: it is not yet merged when entry i is made. -/
def Unmerged (nodes : Vector Node 511) (n i j : Nat) : Prop :=
  j < i ∧ ∀ k < i, ¬ IsParent nodes n j k

/-- Entry i has as LEFT and RIGHT the two least of the entries not yet merged when it is made. -/
def MergesTwoLeast (nodes : Vector Node 511) (n i : Nat) : Prop :=
  TwoLeast nodes (Unmerged nodes n i) (readNode nodes i).left.toNat (readNode nodes i).right.toNat

section
variable {nodes nodes' : Vector Node 511} {n i : Nat}

theorem nodeKey_congr {j : Nat} (h : readNode nodes' j = readNode nodes j) : nodeKey nodes' j = nodeKey nodes j := by
  rw [nodeKey, h, nodeKey]

theorem TwoLeast.congr {U : Nat → Prop} {a b : Nat} (ht : TwoLeast nodes U a b)
    (h : ∀ j, U j → readNode nodes' j = readNode nodes j) : TwoLeast nodes' U a b where
  mem_left := ht.mem_left
  mem_right := ht.mem_right
  ne := ht.ne
  left_lt j hj hja := by
    rw [nodeKey_congr (h a ht.mem_left), nodeKey_congr (h j hj)]; exact ht.left_lt j hj hja
  right_lt j hj hja hjb := by
    rw [nodeKey_congr (h b ht.mem_right), nodeKey_congr (h j hj)]; exact ht.right_lt j hj hja hjb

theorem unmerged_iff {j : Nat} : Unmerged nodes n i j ↔ j < i ∧ ∀ k, n ≤ k → k < i →
    (readNode nodes k).left.toNat ≠ j ∧ (readNode nodes k).right.toNat ≠ j :=
  and_congr_right fun _ => forall_congr' fun k => by rw [IsParent, not_and, not_or, imp.swap]

theorem unmerged_congr (h : ∀ k < i, readNode nodes' k = readNode nodes k) :
    Unmerged nodes' n i = Unmerged nodes n i :=
  funext fun j => propext (and_congr_right fun _ => forall₂_congr fun k hk => by rw [IsParent, h k hk, IsParent])

theorem MergesTwoLeast.congr (hm : MergesTwoLeast nodes n i) (h : ∀ k ≤ i, readNode nodes' k = readNode nodes k) :
    MergesTwoLeast nodes' n i := by
  rw [MergesTwoLeast, unmerged_congr fun k hk => h k hk.le, h i le_rfl]
  exact TwoLeast.congr hm fun j hj => h j hj.1.le

end

section
variable {n total next : Nat} {heap : List Nat} {nodes : Vector Node 511}

/-- The roots of the forest are the entries not yet merged. -/
theorem MergeForest.unmerged_eq (h : MergeForest n total heap next nodes) :
    Unmerged nodes n next = (· ∈ heap) := by
  funext j
  refine propext ⟨fun ⟨hj, hnone⟩ => ?_, fun hj => ⟨h.lt_next j hj, h.root_no_parent j hj⟩⟩
  by_contra hnot
  obtain ⟨i, hi, hp, -⟩ := h.one_parent j hj hnot
  exact hnone i hi hp

/-- The entry a merge of the two least roots makes. -/
theorem MergeForest.mergesTwoLeast_merged (h : MergeForest n total heap next nodes) {a b : Nat}
    (hnext : next < 511) (ht : TwoLeast nodes (· ∈ heap) a b) :
    MergesTwoLeast (writeNode nodes next (mergedNode nodes a b)) n next := by
  have hold : ∀ k < next, readNode (writeNode nodes next (mergedNode nodes a b)) k = readNode nodes k := fun k hk =>
    readNode_writeNode_other _ _ hk.ne'
  have ha := h.lt_next a ht.mem_left
  have hb := h.lt_next b ht.mem_right
  rw [MergesTwoLeast, unmerged_congr hold, h.unmerged_eq, readNode_writeNode_same _ _ hnext,
    mergedNode_left (by omega), mergedNode_right (by omega)]
  exact ht.congr fun j hj => hold j (h.lt_next j hj)

/-- Every entry the loop still makes merges the two least: the first one by its round, and no later round touches it. -/
theorem MergeForest.mergesTwoLeast_mergeLoop (hn : n ≤ 256) (htotal : total < 2 ^ 32) (fuel : Nat)
    (h : MergeForest n total heap next nodes) (hfuel : heap.length ≤ fuel + 1) :
    ∀ i, next ≤ i → i < 2 * n - 1 → MergesTwoLeast (mergeLoop fuel heap next nodes).2 n i := by
  intro i hi hlt
  induction fuel generalizing heap next nodes with
  | zero => have := h.size; omega
  | succ fuel ih =>
    have hsize := h.size
    obtain ⟨a, b, rest, hp, hleast, hloop⟩ := exists_mergeLoop_succ_twoLeast nodes (by omega) h.nodup
    have hlen := hp.length_eq
    simp only [List.length_cons] at hlen
    rw [hloop]
    rcases hi.eq_or_lt with rfl | hi
    · exact (h.mergesTwoLeast_merged (by omega) hleast).congr fun k hk => readNode_mergeLoop_of_lt _ _ _ _ (by omega)
    · exact ih ((h.perm hp).merge hn htotal) (by simp; omega) hi

end

/-! ## BUILD -/

theorem mergeAll_mergesTwoLeast {n : Nat} (nodes : Vector Node 511) (h1 : 1 ≤ n) (h256 : n ≤ 256)
    (ht : countSum nodes n < 2 ^ 32) : ∀ i, n ≤ i → i < 2 * n - 1 → MergesTwoLeast (mergeAll n nodes).2 n i :=
  (mergeForest_range h1 nodes).mergesTwoLeast_mergeLoop h256 ht n (by simp)

theorem one_le_nrec_of_loaded {s : State} (h : RecordOk s) (hp : s.phase = .loaded) : 1 ≤ s.nrec.toNat := by
  obtain ⟨-, hempty, -⟩ := h
  exact Nat.one_le_iff_ne_zero.mpr fun h0 => by simp [hempty.mpr h0] at hp

/-- BUILD in LOADED is its pseudocode, in the dispatch step. -/
theorem exec_build_of_loaded {s : State} (hs : s.eng = .pending) (herr : s.err = .ok) (hp : s.phase = .loaded) :
    exec .build s = .next (buildBody s) :=
  exec_of_begins ⟨hs, lockedOut_of_ok _ herr, phaseError_build_iff.mpr hp⟩

/-- Settles O29: the children of entry i are the two least of the entries not yet merged when it is made. -/
theorem buildMergesTheTwoLeastKeys : Obligations.BuildMergesTheTwoLeastKeys := by
  unfold Obligations.BuildMergesTheTwoLeastKeys
  intro s t hrec hs herr hp hexec i hni hi
  rw [exec_build_of_loaded hs herr hp] at hexec
  cases hexec
  have h1 := one_le_nrec_of_loaded hrec hp
  obtain ⟨hn, -, -, -, -, -, htotal⟩ := hrec
  obtain ⟨hleft, hright, hne, hleast, hnext⟩ : MergesTwoLeast (buildBody s).nodes s.nrec.toNat i :=
    mergeAll_mergesTwoLeast s.nodes h1 hn (htotal ▸ s.total.isLt) i hni (by omega)
  obtain ⟨hl, hlfree⟩ := unmerged_iff.mp hleft
  obtain ⟨hr, hrfree⟩ := unmerged_iff.mp hright
  refine ⟨⟨hl, hr, ne_of_apply_ne _ hne, fun k hk hki => ?_⟩, fun j hj hfree => ?_⟩
  · obtain ⟨hll, hrl⟩ := hlfree k hk hki
    obtain ⟨hlr, hrr⟩ := hrfree k hk hki
    exact ⟨ne_of_apply_ne _ hll, ne_of_apply_ne _ hrl, ne_of_apply_ne _ hlr, ne_of_apply_ne _ hrr⟩
  · simp only [keyBefore_iff_nodeKey_lt]
    have hjfree := unmerged_iff.mpr ⟨hj, hfree⟩
    exact ⟨hleast j hjfree, hnext j hjfree⟩

/-! ## BUILD and the record sequence -/

/-- GEN_CODES makes one table of two arenas that hold the same tree (R104, R107). -/
theorem SameVisible.codesOf_eq {s : State} {ns : Vector Node 511} (hv : SameVisible s (s.withTables ns s.codes))
    (hr : RecordOk s) (ht : TreeOk s) (hp : s.phase = .built ∨ s.phase = .coded) :
    codesOf ns s.rootIdx = codesOf s.nodes s.rootIdx := by
  obtain ⟨-, -, hcodes⟩ := genCodesBody_sameVisible hv hr ht hp
  exact hcodes rfl

/-- Settles O30: the merge of both states goes alike, and GEN_CODES reads the tree only. -/
theorem buildDependsOnTheRecordsAlone : Obligations.BuildDependsOnTheRecordsAlone := by
  unfold Obligations.BuildDependsOnTheRecordsAlone
  intro s s' t t' hrec _ hs hs' herr herr' hp hp' hn hnodes hexec hexec'
  rw [exec_build_of_loaded hs herr hp] at hexec
  rw [exec_build_of_loaded hs' herr' hp'] at hexec'
  cases hexec
  cases hexec'
  obtain ⟨hheap, hmerged⟩ := mergeAll_congr hrec.1 fun i hi => (hnodes i hi).symm
  have hroot : (buildBody s').rootIdx = (buildBody s).rootIdx := by simp [buildBody, ← hn, hheap]
  have hsame : ∀ i < 2 * s.nrec.toNat - 1, readNode (buildBody s').nodes i = readNode (buildBody s).nodes i := by
    simpa [buildBody, ← hn] using hmerged
  have hv : SameVisible (buildBody s) ((buildBody s).withTables (buildBody s').nodes (buildBody s).codes) :=
    ⟨rfl, hsame, fun _ => rfl⟩
  refine ⟨hroot.symm, fun i hi => (hsame i hi).symm, ?_⟩
  rw [hroot]
  exact (hv.codesOf_eq (recordOk_buildBody hrec hp) (treeOk_buildBody hrec hp) (.inl rfl)).symm

/-! ## Where the loop ends, whatever the counts are -/

theorem heap_eq_singleton {heap : List Nat} {r : Nat} (hr : r ∈ heap) (hlen : heap.length ≤ 1) : heap = [r] := by
  obtain ⟨x, rfl⟩ := List.length_eq_one_iff.mp (Nat.le_antisymm hlen (List.length_pos_of_mem hr))
  rw [List.mem_singleton.mp hr]

/-- The loop ends with one element, the entry made last, and writes no entry above it. -/
theorem mergeLoop_end (fuel : Nat) {heap : List Nat} {next : Nat} (nodes : Vector Node 511)
    (hnewest : next - 1 ∈ heap) (hfuel : heap.length ≤ fuel + 1) :
    (mergeLoop fuel heap next nodes).1 = [next + heap.length - 2] ∧
    ∀ i, next + heap.length - 1 ≤ i → readNode (mergeLoop fuel heap next nodes).2 i = readNode nodes i := by
  induction fuel generalizing heap next nodes with
  | zero =>
    obtain rfl := heap_eq_singleton hnewest hfuel
    exact ⟨rfl, fun _ _ => rfl⟩
  | succ fuel ih =>
    rcases Nat.lt_or_ge heap.length 2 with hlt | hge
    · obtain rfl := heap_eq_singleton hnewest (Nat.le_of_lt_succ hlt)
      rw [mergeLoop_singleton]
      exact ⟨rfl, fun _ _ => rfl⟩
    · obtain ⟨a, b, rest, hp, hloop⟩ := exists_mergeLoop_succ nodes hge
      have hlen : heap.length = rest.length + 2 := hp.length_eq
      obtain ⟨hroot, hframe⟩ := ih (heap := rest ++ [next]) (next := next + 1)
        (writeNode nodes next (mergedNode nodes a b)) (by simp) (by simp; omega)
      simp only [List.length_append, List.length_singleton] at hroot hframe
      rw [hloop nodes fun _ _ => rfl, hroot]
      refine ⟨by congr 1; omega, fun i hi => ?_⟩
      rw [hframe i (by omega), readNode_writeNode_other _ _ (by omega)]

theorem mergeAll_end {n : Nat} (nodes : Vector Node 511) (h1 : 1 ≤ n) :
    (mergeAll n nodes).1 = [2 * n - 2] ∧
    ∀ i, 2 * n - 1 ≤ i → readNode (mergeAll n nodes).2 i = readNode nodes i := by
  have hend := mergeLoop_end n (heap := List.range n) (next := n) nodes (List.mem_range.mpr (by omega)) (by simp)
  rwa [List.length_range, ← Nat.two_mul] at hend

/-- Settles O26: BUILD is its pseudocode, and the loop ends as `mergeAll_end` says. -/
theorem buildCompletesWithRootAtTwoNMinusTwo : Obligations.BuildCompletesWithRootAtTwoNMinusTwo := by
  unfold Obligations.BuildCompletesWithRootAtTwoNMinusTwo
  intro s hs herr hp h1 h256
  obtain ⟨hroot, hframe⟩ := mergeAll_end s.nodes h1
  refine ⟨buildBody s, exec_build_of_loaded hs herr hp, rfl, ?_, fun j hj => ?_⟩
  · have hidx : (buildBody s).rootIdx = BitVec.ofNat 9 (2 * s.nrec.toNat - 2) := by rw [buildBody, hroot]; rfl
    rw [hidx, BitVec.toNat_ofNat, Nat.mod_eq_of_lt (by omega)]
  · exact hj.elim (readNode_mergeAll_of_lt _ _) (hframe j)

end Sys2Proof.Machine
end

section
/-! PROOFS. LOAD_RECORD (R101) and QUERY_NODE (R106): their words (R70) and their ends; O25, O31. -/

namespace Sys2Proof.Machine

/-! ## Fields side by side as fields shifted into place -/

section
variable {n k m : Nat} (a : BitVec n) (x : BitVec m) (w : Nat)

theorem setWidth_zero_append : (0#k ++ x).setWidth w = x.setWidth w := by
  rw [BitVec.setWidth_append_eq_shiftLeft_setWidth_or, BitVec.setWidth_zero, BitVec.zero_shiftLeft, BitVec.zero_or]

theorem setWidth_append_zero_append :
    (a ++ 0#k ++ x).setWidth w = (a.setWidth w <<< (k + m)) ||| x.setWidth w := by
  rw [BitVec.setWidth_append_append_eq_shiftLeft_setWidth_or, BitVec.setWidth_zero, BitVec.zero_shiftLeft,
    BitVec.or_zero]

/-- A word of two fields with zeros between them (R70, R71). -/
theorem append_zero_append :
    a ++ (0#k ++ x) = (a.setWidth (n + (k + m)) <<< (k + m)) ||| x.setWidth (n + (k + m)) := by
  rw [← BitVec.setWidth_eq (a ++ (0#k ++ x)), BitVec.setWidth_append_eq_shiftLeft_setWidth_or, setWidth_zero_append]

end

theorem nodeInfo2Of_eq (e : Node) : nodeInfo2Of e = (e.right.setWidth 32 <<< 16) ||| e.left.setWidth 32 :=
  calc nodeInfo2Of e
    _ = ((0#7 ++ e.right ++ 0#7) ++ e.left).setWidth 32 := (BitVec.setWidth_eq _).symm
    _ = ((0#7 ++ e.right).setWidth 32 <<< 16) ||| e.left.setWidth 32 := setWidth_append_zero_append _ _ 32
    _ = _ := by rw [setWidth_zero_append]

theorem nodeInfo0Of_eq (e : Node) : nodeInfo0Of e = (1#32 <<< 31) ||| (e.sym.setWidth 32 <<< 8) |||
    (kindBit e.kind).setWidth 32 :=
  calc nodeInfo0Of e
    _ = (1#1 ++ 0#15 ++ e.sym ++ 0#7 ++ kindBit e.kind).setWidth 32 := (BitVec.setWidth_eq _).symm
    _ = ((1#1 ++ 0#15 ++ e.sym).setWidth 32 <<< 8) ||| (kindBit e.kind).setWidth 32 :=
      setWidth_append_zero_append _ _ 32
    _ = (((1#1).setWidth 32 <<< 23 ||| e.sym.setWidth 32) <<< 8) ||| (kindBit e.kind).setWidth 32 := by
      rw [setWidth_append_zero_append]
    _ = _ := by rw [BitVec.shiftLeft_or_distrib]; rfl

/-! ## LOAD_RECORD -/

section
variable {s : State} {sym : Byte}

theorem loadRecordBody_of_loaded (h : s.loaded.getLsbD sym.toNat = true) :
    loadRecordBody sym s = raise .dupSymbol s :=
  if_pos h

theorem loadRecordBody_of_overflow (hnew : s.loaded.getLsbD sym.toNat = false)
    (h : s.total.toNat + s.cmdArg.toNat > 2 ^ 32 - 1) : loadRecordBody sym s = raise .countOverflow s :=
  (if_neg (Bool.eq_false_iff.mp hnew)).trans (if_pos h)

theorem loadRecordBody_of_fits (hnew : s.loaded.getLsbD sym.toNat = false)
    (h : s.total.toNat + s.cmdArg.toNat ≤ 2 ^ 32 - 1) : loadRecordBody sym s = appendRecord sym s :=
  (if_neg (Bool.eq_false_iff.mp hnew)).trans (if_neg h.not_gt)

end

/-- Settles O25: the ends of the pseudocode in order, and the fields of the record it appends. -/
theorem loadRecordAppendsOneRecord : Obligations.LoadRecordAppendsOneRecord := by
  unfold Obligations.LoadRecordAppendsOneRecord
  refine ⟨append_zero_append 0x10#8, fun sym s hs herr hn => ⟨?_, fun hp => ?_⟩⟩
  · rintro (hp | hp) <;> exact exec_of_phaseError hs herr (by rw [hp]; rfl) nofun
  · rw [exec_of_begins ⟨hs, lockedOut_of_ok _ herr, phaseError_loadRecord_iff.mpr hp⟩, commandBody]
    refine ⟨fun hloaded => ?_, fun hnew hover => ?_, fun hnew hfit => ?_⟩
    · rw [loadRecordBody_of_loaded hloaded, raise_of_ok _ herr]
    · rw [loadRecordBody_of_overflow hnew hover, raise_of_ok _ herr]
    · refine ⟨appendRecord sym s, by rw [loadRecordBody_of_fits hnew hfit], rfl, ?_, ?_, ?_, fun j hj => ?_,
        fun c => setLoaded_getLsbD _ _ _⟩
      · exact BitVec.toNat_add_of_lt (by simp; omega)
      · exact BitVec.toNat_add_of_lt (by omega)
      · exact readNode_writeNode_same _ _ (by omega)
      · exact readNode_writeNode_other _ _ hj.symm

/-! ## QUERY_NODE -/

/-- Settles O31: both branches of the pseudocode, and the words of NODE_INFO as shifted fields. -/
theorem queryNodeCopiesOneEntry : Obligations.QueryNodeCopiesOneEntry := by
  unfold Obligations.QueryNodeCopiesOneEntry
  refine ⟨append_zero_append 0x13#8, fun idx s hs herr => ⟨?_, fun hp => ?_⟩⟩
  · rintro (hp | hp) <;> exact exec_of_phaseError hs herr (by rw [hp]; rfl) nofun
  · rw [exec_of_begins ⟨hs, lockedOut_of_ok _ herr, phaseError_queryNode_iff.mpr hp⟩, commandBody, queryNodeBody]
    refine ⟨fun hle => ?_, fun hgt => ?_⟩
    · rw [if_pos (BitVec.le_def.mp hle), nodeInfo0Of_eq, nodeInfo2Of_eq]
      cases (s.node idx).kind <;> rfl
    · rw [if_neg (mt BitVec.le_def.mpr hgt)]
      rfl

end Sys2Proof.Machine
end

section
/-! PROOFS. The code table (R107 to R110): Walk enters the paths of the Leaves and nothing else, and the paths of a built
tree lead to every record and are short; O33, O32 from these, and O34. -/

namespace Sys2Proof.Machine

/-! ## Paths to the Leaves -/

/-- Every entry that path p leaves on its way down from entry i is Internal. -/
def Descends (nodes : Vector Node 511) (i : Index) : List Bool → Prop
  | [] => True
  | b :: p => (readNode nodes i.toNat).kind = .internal ∧ Descends nodes (childOf b (readNode nodes i.toNat)) p

/-- Path p leads down from entry i to a Leaf of symbol sym. -/
structure LeafPath (nodes : Vector Node 511) (i : Index) (p : List Bool) (sym : Byte) : Prop where
  descends : Descends nodes i p
  kind : (readNode nodes (follow nodes i p).toNat).kind = .leaf
  sym : (readNode nodes (follow nodes i p).toNat).sym = sym

section
variable {nodes : Vector Node 511} {i : Index} {p q : List Bool} {sym sym' : Byte}

theorem follow_append : follow nodes i (p ++ q) = follow nodes (follow nodes i p) q := by
  induction p generalizing i with
  | nil => rfl
  | cons b p ih => exact ih

theorem descends_append : Descends nodes i (p ++ q) ↔ Descends nodes i p ∧ Descends nodes (follow nodes i p) q := by
  induction p generalizing i with
  | nil => simp [Descends, follow]
  | cons b p ih => exact (and_congr_right fun _ => ih).trans and_assoc.symm

theorem descends_of_leaf (h : (readNode nodes i.toNat).kind = .leaf) : Descends nodes i p ↔ p = [] := by
  cases p <;> simp [Descends, h]

theorem leafPath_of_leaf (h : (readNode nodes i.toNat).kind = .leaf) :
    LeafPath nodes i p sym ↔ p = [] ∧ (readNode nodes i.toNat).sym = sym := by
  refine ⟨fun hp => ?_, ?_⟩
  · obtain rfl := (descends_of_leaf h).mp hp.descends
    exact ⟨rfl, hp.sym⟩
  · rintro ⟨rfl, hs⟩
    exact ⟨trivial, h, hs⟩

theorem leafPath_of_internal (h : (readNode nodes i.toNat).kind = .internal) :
    LeafPath nodes i p sym ↔ ∃ b q, p = b :: q ∧ LeafPath nodes (childOf b (readNode nodes i.toNat)) q sym := by
  refine ⟨fun hp => ?_, ?_⟩
  · cases p with
    | nil => exact absurd (h.symm.trans hp.kind) nofun
    | cons b q => exact ⟨b, q, rfl, hp.descends.2, hp.kind, hp.sym⟩
  · rintro ⟨b, q, rfl, hq⟩
    exact ⟨⟨h, hq.descends⟩, hq.kind, hq.sym⟩

/-- A path that ends at a Leaf goes on nowhere, so no code begins with that of another symbol (R109 (c)). -/
theorem LeafPath.sym_eq_of_isPrefix (hp : LeafPath nodes i p sym) (hq : LeafPath nodes i q sym') (h : p <+: q) :
    sym = sym' := by
  obtain ⟨r, rfl⟩ := h
  obtain rfl := (descends_of_leaf hp.kind).mp (descends_append.mp hq.descends).2
  rw [List.append_nil] at hq
  exact hp.sym.symm.trans hq.sym

end

/-! ## Walk -/

section
variable {nodes : Vector Node 511} {i : Index} (fuel : Nat) (p : List Bool) (codes : Vector CodeEntry 256)

theorem walk_of_leaf (h : (readNode nodes i.toNat).kind = .leaf) :
    walk (fuel + 1) nodes i p codes = writeCode codes (readNode nodes i.toNat).sym ⟨true, p⟩ := by
  rw [walk, h]

theorem walk_of_internal (h : (readNode nodes i.toNat).kind = .internal) :
    walk (fuel + 1) nodes i p codes =
      walk fuel nodes (childOf true (readNode nodes i.toNat)) (p ++ [true])
        (walk fuel nodes (childOf false (readNode nodes i.toNat)) (p ++ [false]) codes) := by
  rw [walk, h]
  rfl

end

/-- Walk below entry i enters for each symbol a path to one of its Leaves there, or keeps its entry if there is
none. -/
theorem walk_entry {nodes : Vector Node 511} {r : Nat}
    (hchild : ∀ i : Index, i.toNat ≤ r → (readNode nodes i.toNat).kind = .internal →
      ∀ b, (childOf b (readNode nodes i.toNat)).toNat < i.toNat)
    (fuel : Nat) {i : Index} (hi : i.toNat ≤ r) (hfuel : i.toNat < fuel) (p : List Bool)
    (codes : Vector CodeEntry 256) (sym : Byte) :
    (∃ q, LeafPath nodes i q sym ∧ (walk fuel nodes i p codes)[sym.toNat] = ⟨true, p ++ q⟩) ∨
    ((∀ q, ¬ LeafPath nodes i q sym) ∧ (walk fuel nodes i p codes)[sym.toNat] = codes[sym.toNat]) := by
  induction fuel generalizing i p codes with
  | zero => exact absurd hfuel (Nat.not_lt_zero _)
  | succ fuel ih =>
    cases hk : (readNode nodes i.toNat).kind with
    | leaf =>
      simp only [walk_of_leaf _ _ _ hk, leafPath_of_leaf hk]
      rcases eq_or_ne (readNode nodes i.toNat).sym sym with rfl | hne
      · exact .inl ⟨[], ⟨rfl, rfl⟩, by rw [writeCode_same, List.append_nil]⟩
      · exact .inr ⟨fun q hq => hne hq.2, writeCode_other _ _ hne⟩
    | internal =>
      have ihChild (b : Bool) :=
        have hb := hchild i hi hk b
        ih (hb.le.trans hi) (hb.trans_le (Nat.le_of_lt_succ hfuel)) (p ++ [b])
      simp only [walk_of_internal _ _ _ hk, leafPath_of_internal hk]
      rcases ihChild true (walk fuel nodes (childOf false (readNode nodes i.toNat)) (p ++ [false]) codes) with
        ⟨q, hq, he⟩ | ⟨hright, he⟩
      · exact .inl ⟨true :: q, ⟨true, q, rfl, hq⟩, by rw [he, List.append_assoc]; rfl⟩
      rw [he]
      rcases ihChild false codes with ⟨q, hq, he⟩ | ⟨hleft, he⟩
      · exact .inl ⟨false :: q, ⟨false, q, rfl, hq⟩, by rw [he, List.append_assoc]; rfl⟩
      · refine .inr ⟨?_, he⟩
        rintro _ ⟨b, q, -, hq⟩
        cases b
        · exact hleft q hq
        · exact hright q hq

/-! ## The paths of a built tree -/

section
variable {s : State} (hr : RecordOk s) (ht : TreeOk s) (hp : s.phase = .built ∨ s.phase = .coded)
include hr ht hp

theorem childOf_lt_of_internal {i : Index} (hi : i.toNat ≤ s.rootIdx.toNat) (hk : (s.node i).kind = .internal)
    (b : Bool) : (childOf b (s.node i)).toNat < i.toNat :=
  childOf_lt hr ht hp hi ((node_kind_eq_internal_iff hr ht hp hi).mp hk) b

/-- A path stays in the tree, and each of its bits uses up an Internal node at or below its start. -/
theorem descends_bounds {i : Index} {p : List Bool} (hi : i.toNat ≤ s.rootIdx.toNat) (h : Descends s.nodes i p) :
    (follow s.nodes i p).toNat ≤ s.rootIdx.toNat ∧ p.length ≤ i.toNat + 1 - s.nrec.toNat := by
  induction p generalizing i with
  | nil => exact ⟨hi, Nat.zero_le _⟩
  | cons b p ih =>
    obtain ⟨hk, hdesc⟩ := h
    have hn := (node_kind_eq_internal_iff hr ht hp hi).mp hk
    have hlt := childOf_lt_of_internal hr ht hp hi hk b
    obtain ⟨hend, hlen⟩ := ih (hlt.le.trans hi) hdesc
    exact ⟨hend, by rw [List.length_cons]; omega⟩

/-- Every entry below the root is a child of an Internal node above it (R39). -/
theorem exists_parent {j : Index} (hj : j.toNat < s.rootIdx.toNat) :
    ∃ (i : Index) (b : Bool), i.toNat ≤ s.rootIdx.toNat ∧ (s.node i).kind = .internal ∧ childOf b (s.node i) = j := by
  obtain ⟨hroot, -⟩ := rootIdx_toNat hr ht hp
  obtain ⟨⟨-, -, hparent⟩, -⟩ := ht.1 hp
  obtain ⟨i, hi, ⟨hn, hchild⟩, -⟩ := hparent j.toNat (by omega)
  have hile : i ≤ s.rootIdx.toNat := by omega
  obtain ⟨i, rfl⟩ : ∃ a : Index, a.toNat = i := ⟨BitVec.ofNatLT i (hile.trans_lt s.rootIdx.isLt), rfl⟩
  have hk := (node_kind_eq_internal_iff hr ht hp hile).mpr hn
  rcases hchild with hleft | hright
  · exact ⟨_, false, hile, hk, BitVec.eq_of_toNat_eq hleft⟩
  · exact ⟨_, true, hile, hk, BitVec.eq_of_toNat_eq hright⟩

/-- Every entry of the tree is reached from the root: its parent is, by induction from the root down. -/
theorem exists_descends (j : Index) (hj : j.toNat ≤ s.rootIdx.toNat) :
    ∃ p, Descends s.nodes s.rootIdx p ∧ follow s.nodes s.rootIdx p = j := by
  induction hd : s.rootIdx.toNat - j.toNat using Nat.strong_induction_on generalizing j with
  | _ d ih =>
    rcases hj.eq_or_lt with heq | hlt
    · exact ⟨[], trivial, (BitVec.eq_of_toNat_eq heq).symm⟩
    · obtain ⟨i, b, hi, hk, rfl⟩ := exists_parent hr ht hp hlt
      have habove := childOf_lt_of_internal hr ht hp hi hk b
      obtain ⟨p, hdesc, rfl⟩ := ih _ (by omega) i hi rfl
      exact ⟨p ++ [b], descends_append.mpr ⟨hdesc, hk, trivial⟩, follow_append⟩

/-- A symbol has a path from the root exactly if it has a record. -/
theorem exists_leafPath_iff {sym : Byte} :
    (∃ p, LeafPath s.nodes s.rootIdx p sym) ↔ ∃ i < s.nrec.toNat, (readNode s.nodes i).sym = sym := by
  obtain ⟨hroot, -⟩ := rootIdx_toNat hr ht hp
  constructor
  · rintro ⟨p, hdesc, hk, hsym⟩
    obtain ⟨hend, -⟩ := descends_bounds hr ht hp le_rfl hdesc
    exact ⟨_, (node_kind_eq_leaf_iff hr ht hp hend).mp hk, hsym⟩
  · rintro ⟨i, hi, hsym⟩
    obtain ⟨i, rfl⟩ : ∃ a : Index, a.toNat = i := ⟨BitVec.ofNatLT i (hi.trans s.nrec.isLt), rfl⟩
    have hile : i.toNat ≤ s.rootIdx.toNat := by omega
    obtain ⟨p, hdesc, rfl⟩ := exists_descends hr ht hp i hile
    exact ⟨p, hdesc, (node_kind_eq_leaf_iff hr ht hp hile).mpr hi, hsym⟩

/-- The code the tree gives a symbol is a path to its Leaf, if there is one; a symbol with none has the empty entry. -/
theorem treeCode_cases (sym : Byte) :
    ((s.treeCode sym).valid = true ∧ LeafPath s.nodes s.rootIdx (s.treeCode sym).bits sym) ∨
    (s.treeCode sym = ⟨false, []⟩ ∧ ∀ q, ¬ LeafPath s.nodes s.rootIdx q sym) := by
  have hn := hr.1
  have hroot := (rootIdx_toNat hr ht hp).1
  have hchild (i : Index) (hi : i.toNat ≤ s.rootIdx.toNat) := childOf_lt_of_internal hr ht hp hi
  rcases walk_entry hchild 511 le_rfl (by omega) [] emptyCodes sym with ⟨q, hq, he⟩ | ⟨hnone, he⟩
  · exact .inl (by rw [State.treeCode, codesOf, he]; exact ⟨rfl, hq⟩)
  · exact .inr ⟨by rw [State.treeCode, codesOf, he]; simp [emptyCodes], hnone⟩

theorem leafPath_of_treeCode_valid {sym : Byte} (h : (s.treeCode sym).valid = true) :
    LeafPath s.nodes s.rootIdx (s.treeCode sym).bits sym := by
  rcases treeCode_cases hr ht hp sym with ⟨-, hpath⟩ | ⟨hempty, -⟩
  · exact hpath
  · simp [hempty] at h

theorem treeCode_bits_of_not_valid {sym : Byte} (h : (s.treeCode sym).valid = false) : (s.treeCode sym).bits = [] := by
  rcases treeCode_cases hr ht hp sym with ⟨hv, -⟩ | ⟨hempty, -⟩
  · simp [hv] at h
  · rw [hempty]

/-- VALID = 1 exactly for the symbols of the records (R109 (a)). -/
theorem treeCode_valid_iff {sym : Byte} :
    (s.treeCode sym).valid = true ↔ ∃ i < s.nrec.toNat, (readNode s.nodes i).sym = sym := by
  rw [← exists_leafPath_iff hr ht hp]
  refine ⟨fun h => ⟨_, leafPath_of_treeCode_valid hr ht hp h⟩, fun ⟨q, hq⟩ => ?_⟩
  rcases treeCode_cases hr ht hp sym with ⟨hv, -⟩ | ⟨-, hnone⟩
  · exact hv
  · exact absurd hq (hnone q)

theorem treeCode_valid_eq_loaded (sym : Byte) : (s.treeCode sym).valid = s.loaded.getLsbD sym.toNat := by
  rw [Bool.eq_iff_iff, treeCode_valid_iff hr ht hp]
  obtain ⟨-, -, -, -, -, hloaded, -⟩ := hr
  simp only [hloaded sym.toNat sym.isLt, BitVec.toNat_inj]

/-- The length of a code (R109 (b)). -/
theorem treeCode_length_le {sym : Byte} (h : (s.treeCode sym).valid = true) :
    (s.treeCode sym).bits.length ≤ s.nrec.toNat - 1 := by
  obtain ⟨hroot, h1⟩ := rootIdx_toNat hr ht hp
  obtain ⟨-, hlen⟩ := descends_bounds hr ht hp le_rfl (leafPath_of_treeCode_valid hr ht hp h).descends
  omega

theorem one_le_treeCode_length {sym : Byte} (hn : 2 ≤ s.nrec.toNat) (h : (s.treeCode sym).valid = true) :
    1 ≤ (s.treeCode sym).bits.length := by
  obtain ⟨hroot, -⟩ := rootIdx_toNat hr ht hp
  have hk : (s.node s.rootIdx).kind = .internal := (node_kind_eq_internal_iff hr ht hp le_rfl).mpr (by omega)
  obtain ⟨b, q, hbits, -⟩ := (leafPath_of_internal hk).mp (leafPath_of_treeCode_valid hr ht hp h)
  simp [hbits]

end

/-! ## GEN_CODES -/

/-- GEN_CODES in BUILT or CODED is its pseudocode, in the dispatch step. -/
theorem exec_genCodes_of_tree {s : State} (hs : s.eng = .pending) (herr : s.err = .ok)
    (hp : s.phase = .built ∨ s.phase = .coded) : exec .genCodes s = .next (genCodesBody s) :=
  exec_of_begins ⟨hs, lockedOut_of_ok _ herr, phaseError_genCodes_iff.mpr hp⟩

theorem genCodesBody_code (s : State) (sym : Byte) : (genCodesBody s).code sym = s.treeCode sym := rfl

/-- Settles O33: the codes are paths to Leaves from the root, and a path to a Leaf goes on nowhere. -/
theorem generatedCodesArePrefixFree : Obligations.GeneratedCodesArePrefixFree := by
  unfold Obligations.GeneratedCodesArePrefixFree
  intro s t hr ht hs herr hp hexec
  rw [exec_genCodes_of_tree hs herr hp] at hexec
  cases hexec
  simp only [genCodesBody_code]
  have hn := hr.1
  refine ⟨fun sym => treeCode_valid_iff hr ht hp, fun h2 => ⟨fun sym h => ?_, fun a b hab ha hb hpre => ?_⟩,
    fun h1 sym h => ?_⟩
  · exact ⟨one_le_treeCode_length hr ht hp h2 h, treeCode_length_le hr ht hp h, by omega⟩
  · exact hab ((leafPath_of_treeCode_valid hr ht hp ha).sym_eq_of_isPrefix (leafPath_of_treeCode_valid hr ht hp hb) hpre)
  · have := treeCode_length_le hr ht hp h
    omega

/-- Settles O32: GEN_CODES is its pseudocode, and each valid code is a path to its symbol's Leaf. -/
theorem genCodesRecordsThePathOfEachLeaf : Obligations.GenCodesRecordsThePathOfEachLeaf := by
  unfold Obligations.GenCodesRecordsThePathOfEachLeaf
  intro s hs herr hp
  refine ⟨genCodesBody s, exec_genCodes_of_tree hs herr hp, rfl, fun hr ht => ?_⟩
  simp only [genCodesBody_code]
  refine ⟨treeCode_valid_eq_loaded hr ht hp, fun sym => treeCode_bits_of_not_valid hr ht hp, fun sym h => ?_⟩
  have hpath := leafPath_of_treeCode_valid hr ht hp h
  exact ⟨hpath.kind, hpath.sym⟩

/-! ## QUERY_CODE -/

theorem setWidth_bitVal (b : Bool) : (bitVal 1 b).setWidth 32 = bitVal 32 b := by cases b <;> rfl

theorem codeInfoOf_eq {e : CodeEntry} (sym : Byte) (h : e.bits.length ≤ 255) :
    codeInfoOf sym e = (bitVal 32 e.valid <<< 31) ||| (sym.setWidth 32 <<< 8) ||| BitVec.ofNat 32 e.bits.length := by
  have hlen : (lenField e).setWidth 32 = BitVec.ofNat 32 e.bits.length :=
    BitVec.eq_of_toNat_eq (by simp [lenField]; omega)
  calc codeInfoOf sym e
    _ = (bitVal 1 e.valid ++ 0#15 ++ sym ++ lenField e).setWidth 32 := (BitVec.setWidth_eq _).symm
    _ = ((bitVal 1 e.valid ++ 0#15 ++ sym).setWidth 32 <<< 8) ||| (lenField e).setWidth 32 :=
      BitVec.setWidth_append_eq_shiftLeft_setWidth_or
    _ = (((bitVal 1 e.valid).setWidth 32 <<< 23 ||| sym.setWidth 32) <<< 8) ||| (lenField e).setWidth 32 := by
      rw [setWidth_append_zero_append]
    _ = _ := by rw [BitVec.shiftLeft_or_distrib, setWidth_bitVal, hlen, ← BitVec.shiftLeft_add]

/-- Bit 31 − m of CODE_BITSk is bit 32k + m of the code, 0 beyond its end (R32). -/
theorem codeBitsOf_getLsbD (bits : List Bool) (k : Fin 8) (m : Fin 32) :
    ((codeBitsOf bits)[k]).getLsbD (31 - m.val) = (bits[32 * k.val + m.val]?).getD false := by
  have hbit := codeWord_bit bits (32 * k.val + m.val)
  rw [show (32 * k.val + m.val) / 32 = k.val by omega, show (32 * k.val + m.val) % 32 = m.val by omega] at hbit
  simp [codeBitsOf, hbit, codeBit]

theorem phaseError_queryCode_of_ne_coded {p : Phase} {sym : Byte} (h : p ≠ .coded) :
    phaseError (.queryCode sym) p = .badPhase := by
  cases p with
  | coded => exact absurd rfl h
  | _ => rfl

/-- Settles O34: QUERY_CODE is its pseudocode in CODED, and the words it writes bit by bit. -/
theorem queryCodeCopiesOneEntry : Obligations.QueryCodeCopiesOneEntry := by
  unfold Obligations.QueryCodeCopiesOneEntry
  refine ⟨append_zero_append 0x14#8, fun sym s hs herr => ⟨fun hp => ?_, fun hp hlen => ?_⟩⟩
  · exact exec_of_phaseError hs herr (phaseError_queryCode_of_ne_coded hp) nofun
  · exact ⟨queryCodeBody sym s, exec_of_begins ⟨hs, lockedOut_of_ok _ herr, phaseError_queryCode_iff.mpr hp⟩, rfl,
      codeInfoOf_eq sym hlen, codeBitsOf_getLsbD (s.code sym).bits⟩

end Sys2Proof.Machine
end

section
/-! PROOFS. The encode path (R111, R112): the code bits of one symbol, call by call and in a row, and the bytes of the
input FIFO one after the other; O43, O42, O44. -/

namespace Sys2Proof.Machine

/-! ## One code bit -/

section
variable {s : State}

/-- A WriteBit that does not fill ACC leaves the output FIFO alone, whatever the unfilled bits of ACC are (R90). -/
theorem exists_writeBit_of_lt_seven (b : Bool) (h : s.accCnt.toNat < 7) :
    ∃ t, writeBit b s = .done t ∧ t = { s with acc := t.acc, accCnt := s.accCnt + 1 } ∧
      outStream t = outStream s ++ [b] := by
  have h7 : s.accCnt ≠ 7#4 := fun h7 => by simp [h7] at h
  have hsucc : (s.accCnt + 1#4).toNat = s.accCnt.toNat + 1 := by simp [BitVec.toNat_add]; omega
  obtain ⟨t, ht⟩ := exists_writeBit (s := s) b (by omega)
  rcases writeBit_done ht with ⟨h7', -⟩ | ⟨-, rfl⟩
  · exact absurd h7' h7
  · refine ⟨_, ht, rfl, ?_⟩
    simp only [outStream, hsucc, take_byteBits_setBit s.acc b (Nat.lt_succ_of_lt h), List.append_assoc]

/-- A WriteBit that fills ACC pushes the byte and empties the writer (R90). -/
theorem exists_writeBit_of_seven (b : Bool) (h : s.accCnt.toNat = 7) (hroom : s.outq.length ≠ s.cfg.outDepth) :
    ∃ t, writeBit b s = .done t ∧ t = { s with acc := 0, accCnt := 0, outq := t.outq } ∧
      outStream t = outStream s ++ [b] := by
  have h7 : s.accCnt = 7#4 := BitVec.eq_of_toNat_eq h
  rcases writeBit_cases b s with ⟨-, hfull, -⟩ | ⟨-, -, hw⟩ | ⟨hne, -⟩
  · exact absurd hfull hroom
  · exact ⟨_, hw, rfl, by simp [outStream, h7, byteBits_setBit_zero]⟩
  · exact absurd h7 hne

theorem codeBit_of_getElem? {bits : List Bool} {j : Nat} {b : Bool} (h : bits[j]? = some b) : codeBit bits j = b := by
  rw [codeBit, List.getD_eq_getElem?_getD, h, Option.getD_some]

theorem code_of_writeBit {b : Bool} {t : State} (h : writeBit b s = .done t) (v : Byte) : t.code v = s.code v :=
  (transfer_of_writeBit h).tablesKept.code v

end

/-! ## ENCODE_STREAM, call by call -/

section
variable {s t : State} {cnt : Word} {v : Byte}

theorem exec_encodeStream_of_cons {rest : List Byte} (heng : s.eng = .running (.streamPop cnt))
    (hq : s.inq = v :: rest) : exec .encodeStream s = .next (streamByte cnt v { s with inq := rest }) :=
  exec_of_running heng (by rw [commandResume, encodeStreamResume, popByte_of_cons hq])

theorem exec_encodeStream_of_valid {rest : List Byte} (heng : s.eng = .running (.streamPop cnt))
    (hq : s.inq = v :: rest) (hv : (s.code v).valid = true) :
    exec .encodeStream s = .next (streamLoop cnt v 0 { s with inq := rest }) :=
  (exec_encodeStream_of_cons heng hq).trans (congrArg Host.Outcome.next (if_pos hv))

theorem exec_encodeStream_of_not_valid {rest : List Byte} (heng : s.eng = .running (.streamPop cnt))
    (hq : s.inq = v :: rest) (hv : (s.code v).valid = false) :
    exec .encodeStream s = .next (raise .codeMiss { s with inq := rest }) :=
  (exec_encodeStream_of_cons heng hq).trans (congrArg Host.Outcome.next (if_neg (Bool.eq_false_iff.mp hv)))

theorem exec_encodeStream_of_eos (heng : s.eng = .running (.streamPop cnt)) (hq : s.inq = []) (he : s.eos = true) :
    exec .encodeStream s = .next (complete cnt s) :=
  exec_of_running heng (by simp [commandResume, encodeStreamResume, popByte, hq, he])

theorem exec_encodeStream_of_not_eos (heng : s.eng = .running (.streamPop cnt)) (hq : s.inq = [])
    (he : s.eos = false) : exec .encodeStream s = .next s :=
  exec_of_running heng (by simp [commandResume, encodeStreamResume, popByte, hq, he])

theorem exec_encodeStream_of_write {j : Nat} (heng : s.eng = .running (.streamWrite cnt v j)) :
    exec .encodeStream s =
      .next (afterPush (writeBit (codeBit (s.code v).bits j) s) (streamLoop cnt v (j + 1)) s) :=
  exec_of_running heng rfl

theorem exec_encodeStream_of_done {j : Nat} (heng : s.eng = .running (.streamWrite cnt v j))
    (h : writeBit (codeBit (s.code v).bits j) s = .done t) :
    exec .encodeStream s = .next (streamLoop cnt v (j + 1) t) := by
  rw [exec_encodeStream_of_write heng, h, afterPush]

/-- After bit j of a byte's code comes bit j + 1, or the next PopByte with the byte counted (R112). -/
theorem exec_encodeStream_of_bit {j : Nat} {b : Bool} (heng : s.eng = .running (.streamWrite cnt v j))
    (hb : (s.code v).bits[j]? = some b) (h : writeBit b s = .done t) :
    exec .encodeStream s = .next
      (goTo (if j + 1 < (s.code v).bits.length then .streamWrite cnt v (j + 1) else .streamPop (cnt + 1)) t) := by
  rw [exec_encodeStream_of_done heng (codeBit_of_getElem? hb ▸ h), streamLoop, code_of_writeBit h]
  split <;> rfl

end

/-- Settles O43: the three ends of PopByte, the three kinds of byte, and the three ends of WriteBit. -/
theorem encodeStreamPopsBytesUntilEnd : Obligations.EncodeStreamPopsBytesUntilEnd := by
  unfold Obligations.EncodeStreamPopsBytesUntilEnd
  refine fun s => ⟨exec_of_begins, fun cnt heng => ⟨exec_encodeStream_of_not_eos heng,
    exec_encodeStream_of_eos heng, fun v rest hq => ?_⟩, fun cnt v j b heng hb => ?_⟩
  · refine ⟨fun hv herr => ?_, fun hv hbits => ?_, fun hv hbits => ?_⟩
    · rw [exec_encodeStream_of_not_valid heng hq hv, raise_of_ok .codeMiss (s := { s with inq := rest }) herr]
    · have hend : ¬ 0 < (s.code v).bits.length := by simp [hbits]
      exact (exec_encodeStream_of_valid heng hq hv).trans (congrArg Host.Outcome.next (if_neg hend))
    · have hfirst : 0 < (s.code v).bits.length := List.length_pos_iff.mpr hbits
      exact (exec_encodeStream_of_valid heng hq hv).trans (congrArg Host.Outcome.next (if_pos hfirst))
  · refine ⟨fun hlt => ?_, fun h7 hroom => ?_, fun h7 hfull => ?_⟩
    · obtain ⟨t, ht, hframe, hstream⟩ := exists_writeBit_of_lt_seven b hlt
      refine ⟨_, exec_encodeStream_of_bit heng hb ht, ?_, hstream⟩
      conv_lhs => rw [hframe]
      rfl
    · obtain ⟨t, ht, hframe, hstream⟩ := exists_writeBit_of_seven b h7 hroom
      refine ⟨_, exec_encodeStream_of_bit heng hb ht, ?_, hstream⟩
      conv_lhs => rw [hframe]
      rfl
    · rw [exec_encodeStream_of_write heng,
        writeBit_eq_hold_iff.mpr (wouldHold_writeBit_iff.mpr ⟨BitVec.eq_of_toNat_eq h7, hfull⟩), afterPush]

/-! ## The bits of one code -/

/-- The head of the loop over the bits of a code, whose calls stand at `loc j` and which `last` follows (R111, R112). -/
def codeLoop (loc : Nat → Loc) (last : State → State) (bits : List Bool) (j : Nat) (s : State) : State :=
  if j < bits.length then goTo (loc j) s else last s

theorem encodeSymLoop_eq_codeLoop {sym : Byte} {bits : List Bool} {s : State} (h : (s.code sym).bits = bits)
    (j : Nat) : encodeSymLoop sym j s = codeLoop .encodeSym finish bits j s := by
  rw [← h]; rfl

theorem streamLoop_eq_codeLoop {v : Byte} {bits : List Bool} {s : State} (h : (s.code v).bits = bits) (cnt : Word)
    (j : Nat) : streamLoop cnt v j s = codeLoop (.streamWrite cnt v) (goTo (.streamPop (cnt + 1))) bits j s := by
  rw [← h]; rfl

theorem BitsWritten.code {bs : List Bool} {s t : State} (h : BitsWritten bs s t) (v : Byte) : t.code v = s.code v := by
  rw [h.frame]; rfl

/-- A command that goes from each WriteBit of a code to the next writes the whole code, one bit a step. -/
theorem execTimes_codeLoop {i : Instr} {loc : Nat → Loc} {last : State → State} {v : Byte} {bits : List Bool}
    (hstep : ∀ j s t, s.eng = .running (loc j) → (s.code v).bits = bits → writeBit (codeBit bits j) s = .done t →
      exec i s = .next (codeLoop loc last bits (j + 1) t))
    (n : Nat) {j : Nat} {s : State} (hn : j + n = bits.length) (hcode : (s.code v).bits = bits) (hs : WriterOk s)
    (hroom : HasRoom n s) :
    ∃ t, execTimes n i (codeLoop loc last bits j s) = .next (last t) ∧ BitsWritten (bits.drop j) s t := by
  induction n generalizing j s with
  | zero =>
    refine ⟨s, by rw [codeLoop, if_neg (by omega)]; rfl, ?_⟩
    rw [List.drop_eq_nil_of_le (by omega)]
    exact bitsWritten_nil hs s.eng
  | succ n ih =>
    have hgo := bitsWritten_nil hs (.running (loc j))
    obtain ⟨u, hu⟩ := exists_writeBit_of_hasRoom (codeBit bits j) hgo.writerOk (hgo.hasRoom hroom)
    have hbit := hgo.trans (bitsWritten_of_writeBit hgo.writerOk hu)
    obtain ⟨t, ht, hbits⟩ := ih (j := j + 1) (by omega) (by rw [hbit.code v]; exact hcode) hbit.writerOk
      (hbit.hasRoom hroom)
    have hlt : j < bits.length := by omega
    have hdrop : bits.drop j = codeBit bits j :: bits.drop (j + 1) := by
      rw [List.drop_eq_getElem_cons hlt, codeBit, List.getD_eq_getElem _ _ hlt]
    refine ⟨t, ?_, hdrop ▸ hbit.trans hbits⟩
    rw [codeLoop, if_pos hlt, execTimes_succ_of_exec n (hstep j (goTo (loc j) s) u rfl hcode hu), ht]

/-! ## ENCODE_SYM -/

section
variable {s t : State} {sym : Byte}

theorem exec_encodeSym_of_done {j : Nat} (heng : s.eng = .running (.encodeSym j))
    (h : writeBit (codeBit (s.code sym).bits j) s = .done t) :
    exec (.encodeSym sym) s = .next (encodeSymLoop sym (j + 1) t) :=
  exec_of_running heng (by rw [commandResume, encodeSymResume, h, afterPush])

theorem exec_encodeSym_codeLoop {bits : List Bool} (j : Nat) (heng : s.eng = .running (.encodeSym j))
    (hcode : (s.code sym).bits = bits) (h : writeBit (codeBit bits j) s = .done t) :
    exec (.encodeSym sym) s = .next (codeLoop .encodeSym finish bits (j + 1) t) := by
  rw [exec_encodeSym_of_done heng (hcode ▸ h),
    encodeSymLoop_eq_codeLoop ((congrArg _ (code_of_writeBit h sym)).trans hcode)]

theorem exec_encodeSym_of_valid (hbegins : Begins (.encodeSym sym) s) (hv : (s.code sym).valid = true) :
    exec (.encodeSym sym) s = .next (encodeSymLoop sym 0 s) :=
  (exec_of_begins hbegins).trans (by rw [commandBody, encodeSymBody, if_pos hv])

end

theorem err_eq_ok_of_begins {i : Instr} {s : State} (h : Begins i s) (hi : lockExempt i.opc = false) : s.err = .ok := by
  simpa [lockedOut, hi] using h.2.1

/-- Settles O42: the loop head at dispatch, the last WriteBit, and the whole loop. -/
theorem encodeSymWritesTheCode : Obligations.EncodeSymWritesTheCode := by
  unfold Obligations.EncodeSymWritesTheCode
  intro sym s hs
  refine ⟨fun hbegins hv => ?_, fun hbegins hv hnil => ?_, fun hbegins hv hne => ?_, fun j b heng hb hlast hlt => ?_,
    fun hbegins hv hroom => ?_⟩
  · have herr := err_eq_ok_of_begins hbegins rfl
    rw [exec_of_begins hbegins, commandBody, encodeSymBody, hv, ← raise_of_ok _ herr]
    rfl
  · rw [exec_encodeSym_of_valid hbegins hv, encodeSymLoop, hnil]; rfl
  · rw [exec_encodeSym_of_valid hbegins hv, encodeSymLoop, if_pos (List.length_pos_iff.mpr hne)]; rfl
  · obtain ⟨t, ht, hframe, hstream⟩ := exists_writeBit_of_lt_seven b hlt
    have hend : encodeSymLoop sym (j + 1) t = finish t := by
      rw [encodeSymLoop, code_of_writeBit ht, hlast, if_neg (lt_irrefl _)]
    refine ⟨finish t, ?_, ?_, hstream⟩
    · rw [exec_encodeSym_of_done heng (codeBit_of_getElem? hb ▸ ht), hend]
    · conv_lhs => rw [hframe]
      rfl
  · obtain ⟨t, ht, hbits⟩ := execTimes_codeLoop (fun j _ _ => exec_encodeSym_codeLoop j) (s.code sym).bits.length
      (Nat.zero_add _) rfl hs ((hasRoom_iff hs).mpr hroom)
    refine ⟨finish t, ?_, ?_, hbits.stream⟩
    · rw [Nat.add_comm, execTimes_succ_of_exec _ (exec_encodeSym_of_valid hbegins hv), encodeSymLoop_eq_codeLoop rfl,
        ht]
    · conv_lhs => rw [hbits.frame]
      rfl

/-! ## ENCODE_STREAM -/

theorem exec_encodeStream_codeLoop {cnt : Word} {v : Byte} {bits : List Bool} {s t : State} (j : Nat)
    (heng : s.eng = .running (.streamWrite cnt v j)) (hcode : (s.code v).bits = bits)
    (h : writeBit (codeBit bits j) s = .done t) :
    exec .encodeStream s = .next (codeLoop (.streamWrite cnt v) (goTo (.streamPop (cnt + 1))) bits (j + 1) t) := by
  rw [exec_encodeStream_of_done heng (hcode ▸ h),
    streamLoop_eq_codeLoop ((congrArg _ (code_of_writeBit h v)).trans hcode)]

/-- From a PopByte with byte v next, ENCODE_STREAM takes it, writes its code and stands at the next PopByte. -/
theorem execTimes_streamPop_of_cons {cnt : Word} {v : Byte} {rest : List Byte} {s : State} (hs : WriterOk s)
    (hq : s.inq = v :: rest) (hv : (s.code v).valid = true) (hroom : HasRoom (s.code v).bits.length s) :
    ∃ u, execTimes ((s.code v).bits.length + 1) .encodeStream (goTo (.streamPop cnt) s) =
        .next (goTo (.streamPop (cnt + 1)) u) ∧ BitsWritten (s.code v).bits { s with inq := rest } u := by
  have hpop := exec_encodeStream_of_valid (s := goTo (.streamPop cnt) s) rfl hq hv
  have hgo := bitsWritten_nil (s := { s with inq := rest }) hs (.running (.streamPop cnt))
  obtain ⟨u, hu, hbits⟩ := execTimes_codeLoop (s := { goTo (.streamPop cnt) s with inq := rest })
    (fun j _ _ => exec_encodeStream_codeLoop j) (s.code v).bits.length (Nat.zero_add _) rfl hgo.writerOk hroom
  exact ⟨u, (execTimes_succ_of_exec _ hpop).trans hu, hgo.trans hbits⟩

/-- One more byte counted (R112, R113). -/
theorem ofNat_add_one (k : Nat) : BitVec.ofNat 32 k + 1 = BitVec.ofNat 32 (k + 1) := (BitVec.ofNat_add k 1).symm

/-- The writer does not look at the input FIFO. -/
theorem BitsWritten.with_inq {bs : List Bool} {s t : State} (h : BitsWritten bs s t) (q : List Byte) :
    BitsWritten bs { s with inq := q } { t with inq := q } :=
  ⟨by rw [h.frame], h.stream, h.writerOk⟩

/-- From a PopByte with EOS set, ENCODE_STREAM writes the codes of all bytes of the input FIFO and counts them. -/
theorem execTimes_streamPop {code : Byte → CodeEntry} {vs : List Byte} (hv : ∀ v ∈ vs, (code v).valid = true) {k : Nat}
    {s : State} (hs : WriterOk s) (hcode : ∀ v, s.code v = code v) (hq : s.inq = vs) (heos : s.eos = true)
    (hroom : HasRoom (vs.flatMap fun v => (code v).bits).length s) :
    ∃ t, execTimes (vs.length + (vs.flatMap fun v => (code v).bits).length + 1) .encodeStream
        (goTo (.streamPop (BitVec.ofNat 32 k)) s) = .next (complete (BitVec.ofNat 32 (k + vs.length)) t) ∧
      BitsWritten (vs.flatMap fun v => (code v).bits) { s with inq := [] } t := by
  induction vs generalizing k s with
  | nil =>
    have hend := exec_encodeStream_of_eos (s := goTo (.streamPop (BitVec.ofNat 32 k)) s) rfl hq heos
    have hs0 : { s with inq := [] } = s := by rw [← hq]
    exact ⟨s, execTimes_succ_of_exec 0 hend, hs0 ▸ bitsWritten_nil hs s.eng⟩
  | cons v vs ih =>
    obtain ⟨hvalid, hrest⟩ := List.forall_mem_cons.mp hv
    rw [List.flatMap_cons, List.length_append, Nat.add_comm (code v).bits.length, ← hcode v] at hroom
    rw [← hcode v] at hvalid
    obtain ⟨u, hu, hbyte⟩ := execTimes_streamPop_of_cons (cnt := BitVec.ofNat 32 k) hs hq hvalid
      (Nat.lt_of_le_of_lt (by omega) hroom)
    have huq : u.inq = vs := by rw [hbyte.frame]
    have hueos : u.eos = true := by rw [hbyte.frame]; exact heos
    obtain ⟨t, ht, hbits⟩ := ih hrest (k := k + 1) hbyte.writerOk (fun w => (hbyte.code w).trans (hcode w)) huq hueos
      (hbyte.hasRoom hroom)
    refine ⟨t, ?_, ?_⟩
    · rw [ofNat_add_one] at hu
      rw [List.flatMap_cons, List.length_append, List.length_cons, ← hcode v,
        show vs.length + 1 + ((s.code v).bits.length + (vs.flatMap fun v => (code v).bits).length) + 1 =
          (s.code v).bits.length + 1 + (vs.length + (vs.flatMap fun v => (code v).bits).length + 1) by omega,
        execTimes_add_of_execTimes _ hu, ht, Nat.add_right_comm, Nat.add_assoc]
    · rw [List.flatMap_cons, ← hcode v]
      exact (hbyte.with_inq []).trans hbits

/-- ENCODE_STREAM from its dispatch step to its end (R112). -/
theorem execTimes_encodeStream {s : State} (hs : WriterOk s) (hbegins : Begins .encodeStream s) (heos : s.eos = true)
    (hv : ∀ v ∈ s.inq, (s.code v).valid = true) (hroom : HasRoom (s.inq.flatMap fun v => (s.code v).bits).length s) :
    ∃ t, execTimes (2 + s.inq.length + (s.inq.flatMap fun v => (s.code v).bits).length) .encodeStream s =
        .next (complete (BitVec.ofNat 32 s.inq.length) t) ∧
      BitsWritten (s.inq.flatMap fun v => (s.code v).bits) { s with inq := [] } t := by
  obtain ⟨t, ht, hbits⟩ := execTimes_streamPop hv (k := 0) hs (fun _ => rfl) rfl heos hroom
  rw [Nat.zero_add] at ht
  refine ⟨t, ?_, hbits⟩
  rw [Nat.add_assoc, Nat.add_comm, ← ht]
  exact execTimes_succ_of_exec _ (exec_of_begins hbegins)

/-- Settles O44: the run writes the codes, and its last step sets RESULT. -/
theorem encodeStreamWritesTheCodesInOrder : Obligations.EncodeStreamWritesTheCodesInOrder := by
  unfold Obligations.EncodeStreamWritesTheCodesInOrder
  intro s hs hbegins heos hv hroom
  obtain ⟨t, ht, hbits⟩ := execTimes_encodeStream hs hbegins heos hv ((hasRoom_iff hs).mpr hroom)
  refine ⟨complete (BitVec.ofNat 32 s.inq.length) t, ht, ?_, hbits.stream⟩
  conv_lhs => rw [hbits.frame]
  rfl

end Sys2Proof.Machine
end

section
/-! PROOFS. The decoder (R113, R114): its calls one by one, the way down the tree along a code, and the symbols one after
the other; O45, O46. -/

namespace Sys2Proof.Machine

/-! ## DECODE, call by call -/

section
variable {s : State} {e : Word}

/-- The two ends of a head of `while DEC_REMAIN > 0`: the command completes, or it stands at its next call (R113). -/
theorem complete_or_goTo_eq (loc : Loc) : (if s.decRemain = 0 then complete e s else goTo loc s) =
    { s with
      result := if s.decRemain = 0 then e else s.result
      eng := if s.decRemain = 0 then .idle else .running loc } := by
  split <;> rfl

theorem decodeLoop_eq : decodeLoop e s = { s with
    result := if s.decRemain = 0 then e else s.result
    eng := if s.decRemain = 0 then .idle else .running (.decodeRead e) } :=
  complete_or_goTo_eq _

theorem decodeRootLoop_eq : decodeRootLoop e s = { s with
    result := if s.decRemain = 0 then e else s.result
    eng := if s.decRemain = 0 then .idle else .running (.decodeEmitRoot e) } :=
  complete_or_goTo_eq _

/-- The head of `while DEC_REMAIN > 0`, in either kind of tree (R113). -/
def decodeRound (e : Word) (s : State) : State :=
  match (s.node s.rootIdx).kind with
  | .leaf => decodeRootLoop e s
  | .internal => decodeLoop e s

theorem decodeBody_eq (s : State) :
    decodeBody s = decodeRound 0 { s with decRemain := (s.node s.rootIdx).count, decCur := s.rootIdx } := rfl

theorem decodeRound_of_leaf (h : (s.node s.rootIdx).kind = .leaf) : decodeRound e s = decodeRootLoop e s := by
  rw [decodeRound, h]

theorem decodeRound_of_internal (h : (s.node s.rootIdx).kind = .internal) : decodeRound e s = decodeLoop e s := by
  rw [decodeRound, h]

theorem decodeRound_of_zero (h : s.decRemain = 0) : decodeRound e s = complete e s := by
  unfold decodeRound; split <;> exact if_pos h

theorem decodeRound_of_ne_zero (h : s.decRemain ≠ 0) : decodeRound e s =
    goTo (if (s.node s.rootIdx).kind = .leaf then .decodeEmitRoot e else .decodeRead e) s := by
  unfold decodeRound
  split
  case h_1 hk => rw [if_pos hk]; exact if_neg h
  case h_2 hk => rw [if_neg (by simp [hk])]; exact if_neg h

/-- Where DECODE stands at an entry of the tree while a symbol is due: before Emit at a Leaf, else before ReadBit. -/
def decodeAt (e : Word) (s : State) : State :=
  goTo (if (s.node s.decCur).kind = .leaf then .decodeEmit e else .decodeRead e) s

theorem decodeAt_of_leaf (h : (s.node s.decCur).kind = .leaf) : decodeAt e s = goTo (.decodeEmit e) s := by
  rw [decodeAt, if_pos h]

theorem decodeAt_of_internal (h : (s.node s.decCur).kind = .internal) : decodeAt e s = goTo (.decodeRead e) s := by
  rw [decodeAt, if_neg (by simp [h])]

theorem decodeAt_eq_of_nodes {t : State} (h : t.nodes = s.nodes) (c : Index) : decodeAt e { t with decCur := c } =
    { t with
      decCur := c
      eng := .running (if (s.node c).kind = .leaf then .decodeEmit e else .decodeRead e) } := by
  simp only [decodeAt, State.node, h]; rfl

theorem decodeMove_of_ne_zero (b : Bool) (h : s.decRemain ≠ 0) :
    decodeMove e b s = decodeAt e { s with decCur := childOf b (s.node s.decCur) } := by
  unfold decodeMove
  split
  case h_1 hk => exact (decodeAt_of_leaf (s := { s with decCur := childOf b (s.node s.decCur) }) hk).symm
  case h_2 hk =>
    exact (if_neg h).trans (decodeAt_of_internal (s := { s with decCur := childOf b (s.node s.decCur) }) hk).symm

theorem exec_decode_of_read (heng : s.eng = .running (.decodeRead e)) :
    exec .decode s = .next (afterRead (readBit s) (raise .truncated s) (decodeMove e) s) :=
  exec_of_running heng (decodeResume_decodeRead_eq s e)

theorem exec_decode_of_bit {b : Bool} {t : State} (heng : s.eng = .running (.decodeRead e)) (h0 : s.decRemain ≠ 0)
    (h : readBit s = .bit b t) :
    exec .decode s = .next (decodeAt e { t with decCur := childOf b (s.node s.decCur) }) := by
  have htr := transfer_of_readBit h
  rw [exec_decode_of_read heng, h, afterRead, decodeMove_of_ne_zero b (htr.decRemain ▸ h0), htr.tablesKept.node,
    htr.decCur]

theorem emit_of_room (v : Byte) (hroom : s.outq.length ≠ s.cfg.outDepth) :
    emit v s = .done { s with outq := s.outq ++ [v] } :=
  if_neg hroom

/-- What an Emit of symbol v makes of the state, with DEC_CUR at c for the next symbol (R94, R113). -/
def afterEmit (v : Byte) (c : Index) (s : State) : State :=
  { s with outq := s.outq ++ [v], decRemain := s.decRemain - 1, decCur := c }

theorem exec_decode_of_emit (heng : s.eng = .running (.decodeEmit e)) (hroom : s.outq.length ≠ s.cfg.outDepth) :
    exec .decode s = .next (decodeLoop (e + 1) (afterEmit (s.node s.decCur).sym s.rootIdx s)) :=
  exec_of_running heng (by rw [commandResume, decodeResume, emit_of_room _ hroom, afterPush]; rfl)

theorem exec_decode_of_emitRoot (heng : s.eng = .running (.decodeEmitRoot e))
    (hroom : s.outq.length ≠ s.cfg.outDepth) :
    exec .decode s = .next (decodeRootLoop (e + 1) (afterEmit (s.node s.rootIdx).sym s.decCur s)) :=
  exec_of_running heng (by rw [commandResume, decodeResume, emit_of_room _ hroom, afterPush]; rfl)

end

/-- Settles O45: the loop head at dispatch, the ends of ReadBit, and an Emit in either kind of tree. -/
theorem decodeWalksTheTreeBitByBit : Obligations.DecodeWalksTheTreeBitByBit := by
  unfold Obligations.DecodeWalksTheTreeBitByBit
  refine fun s => ⟨fun hbegins h0 => ?_, fun hbegins h0 => ?_, fun e b t heng h0 hr => ?_,
    fun e heng herr hr => ?_, fun e heng hroom => ?_, fun e heng hroom => ?_⟩
  · rw [exec_of_begins hbegins, commandBody, decodeBody_eq, decodeRound_of_zero h0, h0]; rfl
  · rw [exec_of_begins hbegins, commandBody, decodeBody_eq, decodeRound_of_ne_zero h0]; rfl
  · rw [exec_decode_of_bit heng h0 hr, decodeAt_eq_of_nodes (transfer_of_readBit hr).tablesKept.nodes]; rfl
  · rw [exec_decode_of_read heng, hr, afterRead, raise_of_ok _ herr]
  · rw [exec_decode_of_emit heng hroom, decodeLoop_eq]
    simp only [afterEmit, sub_eq_zero]
  · rw [exec_decode_of_emitRoot heng hroom, decodeRootLoop_eq]
    simp only [afterEmit, sub_eq_zero]

/-! ## Symbols decoded -/

/-- From s to t DECODE took the bits bs from the input stream and emitted the symbols ys; apart from the reader, the
FIFOs and the decoder's registers only the engine moved. -/
structure Decoded (ys : List Byte) (bs : List Bool) (s t : State) : Prop where
  frame : t = { s with
    sr := t.sr, srCnt := t.srCnt, inq := t.inq, outq := s.outq ++ ys, decRemain := t.decRemain, decCur := t.decCur,
    eng := t.eng }
  stream : inStream s = bs ++ inStream t
  remain : t.decRemain.toNat + ys.length = s.decRemain.toNat
  readerOk : ReaderOk t

section
variable {xs ys : List Byte} {as bs : List Bool} {s t u : State}

/-- The decoder's position and the engine's are no part of the streams. -/
theorem decoded_nil (h : ReaderOk s) (c : Index) (eng : Eng) : Decoded [] [] s { s with decCur := c, eng := eng } :=
  ⟨by rw [List.append_nil], rfl, rfl, h⟩

theorem BitsRead.decoded (h : BitsRead bs s t) (c : Index) : Decoded [] bs s { t with decCur := c } :=
  ⟨by rw [List.append_nil, h.frame], h.stream, by rw [h.frame]; rfl, h.readerOk⟩

theorem decoded_afterEmit (h : ReaderOk s) (h0 : s.decRemain ≠ 0) (v : Byte) (c : Index) :
    Decoded [v] [] s (afterEmit v c s) := by
  have hpos : 1 ≤ s.decRemain.toNat := Nat.one_le_iff_ne_zero.mpr fun h => h0 (BitVec.eq_of_toNat_eq h)
  refine ⟨rfl, rfl, ?_, h⟩
  have hpred : (s.decRemain - 1).toNat = s.decRemain.toNat - 1 := BitVec.toNat_sub_of_le (BitVec.le_def.mpr hpos)
  exact (congrArg (· + 1) hpred).trans (Nat.sub_add_cancel hpos)

theorem Decoded.trans (h : Decoded xs as s t) (h' : Decoded ys bs t u) : Decoded (xs ++ ys) (as ++ bs) s u := by
  refine ⟨?_, by rw [h.stream, h'.stream, List.append_assoc], ?_, h'.readerOk⟩
  · rw [h'.frame, h.frame, List.append_assoc]
  · rw [← h.remain, ← h'.remain, List.length_append, Nat.add_comm xs.length, Nat.add_assoc]

theorem Decoded.nodes (h : Decoded ys bs s t) : t.nodes = s.nodes := by rw [h.frame]
theorem Decoded.rootIdx (h : Decoded ys bs s t) : t.rootIdx = s.rootIdx := by rw [h.frame]
theorem Decoded.cfg (h : Decoded ys bs s t) : t.cfg = s.cfg := by rw [h.frame]
theorem Decoded.outq (h : Decoded ys bs s t) : t.outq = s.outq ++ ys := by rw [h.frame]

end

/-- Along a code each bit takes one engine step, and the last one leads to the Emit of the symbol. -/
theorem execTimes_decodeAt {e : Word} {sym : Byte} {p rest : List Bool} {s : State} (hs : ReaderOk s)
    (h0 : s.decRemain ≠ 0) (hpath : LeafPath s.nodes s.decCur p sym) (hin : inStream s = p ++ rest) :
    ∃ t, execTimes p.length .decode (decodeAt e s) = .next t ∧ t.eng = .running (.decodeEmit e) ∧
      (t.node t.decCur).sym = sym ∧ Decoded [] p s t := by
  induction p generalizing s with
  | nil => exact ⟨_, rfl, by rw [decodeAt_of_leaf hpath.kind]; rfl, hpath.sym, decoded_nil hs s.decCur _⟩
  | cons b p ih =>
    obtain ⟨⟨hk, hdesc⟩, hleaf, hsym⟩ := hpath
    have hgo := bitsRead_nil hs (.running (.decodeRead e))
    obtain ⟨b', u, hu⟩ := exists_readBit_of_inStream_ne_nil (s := goTo (.decodeRead e) s) (hin ▸ List.cons_ne_nil _ _)
    have hbit := hgo.trans (bitsRead_of_readBit hgo.readerOk hu)
    obtain ⟨rfl, hrest⟩ := List.cons_eq_cons.mp (hbit.stream.symm.trans hin)
    have hmove := hbit.decoded (childOf b' (s.node s.decCur))
    obtain ⟨t, ht, heng, htsym, hdec⟩ := ih hmove.readerOk (by rw [hbit.frame]; exact h0)
      (by rw [hmove.nodes]; exact ⟨hdesc, hleaf, hsym⟩) hrest
    refine ⟨t, ?_, heng, htsym, hmove.trans hdec⟩
    rw [decodeAt_of_internal hk, ← ht]
    exact execTimes_succ_of_exec _ (exec_decode_of_bit rfl h0 hu)

/-- At a head of the loop with a symbol due, the bits of its code and an Emit lead to the next head (R113). -/
theorem execTimes_decodeRound_of_path {e : Word} {sym : Byte} {p rest : List Bool} {s : State} (hs : ReaderOk s)
    (h0 : s.decRemain ≠ 0) (hcur : s.decCur = s.rootIdx) (hpath : LeafPath s.nodes s.rootIdx p sym)
    (hin : inStream s = p ++ rest) (hroom : s.outq.length ≠ s.cfg.outDepth) :
    ∃ t, execTimes (p.length + 1) .decode (decodeRound e s) = .next (decodeRound (e + 1) t) ∧
      t.decCur = s.rootIdx ∧ Decoded [sym] p s t := by
  rw [decodeRound_of_ne_zero h0]
  cases hk : (s.node s.rootIdx).kind with
  | leaf =>
    obtain ⟨rfl, rfl⟩ := (leafPath_of_leaf hk).mp hpath
    have hgo := decoded_nil hs s.decCur (.running (.decodeEmitRoot e))
    have hemit := exec_decode_of_emitRoot (s := goTo (.decodeEmitRoot e) s) rfl hroom
    have hround : decodeRound (e + 1) (afterEmit (s.node s.rootIdx).sym s.decCur (goTo (.decodeEmitRoot e) s)) = _ :=
      decodeRound_of_leaf hk
    have hend := hgo.trans (decoded_afterEmit hgo.readerOk h0 (s.node s.rootIdx).sym s.decCur)
    exact ⟨afterEmit _ _ _, hround ▸ execTimes_succ_of_exec 0 hemit, hcur, hend⟩
  | internal =>
    have hstart : goTo (.decodeRead e) s = decodeAt e s := (decodeAt_of_internal (hcur ▸ hk)).symm
    obtain ⟨t, ht, heng, rfl, hdec⟩ := execTimes_decodeAt (e := e) hs h0 (hcur ▸ hpath) hin
    have hkt : (t.node t.rootIdx).kind = .internal := by rw [State.node, hdec.nodes, hdec.rootIdx]; exact hk
    have hround : decodeRound (e + 1) (afterEmit (t.node t.decCur).sym t.rootIdx t) = _ := decodeRound_of_internal hkt
    have htroom : t.outq.length ≠ t.cfg.outDepth := by rwa [hdec.outq, hdec.cfg, List.append_nil]
    have ht0 : t.decRemain ≠ 0 := fun h => h0 (BitVec.eq_of_toNat_eq (by rw [← hdec.remain, h]; rfl))
    have hend := hdec.trans (decoded_afterEmit hdec.readerOk ht0 (t.node t.decCur).sym t.rootIdx)
    rw [List.append_nil] at hend
    refine ⟨_, ?_, hdec.rootIdx, hend⟩
    rw [if_neg nofun, hstart, execTimes_add_of_execTimes 1 ht, hround]
    exact execTimes_succ_of_exec 0 (exec_decode_of_emit heng htroom)

/-- From a head of the loop with the symbols xs due and their codes next in the stream, DECODE emits exactly those. -/
theorem execTimes_decodeRound {code : Byte → List Bool} {xs : List Byte} {pad : List Bool} {k : Nat} {s : State}
    (hs : ReaderOk s) (hcur : s.decCur = s.rootIdx) (hpath : ∀ v ∈ xs, LeafPath s.nodes s.rootIdx (code v) v)
    (hdue : s.decRemain.toNat = xs.length) (hin : inStream s = xs.flatMap code ++ pad)
    (hroom : s.outq.length + xs.length ≤ s.cfg.outDepth) :
    ∃ t, execTimes ((xs.flatMap code).length + xs.length) .decode (decodeRound (BitVec.ofNat 32 k) s) =
        .next (complete (BitVec.ofNat 32 (k + xs.length)) t) ∧
      t.decCur = s.rootIdx ∧ Decoded xs (xs.flatMap code) s t := by
  induction xs generalizing k s with
  | nil =>
    refine ⟨s, ?_, hcur, decoded_nil hs s.decCur s.eng⟩
    rw [decodeRound_of_zero (BitVec.eq_of_toNat_eq hdue)]
    rfl
  | cons v xs ih =>
    obtain ⟨hv, hrest⟩ := List.forall_mem_cons.mp hpath
    rw [List.length_cons] at hdue hroom
    rw [List.flatMap_cons, List.append_assoc] at hin
    have h0 : s.decRemain ≠ 0 := fun h => by simp [h] at hdue
    obtain ⟨u, hu, hucur, hsym⟩ :=
      execTimes_decodeRound_of_path (e := BitVec.ofNat 32 k) hs h0 hcur hv hin (by omega)
    rw [ofNat_add_one] at hu
    have hremain : u.decRemain.toNat + 1 = s.decRemain.toNat := hsym.remain
    obtain ⟨t, ht, htcur, hsyms⟩ := ih (k := k + 1) (s := u) hsym.readerOk (hucur.trans hsym.rootIdx.symm)
      (by rw [hsym.nodes, hsym.rootIdx]; exact hrest) (by omega)
      (List.append_cancel_left (hsym.stream.symm.trans hin))
      (by rw [hsym.outq, hsym.cfg, List.length_append, List.length_singleton]; omega)
    refine ⟨t, ?_, htcur.trans hsym.rootIdx, hsym.trans hsyms⟩
    rw [List.flatMap_cons, List.length_append, List.length_cons,
      show (code v).length + (xs.flatMap code).length + (xs.length + 1) =
        (code v).length + 1 + ((xs.flatMap code).length + xs.length) by omega,
      execTimes_add_of_execTimes _ hu, ht, Nat.add_right_comm, Nat.add_assoc]

/-- Settles O46: each code is the path to its symbol's Leaf, and DECODE runs along these paths from the root. -/
theorem decodeInvertsTheCodes : Obligations.DecodeInvertsTheCodes := by
  unfold Obligations.DecodeInvertsTheCodes
  rintro s xs pad ⟨⟨-, -, hs, -, -⟩, hr, ht, -, -⟩ hbegins hvalid hlen hin hroom
  have hp := phaseError_decode_iff.mp hbegins.2.2
  have hcount : (s.node s.rootIdx).count = s.total := (ht.1 hp).2
  have hpath : ∀ v ∈ xs, LeafPath s.nodes s.rootIdx (s.treeCode v).bits v := fun v hv =>
    leafPath_of_treeCode_valid hr ht hp (hvalid v hv)
  obtain ⟨t, hrun, hcur, hdec⟩ := execTimes_decodeRound (k := 0)
    (s := { s with decRemain := s.total, decCur := s.rootIdx }) hs rfl hpath hlen.symm hin hroom
  have hdue : t.decRemain = 0 := BitVec.eq_of_toNat_eq (by have := hdec.remain; simp at this ⊢; omega)
  have htotal : BitVec.ofNat 32 (0 + xs.length) = s.total := by rw [Nat.zero_add, hlen, BitVec.ofNat_toNat]; simp
  rw [htotal] at hrun
  refine ⟨complete s.total t, ?_, ?_, ?_⟩
  · rw [Nat.add_assoc, Nat.add_comm, execTimes_succ_of_exec _ (exec_of_begins hbegins), commandBody, decodeBody_eq,
      hcount, ← hrun]
    rfl
  · conv_lhs => rw [hdec.frame, hdue, hcur]
    rfl
  · exact List.append_cancel_left (hdec.stream.symm.trans hin)

end Sys2Proof.Machine
end

section
/-! PROOFS. What one session encodes and flushes, another one with the same tree decodes (R97, R104, R112, R115): O47. -/

namespace Sys2Proof.Machine

/-- Two arenas that hold the same tree give the same codes (R104, R107). -/
theorem codesOf_congr {s : State} {nodes : Vector Node 511} (hr : RecordOk s) (ht : TreeOk s)
    (hp : s.phase = .built ∨ s.phase = .coded)
    (h : ∀ i < 2 * s.nrec.toNat - 1, readNode nodes i = readNode s.nodes i) :
    codesOf nodes s.rootIdx = codesOf s.nodes s.rootIdx := by
  obtain ⟨hroot, h1⟩ := rootIdx_toNat hr ht hp
  exact walk_congr (r := s.rootIdx.toNat) (fun i hi => h _ (by omega))
    (fun i hi hk b => (childOf_lt_of_internal hr ht hp hi hk b).le.trans hi) 511 le_rfl [] emptyCodes

/-- FLUSH, latched by a host write to CMD, pushes the buffered bits as a byte filled up with zeros, if there are any
(R78, R97). -/
theorem execTimes_flush {s : State} (hs : WriterOk s) (heng : s.eng = .idle) (herr : s.err = .ok)
    (hroom : (outStream s).length + 7 ≤ 8 * s.cfg.outDepth) :
    ∃ w pad, execTimes 2 .flush (hostWrite .cmd (encode .flush) s) = .next w ∧
      w.outq.flatMap byteBits = outStream s ++ List.replicate pad false ∧ pad ≤ 7 := by
  have hlatch : hostWrite .cmd (encode .flush) s =
      { s with cmdLast := encode .flush, cmdArg := s.arg, eng := .pending } := if_pos heng
  have hbegins : Begins .flush (hostWrite .cmd (encode .flush) s) := by
    rw [hlatch]; exact ⟨rfl, lockedOut_of_ok _ herr, rfl⟩
  obtain ⟨-, hflush⟩ := flushPadsTheLastByteWithZeros
  obtain ⟨-, hempty, -, hfull⟩ := hflush (goTo .flush (hostWrite .cmd (encode .flush) s))
  rw [execTimes_succ_of_exec 1 (exec_of_begins hbegins), commandBody]
  rw [hlatch] at hempty hfull ⊢
  rw [outStream_length hs] at hroom
  by_cases h0 : s.accCnt = 0
  · refine ⟨_, 0, execTimes_succ_of_exec 0 (hempty rfl h0), ?_, by omega⟩
    simp [outStream, h0, goTo]
  · have hpos : s.accCnt.toNat ≠ 0 := fun h => h0 (BitVec.eq_of_toNat_eq h)
    have hne : s.outq.length ≠ s.cfg.outDepth := by omega
    obtain ⟨hexec, hpad⟩ := hfull rfl h0 hne
    exact ⟨_, _, execTimes_succ_of_exec 0 hexec, hpad hs, by simp [goTo]; omega⟩

/-- What a session with an empty writer and output FIFO makes of its input bytes by ENCODE_STREAM and FLUSH: their codes,
and at most 7 zeros (R97, R112). -/
theorem encodeStream_flush_outq {s u w : State} (hs : WriterOk s) (hbegins : Begins .encodeStream s)
    (heos : s.eos = true) (hout : outStream s = []) (hv : ∀ v ∈ s.inq, (s.code v).valid = true)
    (hfits : (s.inq.flatMap fun v => (s.code v).bits).length + 7 ≤ 8 * s.cfg.outDepth)
    (henc : execTimes (2 + s.inq.length + (s.inq.flatMap fun v => (s.code v).bits).length) .encodeStream s = .next u)
    (hflush : execTimes 2 .flush (hostWrite .cmd (encode .flush) u) = .next w) :
    ∃ pad, w.outq.flatMap byteBits = (s.inq.flatMap fun v => (s.code v).bits) ++ List.replicate pad false ∧
      pad ≤ 7 := by
  have hroom : HasRoom (s.inq.flatMap fun v => (s.code v).bits).length s := by
    rw [HasRoom, hout, List.length_nil]; omega
  obtain ⟨t, ht, hbits⟩ := execTimes_encodeStream hs hbegins heos hv hroom
  obtain rfl := Host.Outcome.next.inj (ht.symm.trans henc)
  have hstream : outStream t = s.inq.flatMap fun v => (s.code v).bits := by
    rw [hbits.stream]; exact congrArg (· ++ _) hout
  have hserr : s.err = .ok := err_eq_ok_of_begins hbegins rfl
  have herr : t.err = .ok := by rw [hbits.frame]; exact hserr
  have hcfg : t.cfg = s.cfg := by rw [hbits.frame]
  obtain ⟨w', pad, hw', hwbits, hpad⟩ := execTimes_flush (s := complete (BitVec.ofNat 32 s.inq.length) t)
    hbits.writerOk rfl herr (by rw [← hcfg, ← hstream] at hfits; exact hfits)
  obtain rfl := Host.Outcome.next.inj (hw'.symm.trans hflush)
  exact ⟨pad, hwbits.trans (congrArg (· ++ _) hstream), hpad⟩

/-- Settles O47: the second session reads the codes and the padding, and O46 says what it makes of them. -/
theorem encodeThenDecodeGivesBackTheBytes : Obligations.EncodeThenDecodeGivesBackTheBytes := by
  unfold Obligations.EncodeThenDecodeGivesBackTheBytes
  intro s u w s' hinv hinv' hbegins heos houtq hcnt hv hfits henc hflush hbegins' hn hroot hnodes htotal hsr hinq
    houtq' hroom
  obtain ⟨⟨-, hs, -, -, -⟩, hr, ht, -, -⟩ := hinv
  have hp : s.phase = .coded := phaseError_encodeStream_iff.mp hbegins.2.2
  have hout : outStream s = [] := by simp [outStream, houtq, hcnt]
  obtain ⟨pad, hbits, hpad⟩ := encodeStream_flush_outq hs hbegins heos hout hv hfits henc hflush
  have herr : s'.err = .ok := err_eq_ok_of_begins hbegins' rfl
  have hcode : ∀ v, s'.treeCode v = s.code v := fun v => by
    simp only [State.treeCode, State.code, hroot, codesOf_congr hr ht (.inr hp) hnodes, ht.2 hp]
  have hin : inStream s' = (s.inq.flatMap fun v => (s'.treeCode v).bits) ++ List.replicate pad false := by
    simp only [hcode, ← hbits, inStream, hsr, hinq]; rfl
  obtain ⟨t, hrun, hframe, hrest⟩ := decodeInvertsTheCodes s' s.inq _ hinv' hbegins'
    (fun v hmem => by rw [hcode]; exact hv v hmem) htotal.symm hin (by rw [houtq']; simpa using hroom)
  simp only [hcode] at hrun
  refine ⟨t, hrun, ?_, ?_, ?_, ?_⟩
  · rw [hframe, houtq']; rfl
  · rw [hframe]
  · rw [hframe]; exact herr
  · rw [hrest, List.length_replicate]; exact hpad

end Sys2Proof.Machine
end

section
/-! PROOFS. The digits of a count spell it, an entry parses to its record, and so a header to its records (R118 to
R120): O60. -/

namespace Sys2Proof.Machine

/-! ## The digits of a count (R118, R120) -/

theorem digitByte_toNat {d : Nat} (h : d < 10) : (digitByte d).toNat = 0x30 + d := by
  rw [digitByte, BitVec.toNat_ofNat, Nat.mod_eq_of_lt (by omega)]

theorem isDigit_digitByte {d : Nat} (h : d < 10) : isDigit (digitByte d) = true := by
  simp only [isDigit, digitByte_toNat h, Bool.and_eq_true, decide_eq_true_eq]
  omega

/-- A digit behind a digit run: the run counts tens. -/
theorem digitsValue_append_digitByte (ds : List Byte) {d : Nat} (h : d < 10) :
    digitsValue (ds ++ [digitByte d]) = 10 * digitsValue ds + d := by
  simp [digitsValue, digitByte_toNat h]

theorem isDigit_of_mem_decimalDigits {b : Byte} :
    ∀ {fuel n : Nat}, b ∈ decimalDigits fuel n → isDigit b = true
  | fuel + 1, n, hb => by
    rw [decimalDigits] at hb
    split at hb
    next hn => rw [List.mem_singleton.mp hb, isDigit_digitByte hn]
    next =>
      rcases List.mem_append.mp hb with hb | hb
      · exact isDigit_of_mem_decimalDigits hb
      · rw [List.mem_singleton.mp hb, isDigit_digitByte (Nat.mod_lt n (by omega))]

theorem digitsValue_decimalDigits : ∀ {fuel n : Nat}, n < fuel → digitsValue (decimalDigits fuel n) = n
  | fuel + 1, n, hfuel => by
    rw [decimalDigits]
    split
    next hn => simpa [digitsValue] using digitsValue_append_digitByte [] hn
    next =>
      rw [digitsValue_append_digitByte _ (Nat.mod_lt n (by omega)),
        digitsValue_decimalDigits (show n / 10 < fuel by omega)]
      omega

theorem isDigit_of_mem_decimal {b : Byte} {c : Nat} (h : b ∈ decimal c) : isDigit b = true :=
  isDigit_of_mem_decimalDigits h

@[simp] theorem digitsValue_decimal (c : Nat) : digitsValue (decimal c) = c :=
  digitsValue_decimalDigits c.lt_succ_self

@[simp] theorem decimal_ne_nil (c : Nat) : decimal c ≠ [] := by
  rw [decimal, decimalDigits]
  split <;> simp

/-- Behind its symbol and '!!', the digit run of an entry ends at '%%'. -/
theorem takeWhile_isDigit_decimal (c : Nat) (rest : List Byte) :
    (decimal c ++ (percents ++ rest)).takeWhile isDigit = decimal c := by
  rw [List.takeWhile_append_of_pos fun _ => isDigit_of_mem_decimal]
  exact List.append_nil _

theorem dropWhile_isDigit_decimal (c : Nat) (rest : List Byte) :
    (decimal c ++ (percents ++ rest)).dropWhile isDigit = percents ++ rest := by
  rw [List.dropWhile_append_of_pos fun _ => isDigit_of_mem_decimal]
  rfl

/-! ## The loop of ParseHeader over entries and terminator -/

theorem entryBytes_append (r : FreqRecord) (rest : List Byte) :
    entryBytes r ++ rest = r.sym :: (bangs ++ (decimal r.count ++ (percents ++ rest))) := by
  simp [entryBytes]

theorem entryBytes_length (r : FreqRecord) : (entryBytes r).length = 5 + (decimal r.count).length := by
  simp [entryBytes, bangs, percents]
  omega

@[simp] theorem entriesBytes_cons (r : FreqRecord) (recs : List FreqRecord) :
    entriesBytes (r :: recs) = entryBytes r ++ entriesBytes recs := by
  simp [entriesBytes]

/-- An entry is no terminator, even when its symbol is '-', as '!' follows. -/
theorem take_two_entryBytes_ne_dashes (r : FreqRecord) (rest : List Byte) :
    (entryBytes r ++ rest).take 2 ≠ dashes := by
  simp [entryBytes_append, bangs, dashes]

/-- One entry takes the loop once around and appends its record. -/
theorem parseEntries_entry (fuel : Nat) {r : FreqRecord} (hr : r.count ≤ 2 ^ 32 - 1) (rest : List Byte) (pos : Nat)
    (acc : List FreqRecord) :
    parseEntries (fuel + 1) (entryBytes r ++ rest) pos acc =
      parseEntries fuel rest (pos + (5 + (decimal r.count).length)) (acc ++ [r]) := by
  have hdashes := take_two_entryBytes_ne_dashes r rest
  rw [entryBytes_append] at hdashes ⊢
  rw [parseEntries, if_neg hdashes]
  have hbangs : (bangs ++ (decimal r.count ++ (percents ++ rest))).take 2 = bangs := rfl
  have hdigits : (bangs ++ (decimal r.count ++ (percents ++ rest))).drop 2 =
      decimal r.count ++ (percents ++ rest) := rfl
  have hpercents : (percents ++ rest).take 2 = percents := rfl
  have hrest : (percents ++ rest).drop 2 = rest := rfl
  simp only [hbangs, hdigits, takeWhile_isDigit_decimal, dropWhile_isDigit_decimal, hpercents, hrest, decimal_ne_nil,
    digitsValue_decimal, Nat.not_lt.mpr hr, ne_eq, not_true_eq_false, if_false, Nat.add_assoc]

/-- '--' '--' ends the loop, whatever follows. -/
theorem parseEntries_terminator (fuel : Nat) (payload : List Byte) (pos : Nat) (acc : List FreqRecord) :
    parseEntries (fuel + 1) (entriesBytes [] ++ payload) pos acc = some (acc, pos + 4) := rfl

theorem parseEntries_entriesBytes (payload : List Byte) :
    ∀ (recs : List FreqRecord) {fuel : Nat} (pos : Nat) (acc : List FreqRecord),
      (∀ r ∈ recs, r.count ≤ 2 ^ 32 - 1) → recs.length < fuel →
      parseEntries fuel (entriesBytes recs ++ payload) pos acc =
        some (acc ++ recs, pos + (recs.map fun r => 5 + (decimal r.count).length).sum + 4)
  | [], fuel + 1, pos, acc, _, _ => by
    rw [parseEntries_terminator]
    simp
  | r :: recs, fuel + 1, pos, acc, hrecs, hfuel => by
    obtain ⟨hr, hrecs⟩ := List.forall_mem_cons.mp hrecs
    rw [entriesBytes_cons, List.append_assoc, parseEntries_entry fuel hr,
      parseEntries_entriesBytes payload recs _ _ hrecs (Nat.lt_of_succ_lt_succ hfuel)]
    simp [Nat.add_assoc]

/-! ## The header -/

theorem entriesBytes_length (recs : List FreqRecord) :
    (entriesBytes recs).length = (recs.map fun r => 5 + (decimal r.count).length).sum + 4 := by
  simp [entriesBytes, List.length_flatMap, entryBytes_length, dashes]

theorem headerBytes_length (recs : List FreqRecord) : (headerBytes recs).length = headerLength recs := by
  simp [headerBytes, headerLength, entriesBytes_length, percents]
  omega

/-- Each entry has a byte, so the length of the header bounds the number of its entries. -/
theorem length_lt_headerLength (recs : List FreqRecord) : recs.length < headerLength recs := by
  have h : recs.length • 1 ≤ (recs.map fun r => 5 + (decimal r.count).length).sum := by
    simpa using List.card_nsmul_le_sum (recs.map fun r => 5 + (decimal r.count).length) 1 (by simp; omega)
  simp only [smul_eq_mul, mul_one] at h
  rw [headerLength]
  omega

/-- Settles O60: the loop goes around once for each entry, and ends at the terminator, whatever follows it. -/
theorem parsingAWrittenHeaderGivesItsRecords : Obligations.ParsingAWrittenHeaderGivesItsRecords := by
  unfold Obligations.ParsingAWrittenHeaderGivesItsRecords
  intro recs payload hrecs
  refine ⟨?_, headerBytes_length recs⟩
  have hfuel : recs.length < (headerBytes recs ++ payload).length := by
    have := length_lt_headerLength recs
    rw [List.length_append, headerBytes_length]
    omega
  have htake : (headerBytes recs ++ payload).take 2 = percents := rfl
  have hdrop : (headerBytes recs ++ payload).drop 2 = entriesBytes recs ++ payload := rfl
  rw [parseHeader, if_neg (not_not.mpr htake), hdrop, parseEntries_entriesBytes payload recs 2 [] hrecs hfuel]
  rfl

end Sys2Proof.Machine
end

section
/-! PROOFS. One more byte of the input adds one to the count of its record, or appends its first record (R117): O59. -/

namespace Sys2Proof.Machine

theorem analyse_append_singleton (x : List Byte) (b : Byte) : analyse (x ++ [b]) = countByte b (analyse x) := by
  simp [analyse]

/-! ## One more occurrence of a byte -/

theorem countByte_of_notMem {b : Byte} :
    ∀ {recs : List FreqRecord}, b ∉ recs.map FreqRecord.sym → countByte b recs = recs ++ [⟨b, 1⟩]
  | [], _ => rfl
  | r :: recs, h => by
    rw [List.map_cons, List.mem_cons, not_or] at h
    rw [countByte, if_neg (Ne.symm h.1), countByte_of_notMem h.2, List.cons_append]

/-- The record with one more occurrence, if it is the record of the byte. -/
def FreqRecord.addOccurrence (b : Byte) (r : FreqRecord) : FreqRecord :=
  { r with count := r.count + [b].count r.sym }

@[simp] theorem FreqRecord.addOccurrence_sym (b : Byte) (r : FreqRecord) : (r.addOccurrence b).sym = r.sym := rfl

theorem FreqRecord.addOccurrence_self (r : FreqRecord) : r.addOccurrence r.sym = ⟨r.sym, r.count + 1⟩ := by
  simp [addOccurrence]

theorem FreqRecord.addOccurrence_of_ne {b : Byte} {r : FreqRecord} (h : r.sym ≠ b) : r.addOccurrence b = r := by
  simp [addOccurrence, Ne.symm h]

theorem map_addOccurrence_of_notMem {b : Byte} {recs : List FreqRecord} (h : b ∉ recs.map FreqRecord.sym) :
    recs.map (FreqRecord.addOccurrence b) = recs := by
  have hne : ∀ r ∈ recs, r.sym ≠ b := fun r hr he => h (he ▸ List.mem_map_of_mem hr)
  exact (List.map_congr_left fun r hr => FreqRecord.addOccurrence_of_ne (hne r hr)).trans (List.map_id recs)

/-- Where no byte has two records, the one that counts is the byte's only one. -/
theorem countByte_of_mem {b : Byte} :
    ∀ {recs : List FreqRecord}, (recs.map FreqRecord.sym).Nodup → b ∈ recs.map FreqRecord.sym →
      countByte b recs = recs.map (FreqRecord.addOccurrence b)
  | r :: recs, hnodup, hmem => by
    obtain ⟨hr, hrecs⟩ := List.nodup_cons.mp hnodup
    rw [countByte, List.map_cons]
    split
    next he =>
      subst he
      rw [FreqRecord.addOccurrence_self, map_addOccurrence_of_notMem hr]
    next he =>
      rw [FreqRecord.addOccurrence_of_ne he,
        countByte_of_mem hrecs ((List.mem_cons.mp hmem).resolve_left (Ne.symm he))]

/-! ## The records of the input so far -/

/-- The records hold each byte of x once with its number of occurrences, in the order of first occurrence (R117). -/
structure Analyses (recs : List FreqRecord) (x : List Byte) : Prop where
  syms   : ∀ b, b ∈ recs.map FreqRecord.sym ↔ b ∈ x
  counts : ∀ r ∈ recs, r.count = x.count r.sym
  order  : recs.Pairwise fun r q => x.idxOf r.sym < x.idxOf q.sym

theorem Analyses.nil : Analyses [] [] := ⟨by simp, by simp, .nil⟩

section
variable {recs : List FreqRecord} {x : List Byte} (h : Analyses recs x) {b : Byte}
include h

theorem Analyses.sym_mem {r : FreqRecord} (hr : r ∈ recs) : r.sym ∈ x :=
  (h.syms r.sym).mp (List.mem_map_of_mem hr)

theorem Analyses.nodup : (recs.map FreqRecord.sym).Nodup :=
  List.pairwise_map.mpr (h.order.imp fun hlt he => hlt.ne (congrArg x.idxOf he))

/-- More input does not change where a byte seen already occurs first. -/
theorem Analyses.order_append (y : List Byte) :
    recs.Pairwise fun r q => (x ++ y).idxOf r.sym < (x ++ y).idxOf q.sym :=
  h.order.imp_of_mem fun hr hq hlt => by
    rwa [List.idxOf_append_of_mem (h.sym_mem hr), List.idxOf_append_of_mem (h.sym_mem hq)]

theorem Analyses.append_of_mem (hb : b ∈ x) : Analyses (countByte b recs) (x ++ [b]) := by
  rw [countByte_of_mem h.nodup ((h.syms b).mpr hb)]
  refine ⟨fun c => ?_, ?_, List.pairwise_map.mpr (h.order_append [b])⟩
  · have hmap : (recs.map (FreqRecord.addOccurrence b)).map FreqRecord.sym = recs.map FreqRecord.sym := by
      rw [List.map_map]; rfl
    rw [hmap, h.syms, List.mem_append, List.mem_singleton]
    exact ⟨.inl, fun hc => hc.elim id (· ▸ hb)⟩
  · refine List.forall_mem_map.mpr fun r hr => ?_
    rw [List.count_append, FreqRecord.addOccurrence_sym, ← h.counts r hr]
    rfl

theorem Analyses.append_of_notMem (hb : b ∉ x) : Analyses (countByte b recs) (x ++ [b]) := by
  rw [countByte_of_notMem (mt (h.syms b).mp hb)]
  refine ⟨fun c => by simp [← h.syms], fun r hr => ?_,
    List.pairwise_append.mpr ⟨h.order_append [b], List.pairwise_singleton _ _, ?_⟩⟩
  · rw [List.count_append]
    rcases List.mem_append.mp hr with hr | hr
    · have hne : b ≠ r.sym := fun he => hb (he ▸ h.sym_mem hr)
      rw [h.counts r hr, List.count_singleton, if_neg (by simpa using hne), Nat.add_zero]
    · rw [List.mem_singleton.mp hr, List.count_eq_zero_of_not_mem hb, List.count_singleton_self]
  · intro r hr q hq
    rw [List.mem_singleton.mp hq, List.idxOf_append_of_mem (h.sym_mem hr), List.idxOf_append_of_notMem hb]
    exact Nat.lt_add_right _ (List.idxOf_lt_length_of_mem (h.sym_mem hr))

theorem Analyses.append_singleton (b : Byte) : Analyses (countByte b recs) (x ++ [b]) := by
  by_cases hb : b ∈ x
  · exact h.append_of_mem hb
  · exact h.append_of_notMem hb

end

theorem analyses_analyse (x : List Byte) : Analyses (analyse x) x := by
  induction x using List.reverseRecOn with
  | nil => exact .nil
  | append_singleton x b ih =>
    rw [analyse_append_singleton]
    exact ih.append_singleton b

/-- Settles O59: it is the invariant of the fold over the input. -/
theorem analysisCountsInFirstSeenOrder : Obligations.AnalysisCountsInFirstSeenOrder := by
  unfold Obligations.AnalysisCountsInFirstSeenOrder
  intro x
  obtain ⟨hsyms, hcounts, horder⟩ := analyses_analyse x
  exact ⟨hsyms, hcounts, horder⟩

end Sys2Proof.Machine
end

section
/-! PROOFS. When ERR changes (R46, R79, R126 to R132): a step raises an error or keeps ERR, but for ACK_ERR, CLEAR and
the resets, and an error already set is kept where another is raised: O19, O52. -/

namespace Sys2Proof.Machine

/-! ## Loop heads keep ERR -/

section
variable (s : State)

theorem writeBitsLoop_err (j : Nat) : (writeBitsLoop j s).err = s.err := by
  cases j <;> rfl

theorem skipLoop_err (n : BitVec 24) (k : Nat) : (skipLoop n k s).err = s.err := by
  unfold skipLoop; split <;> rfl

theorem encodeSymLoop_err (sym : Byte) (j : Nat) : (encodeSymLoop sym j s).err = s.err := by
  unfold encodeSymLoop; split <;> rfl

theorem streamLoop_err (cnt : Word) (v : Byte) (j : Nat) : (streamLoop cnt v j s).err = s.err := by
  unfold streamLoop; split <;> rfl

theorem decodeRootLoop_err (e : Word) : (decodeRootLoop e s).err = s.err := by
  unfold decodeRootLoop; split <;> rfl

theorem decodeLoop_err (e : Word) : (decodeLoop e s).err = s.err := by
  unfold decodeLoop; split <;> rfl

theorem decodeMove_err (e : Word) (b : Bool) : (decodeMove e b s).err = s.err := by
  unfold decodeMove
  split
  · rfl
  · exact decodeLoop_err _ e

theorem decodeBody_err : (decodeBody s).err = s.err := by
  unfold decodeBody
  split
  · exact decodeRootLoop_err _ 0
  · exact decodeLoop_err _ 0

end

/-! ## Raising an error -/

/-- An error is raised and nothing else is done (R126), or ERR is as it was. -/
def RaisesOrKeepsErr (s t : State) : Prop := (∃ c, t = raise c s) ∨ t.err = s.err

/-- The first error is kept (R46). -/
theorem RaisesOrKeepsErr.err_eq {s t : State} (h : RaisesOrKeepsErr s t) (herr : s.err ≠ .ok) : t.err = s.err := by
  rcases h with ⟨c, rfl⟩ | h
  · rw [raise_of_err c herr]
  · exact h

/-- A new error leaves everything but ERR and ENG as it was (R127). -/
theorem RaisesOrKeepsErr.eq_of_new_err {s t : State} (h : RaisesOrKeepsErr s t) (hs : s.err = .ok) (ht : t.err ≠ .ok) :
    t = { s with err := t.err, eng := .idle } := by
  rcases h with ⟨c, rfl⟩ | h
  · rw [raise_of_ok c hs]
  · exact absurd (h.trans hs) ht

theorem streamByte_raisesOrKeepsErr (cnt : Word) (v : Byte) (s : State) :
    RaisesOrKeepsErr s (streamByte cnt v s) := by
  unfold streamByte
  split
  · exact .inr (streamLoop_err s cnt v 0)
  · exact .inl ⟨_, rfl⟩

/-- Only the pseudocode of ACK_ERR and that of CLEAR set ERR to 0; LOAD_RECORD and ENCODE_SYM may raise an error. -/
theorem commandBody_err (i : Instr) (s : State) :
    RaisesOrKeepsErr s (commandBody i s) ∨ ((i = .ackErr ∨ i = .clear) ∧ (commandBody i s).err = .ok) := by
  cases i with
  | ackErr => exact .inr ⟨.inl rfl, rfl⟩
  | clear => exact .inr ⟨.inr rfl, rfl⟩
  | nop | build | genCodes | queryCode | flush | readBit | alignRead | encodeStream => exact .inl (.inr rfl)
  | loadRecord sym =>
    rcases loadRecordBody_cases sym s with hraise | ⟨-, -, h⟩
    · exact .inl (.inl hraise)
    · exact .inl (.inr (by rw [commandBody, h]; rfl))
  | queryNode idx => rw [commandBody, queryNodeBody]; split <;> exact .inl (.inr rfl)
  | writeBits nb v => exact .inl (.inr (writeBitsLoop_err s _))
  | skipBits n => exact .inl (.inr (skipLoop_err s n 0))
  | encodeSym sym =>
    rw [commandBody, encodeSymBody]
    split
    · exact .inl (.inr (encodeSymLoop_err s sym 0))
    · exact .inl (.inl ⟨_, rfl⟩)
  | decode => exact .inl (.inr (decodeBody_err s))

/-- A step of a command raises an error or keeps ERR, or is the whole of ACK_ERR or CLEAR, or is a step at a call. -/
theorem exec_err_cases {i : Instr} {s t : State} (h : exec i s = .next t) :
    RaisesOrKeepsErr s t ∨ ((i = .ackErr ∨ i = .clear) ∧ t.err = .ok) ∨
    ∃ loc, s.eng = .running loc ∧ CallStep i loc s t := by
  rcases exec_next h with ⟨rfl, -⟩ | rfl | ⟨rfl, -, -⟩ | ⟨loc, heng, hres⟩
  · exact .inl (.inr rfl)
  · exact .inl (.inl ⟨_, rfl⟩)
  · exact (commandBody_err i s).imp_right .inl
  · exact .inr (.inr ⟨loc, heng, callStep_of_commandResume hres⟩)

/-- Settles O19: from PENDING no command is at a call, and a command that does not keep ERR 0 raises an error. -/
theorem dispatchErrorsArePrecise : Obligations.DispatchErrorsArePrecise := by
  unfold Obligations.DispatchErrorsArePrecise
  intro i s t hs herr h ht
  rcases exec_err_cases h with hr | ⟨-, hok⟩ | ⟨loc, heng, -⟩
  · exact hr.eq_of_new_err herr ht
  · exact absurd hok ht
  · rw [hs] at heng; cases heng

/-! ## An error already set -/

/-- A step at a call keeps an error already set: CODE_MISS and TRUNCATED are recorded only where ERR is 0. -/
theorem CallStep.err_eq {i : Instr} {loc : Loc} {s t : State} (h : CallStep i loc s t) (herr : s.err ≠ .ok) :
    t.err = s.err := by
  cases h with
  | held | readEof | skipEof | streamEnd => rfl
  | writeBits h => exact (writeBitsLoop_err _ _).trans (transfer_of_writeBit h).err
  | flush h => exact (transfer_of_flushByte h).err
  | readBit h => exact (transfer_of_readBit h).err
  | skipBit h => exact (skipLoop_err _ _ _).trans (transfer_of_readBit h).err
  | encodeSym h => exact (encodeSymLoop_err _ _ _).trans (transfer_of_writeBit h).err
  | streamByte h =>
    have hpop := (transfer_of_popByte h).err
    exact ((streamByte_raisesOrKeepsErr _ _ _).err_eq (hpop ▸ herr)).trans hpop
  | streamWrite h => exact (streamLoop_err _ _ _ _).trans (transfer_of_writeBit h).err
  | decodeEmitRoot h => exact (decodeRootLoop_err _ _).trans (transfer_of_emit h).err
  | decodeEof => exact RaisesOrKeepsErr.err_eq (.inl ⟨_, rfl⟩) herr
  | decodeBit h => exact (decodeMove_err _ _ _).trans (transfer_of_readBit h).err
  | decodeEmit h => exact (decodeLoop_err _ _).trans (transfer_of_emit h).err

section
variable {s t : State} (herr : s.err ≠ .ok)
include herr

theorem exec_err_of_err {i : Instr} (h : exec i s = .next t) :
    t.err = s.err ∨ (t.err = .ok ∧ (i = .ackErr ∨ i = .clear)) := by
  rcases exec_err_cases h with hr | ⟨hi, hok⟩ | ⟨loc, -, hcall⟩
  · exact .inl (hr.err_eq herr)
  · exact .inr ⟨hok, hi⟩
  · exact .inl (hcall.err_eq herr)

theorem engineTurn_err_of_err (h : engineTurn s = .next t) :
    t.err = s.err ∨
    (t.err = .ok ∧ s.eng ≠ .idle ∧ (decode s.cmdLast = .ok .ackErr ∨ decode s.cmdLast = .ok .clear)) := by
  rcases engineTurn_next h with ⟨-, rfl⟩ | ⟨heng, i, hd, he⟩ | ⟨-, -, rfl⟩
  · exact .inl rfl
  · refine (exec_err_of_err herr he).imp_right fun ⟨hok, hi⟩ => ⟨hok, heng, ?_⟩
    rcases hi with rfl | rfl
    · exact .inl hd
    · exact .inr hd
  · rw [dispatchIllegal_eq]; exact .inl (if_neg herr)

/-- Of the host writes only SRST sets ERR to 0; an ABORT keeps an error already set (R128). -/
theorem hostWrite_err_of_err (r : Reg) (v : Word) :
    (hostWrite r v s).err = s.err ∨ (r = .ctrl ∧ v.getLsbD 0 = true ∧ (hostWrite r v s).err = .ok) := by
  cases r
  case ctrl =>
    rw [hostWrite, writeCtrl]
    split
    case isTrue h0 => exact .inr ⟨rfl, h0, rfl⟩
    case isFalse =>
      left
      split
      · rcases abort_cases { s with eos := v.getLsbD 2 } with ⟨-, h⟩ | ⟨-, h⟩ <;> rw [h]
        exact if_neg herr
      · rfl
  case cmd => rcases latch_cases v s with ⟨-, h⟩ | ⟨-, h⟩ <;> rw [hostWrite, h] <;> exact .inl rfl
  case inData => rw [hostWrite, pushIn]; split <;> exact .inl rfl
  all_goals exact .inl rfl

end

/-- Settles O52: who moves in the step decides which of the ways back to 0 it can be. -/
theorem errorIsKeptUntilAcknowledgedOrReset : Obligations.ErrorIsKeptUntilAcknowledgedOrReset := by
  unfold Obligations.ErrorIsKeptUntilAcknowledgedOrReset
  intro s t h herr
  obtain ⟨rest, ⟨hm, he⟩ | ⟨r, rfl⟩ | ⟨r, v, hw, rfl⟩ | ⟨hturns, rfl⟩⟩ := step_cases h
  · exact (engineTurn_err_of_err (s := { s with turns := rest }) herr he).imp_right
      fun ⟨hok, heng, hd⟩ => ⟨hok, .inl ⟨hm, heng, hd⟩⟩
  · exact .inl (hostRead_positionKept r _).err
  · rcases hostWrite_err_of_err (s := { s with turns := rest }) herr r v with hk | ⟨rfl, h0, hok⟩
    · exact .inl hk
    · exact .inr ⟨hok, .inr (.inl ⟨v, hw, h0⟩)⟩
  · exact .inr ⟨rfl, .inr (.inr ⟨rest, hturns⟩)⟩

end Sys2Proof.Machine
end
